-- ==== Sys2Proof/Word.lean ====
section
/-! DEFINITION. The word types of the block and of the controller behind it. -/

namespace Sys2Proof

/-- One byte: an expander word, a controller byte, a byte of a packet (spec/30_encoding.md R80, R84, R96). -/
abbrev Byte := BitVec 8

/-- A 4-bit half of a byte (spec/00_scope.md R13). -/
abbrev Nibble := BitVec 4

/-- A 7-bit address: of the peripheral (R31), of a display cell (R160), of the address counter (R70). -/
abbrev Addr := BitVec 7

end Sys2Proof
end

