-- ==== Sys2Proof/Config.lean ====
section
/-! DEFINITION. What is fixed for the block (delays, command constants, presets) and the free values of the spec:
constants without a body, about which nothing can be proved. -/

namespace Sys2Proof

/-- The per-row base-address table `row_base[0..3]`: always four slots of 7 bits (spec/10_state.md R24). -/
structure RowBase where
  r0 : Addr
  r1 : Addr
  r2 : Addr
  r3 : Addr
  deriving DecidableEq, Repr

/-- A size: columns, rows and the row-base table; what a preset names (R25) and what creation checks (R23). -/
structure Geometry where
  columns : Byte
  rows    : Byte
  rowBase : RowBase
  deriving DecidableEq, Repr

/-- What the bus primitive answers to a `BusOpen` or a `BusWrite` (R50, R51). A failed write carries whether the word
reached the expander's pins all the same (R76, U3); for a `BusOpen` that part means nothing. -/
inductive BusAnswer where
  | ok
  | fail (landed : Bool)
  deriving DecidableEq, Repr, Inhabited

namespace Config

/-! ## The six minimum delays, in microseconds (spec/00_scope.md R7) -/

def T_EN    : Nat := 1
def T_CMD   : Nat := 50
def T_HOME  : Nat := 1600
def T_PWR   : Nat := 50000
def T_INIT1 : Nat := 5000
def T_INIT2 : Nat := 150

/-! ## The controller's command constants (spec/30_encoding.md R85 to R94)

The spec takes them from general knowledge of the HD44780 (D19); UNVERIFIED, unsafe, log 9. -/

def CMD_CLEAR     : Byte := 0x01
def CMD_HOME      : Byte := 0x02
def CMD_ENTRY     : Byte := 0x04
def CMD_DISPLAY   : Byte := 0x08
def CMD_FUNCTION  : Byte := 0x20
def CMD_SET_CGRAM : Byte := 0x40
def CMD_SET_DDRAM : Byte := 0x80

/-- Display-control flags as bits of `dcf` (R27, R88). -/
def FLAG_D : BitVec 3 := 0b100
def FLAG_C : BitVec 3 := 0b010
def FLAG_B : BitVec 3 := 0b001

/-- Entry-mode flags as bits of `emf` (R28, R87). -/
def FLAG_ID : BitVec 2 := 0b10
def FLAG_S  : BitVec 2 := 0b01

/-- Function-set flags in place in the command byte (R89). -/
def FLAG_DL : Byte := 0x10
def FLAG_N  : Byte := 0x08
def FLAG_F  : Byte := 0x04

/-- The one function-set byte the block sends: 4-bit, multi-line, small font (R89). -/
def FUNCTION_SET : Byte := CMD_FUNCTION ||| FLAG_N

/-- The raw nibbles of the initialization (R92). -/
def NIB_8BIT : Nibble := 0x3
def NIB_4BIT : Nibble := 0x2

/-- The space character (R94). -/
def CH_SPACE : Byte := 0x20

/-- The enable bit of an expander word (R80). -/
def XW_EN : Byte := 0x04

/-! ## Values at session creation (spec/10_state.md R38, D10) -/

def CREATION_DCF : BitVec 3 := 0b100
def CREATION_EMF : BitVec 2 := 0b10

/-! ## Presets and the custom table: the spec's defaults (R25, R26, D6, D7; log 7 and log 8, unsafe) -/

/-- `PRESETS`, indexed by preset id: P16X2, P20X2, P16X4, P20X4 (R25). -/
def PRESETS : List Geometry :=
  [⟨16, 2, ⟨0x00, 0x40, 0x10, 0x50⟩⟩,
   ⟨20, 2, ⟨0x00, 0x40, 0x14, 0x54⟩⟩,
   ⟨16, 4, ⟨0x00, 0x40, 0x10, 0x50⟩⟩,
   ⟨20, 4, ⟨0x00, 0x40, 0x14, 0x54⟩⟩]

/-- `CUSTOM_ROW_BASE(columns)`: 0x00, 0x40, columns, 0x40 + columns, each reduced to 7 bits (R26). -/
def CUSTOM_ROW_BASE (columns : Byte) : RowBase :=
  ⟨0x00, 0x40, columns.setWidth 7, 0x40 + columns.setWidth 7⟩

/-! ## Free values: no body, nothing can be proved of them -/

/-- `CLK_HZ` less one: the clock frequency is a positive number the spec leaves open (D2, U11; log 11). -/
opaque clkHzPred : Nat

/-- `CLK_HZ`, a positive integer (spec/92_eei_decisions.md, open parameters). -/
def CLK_HZ : Nat := clkHzPred + 1

/-- The cycles a `Delay(n)` lasts at least: ceil(n * CLK_HZ / 10^6) (R55). The free clock stands last in the sum: the kernel
then stops at it, and does not count up to a million. -/
def delayCycles (n : Nat) : Nat := (999999 + CLK_HZ * n) / 1000000

/-- `FMT_CAP` less one: how many characters a formatted write sends at most (R194, U14; log 10). -/
opaque fmtRoom : Byte

/-- `FMT_CAP`, at least 1 (D22). -/
def FMT_CAP : Nat := fmtRoom.toNat + 1

/-- The bus primitive's answer to the k-th draw of a run, where the state fixes none: a free draw (R12, U1 to U3; log 4). -/
opaque busAnswer : Nat → BusAnswer

end Config

end Sys2Proof
end

