-- ==== Sys2Proof/Syntax.lean ====
section
/-! DEFINITION. The instructions: one constructor for each row of spec/opcode_table.json. -/

namespace Sys2Proof

/-- Every row of the opcode table: the host's requests (format REQ), the pseudo-instruction, and the micro-operations of
the sequencer (formats LCD, XW), in the table's order. -/
inductive Instr where
  /-- INIT (spec/41_init_lifecycle.md R141): the four operand bytes of R102, reserved bits included. -/
  | init (addr cfg columns rows : Byte)
  /-- OPEN (R142): the same four operand bytes. -/
  | openSession (addr cfg columns rows : Byte)
  /-- TEARDOWN (R143). -/
  | teardown
  /-- CLEAR (spec/43_display_ops.md R170). -/
  | clear
  /-- HOME (R171). -/
  | home
  /-- CLEAR_LINE (spec/44_text_ops.md R192). -/
  | clearLine (line : Byte)
  /-- SET_CURSOR (spec/42_addressing.md R161). -/
  | setCursor (column row : Byte)
  /-- SET_LINE (R193): the line and the string, whose length is the length byte. -/
  | setLine (line : Byte) (text : List Byte)
  /-- DISPLAY (R173). -/
  | display (v : Bool)
  /-- CURSOR (R174). -/
  | cursor (v : Bool)
  /-- BLINK (R175). -/
  | blink (v : Bool)
  /-- BACKLIGHT_SET (R176). -/
  | backlightSet (v : Bool)
  /-- BACKLIGHT_GET (R177). -/
  | backlightGet
  /-- GET_DIMENSIONS (R178). -/
  | getDimensions
  /-- PUT_CHAR (R190). -/
  | putChar (ch : Byte)
  /-- PUT_STRING (R191). -/
  | putString (text : List Byte)
  /-- CREATE_CUSTOM_CHAR (R195): the slot and the eight pattern bytes. -/
  | createCustomChar (slot : Byte) (pat : List Byte)
  /-- FORMATTED_WRITE (R194): the text as software rendered it, of any length. -/
  | formattedWrite (text : List Byte)
  /-- CMD_CLEAR (spec/30_encoding.md R85). -/
  | cmdClear
  /-- CMD_HOME (R86). -/
  | cmdHome
  /-- CMD_ENTRY (R87): increment, shift. -/
  | cmdEntry (inc shift : Bool)
  /-- CMD_DISPLAY (R88): display on, cursor on, blink on. -/
  | cmdDisplay (d c b : Bool)
  /-- CMD_FUNCTION (R89): 8-bit width, multi-line, large font. -/
  | cmdFunction (dl n f : Bool)
  /-- CMD_SET_CGRAM (R90). -/
  | cmdSetCgram (slot : BitVec 3)
  /-- CMD_SET_DDRAM (R91). -/
  | cmdSetDdram (a : Addr)
  /-- NIB_8BIT (R92). -/
  | nib8Bit
  /-- NIB_4BIT (R92). -/
  | nib4Bit
  /-- DATA (spec/40_signal_and_byte.md R124). -/
  | data (v : Byte)
  /-- XW (R80): an expander word, its read/write bit always 0. -/
  | xw (n : Nibble) (bl en rs : Bool)
  /-- RAW (R120): its one field is the register `backlight_on`. -/
  | raw
  /-- NIB (R121): nibble and register-select; the backlight field is the register. -/
  | nib (n : Nibble) (rs : Bool)
  deriving DecidableEq, Repr

end Sys2Proof
end

