-- ==== Sys2Proof/WellFormed.lean ====
section
/-! DEFINITION. Which instructions an encoding exists for. -/

namespace Sys2Proof

/-- A string operand is at most 255 bytes, the reach of its length byte (spec/30_encoding.md R98); a glyph has eight
pattern bytes (R100, R195). Everything else is bounded by its type. -/
def WellFormed : Instr → Bool
  | .setLine _ text => decide (text.length ≤ 255)
  | .putString text => decide (text.length ≤ 255)
  | .createCustomChar _ pat => decide (pat.length = 8)
  | .init _ _ _ _ | .openSession _ _ _ _ | .teardown | .clear | .home | .clearLine _ | .setCursor _ _
  | .display _ | .cursor _ | .blink _ | .backlightSet _ | .backlightGet | .getDimensions | .putChar _
  | .formattedWrite _ | .cmdClear | .cmdHome | .cmdEntry _ _ | .cmdDisplay _ _ _ | .cmdFunction _ _ _
  | .cmdSetCgram _ | .cmdSetDdram _ | .nib8Bit | .nib4Bit | .data _ | .xw _ _ _ _ | .raw | .nib _ _ => true

end Sys2Proof
end

