-- ==== Sys2Proof/Decode.lean ====
section
/-! DEFINITION. From bytes to instructions and back: the request packets of spec/30_encoding.md R96 to R106, the
controller's command bytes of R84 to R92 and the observer's reading of them (spec/20_memory.md R73), and the expander word of R80. -/

namespace Sys2Proof

/-! ## Bit fields -/

/-- `v[7:4]`: the high half of a byte (spec/30_encoding.md R83). -/
def highNibble (v : Byte) : Nibble := v.extractLsb' 4 4

/-- `v[3:0]`: the low half of a byte (R83). -/
def lowNibble (v : Byte) : Nibble := v.extractLsb' 0 4

/-- The expander word `n[3:0] ++ bl ++ en ++ 0 ++ rs` (spec/00_scope.md R10, R80); bit 1, read/write, is 0 (R81). -/
def xword (n : Nibble) (rs en bl : Bool) : Byte :=
  n ++ BitVec.ofBool bl ++ BitVec.ofBool en ++ 0#1 ++ BitVec.ofBool rs

/-- A byte from its bits, bit 7 first. -/
def byteOfBits (b7 b6 b5 b4 b3 b2 b1 b0 : Bool) : Byte :=
  BitVec.ofBool b7 ++ BitVec.ofBool b6 ++ BitVec.ofBool b5 ++ BitVec.ofBool b4 ++
    BitVec.ofBool b3 ++ BitVec.ofBool b2 ++ BitVec.ofBool b1 ++ BitVec.ofBool b0

/-! ## Request packets -/

/-- Why a packet is undecodable (R106). -/
inductive Reject where
  /-- The packet has no byte. -/
  | emptyPacket
  /-- Its first byte is no opcode of R100. -/
  | reservedOpcode (op : Byte)
  /-- Its marked length is not the one R99 gives. -/
  | wrongLength
  deriving DecidableEq, Repr

/-- What the request decoder answers: an instruction, or a rejection by name. -/
inductive Decoded where
  | ok (i : Instr)
  | reject (r : Reject)
  deriving DecidableEq, Repr

/-- The operations of the opcode map (R100). -/
inductive Opcode where
  | init | openSession | teardown | clear | home | clearLine | setCursor | setLine
  | display | cursor | blink | backlightSet | backlightGet | getDimensions
  | putChar | putString | createCustomChar
  deriving DecidableEq, Repr

/-- One row of the opcode map: the opcode byte under a mask. -/
structure OpcodeRow where
  mask  : Byte
  value : Byte
  op    : Opcode
  deriving DecidableEq, Repr

/-- The opcode map of R100; a mask of 0xFE leaves bit 0 to the value operand `v` (R101). -/
def opcodeMap : List OpcodeRow :=
  [⟨0xFF, 0x01, .init⟩, ⟨0xFF, 0x02, .openSession⟩, ⟨0xFF, 0x03, .teardown⟩,
   ⟨0xFF, 0x10, .clear⟩, ⟨0xFF, 0x11, .home⟩, ⟨0xFF, 0x12, .clearLine⟩,
   ⟨0xFF, 0x13, .setCursor⟩, ⟨0xFF, 0x14, .setLine⟩] ++
  [⟨0xFE, 0x20, .display⟩, ⟨0xFE, 0x22, .cursor⟩, ⟨0xFE, 0x24, .blink⟩,
   ⟨0xFE, 0x26, .backlightSet⟩, ⟨0xFF, 0x28, .backlightGet⟩, ⟨0xFF, 0x29, .getDimensions⟩,
   ⟨0xFF, 0x30, .putChar⟩, ⟨0xFF, 0x31, .putString⟩, ⟨0xFF, 0x40, .createCustomChar⟩]

/-- Does this row read this opcode byte? -/
def OpcodeRow.reads (row : OpcodeRow) (b : Byte) : Bool := b &&& row.mask == row.value

/-- The operation of an opcode byte; none for a reserved value (R106). -/
def opcodeOf (b : Byte) : Option Opcode := (opcodeMap.find? (·.reads b)).map (·.op)

/-- The operands behind an opcode, one byte each in the order of R100; none when there are not exactly as many as R99
asks for. `v` is bit 0 of the opcode (R101). -/
def readOperands (op : Opcode) (v : Bool) (rest : List Byte) : Option Instr :=
  match op, rest with
  | .init, [a, c, col, row] => some (.init a c col row)
  | .openSession, [a, c, col, row] => some (.openSession a c col row)
  | .teardown, [] => some .teardown
  | .clear, [] => some .clear
  | .home, [] => some .home
  | .clearLine, [line] => some (.clearLine line)
  | .setCursor, [column, row] => some (.setCursor column row)
  | .setLine, line :: len :: s => if s.length = len.toNat then some (.setLine line s) else none
  | .display, [] => some (.display v)
  | .cursor, [] => some (.cursor v)
  | .blink, [] => some (.blink v)
  | .backlightSet, [] => some (.backlightSet v)
  | .backlightGet, [] => some .backlightGet
  | .getDimensions, [] => some .getDimensions
  | .putChar, [ch] => some (.putChar ch)
  | .putString, len :: s => if s.length = len.toNat then some (.putString s) else none
  | .createCustomChar, slot :: pat => if pat.length = 8 then some (.createCustomChar slot pat) else none
  | _, _ => none

/-- The request decoder: total on any bytes, rejecting by name (R96 to R101, R106). -/
def decode (p : List Byte) : Decoded :=
  match p with
  | [] => .reject .emptyPacket
  | b :: rest =>
    match opcodeOf b with
    | none => .reject (.reservedOpcode b)
    | some op =>
      match readOperands op (b.getLsbD 0) rest with
      | some i => .ok i
      | none => .reject .wrongLength

/-- The length `L` of the packet these bytes begin (R99, R100): by the opcode alone, and by the length byte for the two
opcodes with a string, where a length byte that is not there counts as 0. None for a reserved opcode. -/
def packetLength (p : List Byte) : Option Nat :=
  (p.head?.bind opcodeOf).map fun op =>
    match op with
    | .init | .openSession => 5
    | .teardown | .clear | .home | .display | .cursor | .blink | .backlightSet | .backlightGet | .getDimensions => 1
    | .clearLine | .putChar => 2
    | .setCursor => 3
    | .setLine => 3 + (p.getD 2 0).toNat
    | .putString => 2 + (p.getD 1 0).toNat
    | .createCustomChar => 10

/-! ## Controller bytes -/

/-- A command as the controller reads it: by the highest set bit (spec/20_memory.md R73; general knowledge, G18). -/
inductive LcdCommand where
  | setDdram (a : Addr)
  | setCgram (a : BitVec 6)
  /-- bits 4 to 2: DL, N, F -/
  | function (f : BitVec 3)
  /-- cursor or display shift: never sent, its effect not modelled by R73 -/
  | shift
  /-- bits 2 to 0: D, C, B -/
  | display (d : BitVec 3)
  | entry (inc shift : Bool)
  | home
  | clear
  /-- the all-zero byte: never sent, its effect not modelled by R73 -/
  | zero
  deriving DecidableEq, Repr

/-- The controller's reading of a command byte (R73). -/
def decodeLcd (b : Byte) : LcdCommand :=
  if b.getLsbD 7 then .setDdram (b.extractLsb' 0 7)
  else if b.getLsbD 6 then .setCgram (b.extractLsb' 0 6)
  else if b.getLsbD 5 then .function (b.extractLsb' 2 3)
  else if b.getLsbD 4 then .shift
  else if b.getLsbD 3 then .display (b.extractLsb' 0 3)
  else if b.getLsbD 2 then .entry (b.getLsbD 1) (b.getLsbD 0)
  else if b.getLsbD 1 then .home
  else if b.getLsbD 0 then .clear
  else .zero

/-- A command byte as a row of the opcode table (R85 to R91): like the controller's reading, but the table gives
CMD_HOME, CMD_FUNCTION and CMD_SET_CGRAM low bits of 0. -/
def decodeLcdRow (b : Byte) : Option Instr :=
  match decodeLcd b with
  | .setDdram a => some (.cmdSetDdram a)
  | .setCgram a => if a.extractLsb' 0 3 = 0#3 then some (.cmdSetCgram (a.extractLsb' 3 3)) else none
  | .function f =>
    if b.extractLsb' 0 2 = 0#2 then some (.cmdFunction (f.getLsbD 2) (f.getLsbD 1) (f.getLsbD 0)) else none
  | .shift => none
  | .display d => some (.cmdDisplay (d.getLsbD 2) (d.getLsbD 1) (d.getLsbD 0))
  | .entry inc sh => some (.cmdEntry inc sh)
  | .home => if b = 0x02#8 then some .cmdHome else none
  | .clear => some .cmdClear
  | .zero => none

/-- An expander word as a row of the table: bit 1 must be 0 (R80, R81). -/
def decodeXwRow (w : Byte) : Option Instr :=
  if w.getLsbD 1 then none
  else some (.xw (highNibble w) (w.getLsbD 3) (w.getLsbD 2) (w.getLsbD 0))

/-! ## The formats of the opcode table -/

/-- The formats the rows of the opcode table have. -/
inductive Format where
  /-- a request packet -/
  | req
  /-- a controller command byte -/
  | lcd
  /-- a controller data byte -/
  | lcdData
  /-- a raw nibble, in the low half of a byte -/
  | nibble
  /-- one expander word -/
  | xw
  /-- one expander word with only the backlight bit -/
  | raw
  /-- two expander words, enable high then low -/
  | xwPair
  deriving DecidableEq, Repr

/-- The format of each instruction's row. -/
def formatOf : Instr → Format
  | .init _ _ _ _ | .openSession _ _ _ _ | .teardown | .clear | .home | .clearLine _ | .setCursor _ _ | .setLine _ _
  | .display _ | .cursor _ | .blink _ | .backlightSet _ | .backlightGet | .getDimensions | .putChar _ | .putString _
  | .createCustomChar _ _ | .formattedWrite _ => .req
  | .cmdClear | .cmdHome | .cmdEntry _ _ | .cmdDisplay _ _ _ | .cmdFunction _ _ _ | .cmdSetCgram _ | .cmdSetDdram _ => .lcd
  | .nib8Bit | .nib4Bit => .nibble
  | .data _ => .lcdData
  | .xw _ _ _ _ => .xw
  | .raw => .raw
  | .nib _ _ => .xwPair

/-- Reading the words of a row in its format; the same bits can stand for different rows in different formats. -/
def decodeAs (f : Format) (p : List Byte) : Option Instr :=
  match f, p with
  | .req, p =>
    match decode p with
    | .ok i => some i
    | .reject _ => none
  | .lcd, [b] => decodeLcdRow b
  | .lcdData, [b] => some (.data b)
  | .nibble, [b] => if b = 0x03#8 then some .nib8Bit else if b = 0x02#8 then some .nib4Bit else none
  | .xw, [w] => decodeXwRow w
  | .raw, [w] => if w &&& 0xF7#8 = 0#8 then some .raw else none
  | .xwPair, [w1, w2] =>
    if w2.getLsbD 1 || w2.getLsbD 2 then none
    else if w1 = w2 ||| Config.XW_EN then some (.nib (highNibble w2) (w2.getLsbD 0)) else none
  | _, _ => none

/-! ## The encoder -/

/-- What FORMATTED_WRITE sends of its rendered text: at most `FMT_CAP - 1` characters (spec/44_text_ops.md R194). -/
def cutText (text : List Byte) : List Byte := text.take (Config.FMT_CAP - 1)

/-- A count as a length byte (R98). -/
def lenByte (s : List Byte) : Byte := BitVec.ofNat 8 s.length

/-- An opcode with its value operand in bit 0 (R101). -/
def valueOp (base : Byte) (v : Bool) : Byte := base ||| (BitVec.ofBool v).setWidth 8

/-- The words of an instruction (R80, R85 to R92, R100), with `bl` for the register `backlight_on`, which RAW and NIB
put into theirs. A raw nibble stands in the low half of a byte. -/
def encodeWith (bl : Bool) : Instr → List Byte
  | .init a c col row => [0x01, a, c, col, row]
  | .openSession a c col row => [0x02, a, c, col, row]
  | .teardown => [0x03]
  | .clear => [0x10]
  | .home => [0x11]
  | .clearLine line => [0x12, line]
  | .setCursor column row => [0x13, column, row]
  | .setLine line s => 0x14 :: line :: lenByte s :: s
  | .display v => [valueOp 0x20 v]
  | .cursor v => [valueOp 0x22 v]
  | .blink v => [valueOp 0x24 v]
  | .backlightSet v => [valueOp 0x26 v]
  | .backlightGet => [0x28]
  | .getDimensions => [0x29]
  | .putChar ch => [0x30, ch]
  | .putString s => 0x31 :: lenByte s :: s
  | .createCustomChar slot pat => 0x40 :: slot :: pat
  | .formattedWrite t => 0x31 :: lenByte (cutText t) :: cutText t
  | .cmdClear => [Config.CMD_CLEAR]
  | .cmdHome => [Config.CMD_HOME]
  | .cmdEntry inc sh => [byteOfBits false false false false false true inc sh]
  | .cmdDisplay d c b => [byteOfBits false false false false true d c b]
  | .cmdFunction dl n f => [byteOfBits false false true dl n f false false]
  | .cmdSetCgram slot => [Config.CMD_SET_CGRAM ||| (slot.setWidth 8 <<< 3)]
  | .cmdSetDdram a => [Config.CMD_SET_DDRAM ||| a.setWidth 8]
  | .nib8Bit => [Config.NIB_8BIT.setWidth 8]
  | .nib4Bit => [Config.NIB_4BIT.setWidth 8]
  | .data v => [v]
  | .xw n b en rs => [xword n rs en b]
  | .raw => [xword 0 false false bl]
  | .nib n rs => [xword n rs true bl, xword n rs false bl]

/-- The words of an instruction, with the backlight bit 0 where the register fills it. -/
def encode (i : Instr) : List Byte := encodeWith false i

/-! ## The opcode table's words -/

/-- The bytes of a table word, the first byte in bits 7..0, every bit above `nbits` 0, up to the longest packet (3 + 255 bytes). -/
def wordBytes (nbits w : Nat) : List Byte :=
  (List.range 258).map fun k => BitVec.ofNat 8 ((w % 2 ^ nbits) >>> (8 * k))

/-- The packet a table word begins: its bytes, and as many operand bytes of 0 as R99 asks for; a reserved opcode stands alone. -/
def tablePacket (nbits w : Nat) : List Byte :=
  (wordBytes nbits w).take ((packetLength (wordBytes nbits w)).getD 1)

/-- A byte the request port refuses, read as a micro-operation of the sequencer: a controller command, or else an expander word (log 24). -/
def decodeMicroByte (b : Byte) : Option Instr :=
  match decodeLcdRow b with
  | some i => some i
  | none => decodeXwRow b

/-- The instruction the decoder reads from a table word: a request where the request decoder accepts it, else a micro-operation (log 24). -/
def decodeTableWord (nbits w : Nat) : Option Instr :=
  match decode (tablePacket nbits w) with
  | .ok i => some i
  | .reject _ => decodeMicroByte (BitVec.ofNat 8 (w % 2 ^ nbits))

end Sys2Proof
end

