-- ==== Sys2Proof/Machine/State.lean ====
section
/-! DEFINITION. The machine's state, as plain data: the session registers and the sequencer of spec/10_state.md, the
inputs they read, the event history of spec/00_scope.md R11 and the downstream observer of spec/20_memory.md R70. -/

namespace Sys2Proof.Machine

/-! ## Responses and the event history -/

/-- The status of a response (spec/30_encoding.md R104, spec/60_exceptions.md R210); its code is `statusByte`. -/
inductive Status where
  | ok | peripheralUnreachable | writeFailed | invalidArgument | notInitialized | outOfRange
  deriving DecidableEq, Repr

/-- The events of R11; an outcome is true for `ok`. -/
inductive Event where
  /-- `Open(a, outcome)` (R50) -/
  | busOpen (a : Addr) (ok : Bool)
  /-- `Wr(w, outcome)` (R51) -/
  | wr (w : Byte) (ok : Bool)
  /-- `Dl(n)`, n in microseconds (R55) -/
  | dl (n : Nat)
  /-- `Close` (R52) -/
  | close
  /-- `Rsp(status, data)` (R103) -/
  | rsp (status : Status) (data : List Byte)
  deriving DecidableEq, Repr

/-! ## The session register file (spec/10_state.md R20) -/

/-- The session registers, with the widths of R20's table. -/
structure Session where
  /-- `open`: a valid bus handle (R30) -/
  isOpen      : Bool
  /-- `periph_addr` (R31) -/
  periphAddr  : Addr
  /-- `columns` (R21) -/
  columns     : Byte
  /-- `rows` (R22) -/
  rows        : BitVec 3
  /-- `row_base[0..3]` (R24) -/
  rowBase     : RowBase
  /-- `dcf`: display on, cursor on, blink on in bits 2, 1, 0 (R27) -/
  dcf         : BitVec 3
  /-- `emf`: increment, shift in bits 1, 0 (R28) -/
  emf         : BitVec 2
  /-- `backlight_on` (R29) -/
  backlightOn : Bool
  deriving DecidableEq, Repr

/-- The session registers right after reset: closed (R37); the others are unspecified there and hold 0, a DESIGN CHOICE
(log 1, unsafe): no request can read one while the session is closed. -/
def Session.reset : Session :=
  { isOpen := false, periphAddr := 0, columns := 0, rows := 0, rowBase := ⟨0, 0, 0, 0⟩,
    dcf := 0, emf := 0, backlightOn := false }

/-- A write of one session register, a step of a micro-program (R33). -/
inductive RegWrite where
  | isOpen (v : Bool)
  | periphAddr (v : Addr)
  | columns (v : Byte)
  | rows (v : BitVec 3)
  | rowBase (v : RowBase)
  | dcf (v : BitVec 3)
  | emf (v : BitVec 2)
  | backlightOn (v : Bool)
  deriving DecidableEq, Repr

/-! ## The sequencer (R32, R33) -/

/-- The micro-operations a micro-program is made of: the steps of R33 and the calls of spec/40_signal_and_byte.md. -/
inductive Micro where
  /-- `BusOpen(a)` (spec/20_memory.md R50) -/
  | busOpen (a : Addr)
  /-- `BusClose()` (R52) -/
  | busClose
  /-- `BusWrite` of a word that is already built (R51) -/
  | word (w : Byte)
  /-- `RAW()` (R120) -/
  | raw
  /-- `NIB(n, rs)` (R121) -/
  | nib (n : Nibble) (rs : Bool)
  /-- `CMD(v)` (R123) -/
  | cmd (v : Byte)
  /-- `DATA(v)` (R124) -/
  | data (v : Byte)
  /-- `Delay(n)` begins: the delay counter is loaded (R33, R55) -/
  | loadDelay (n : Nat)
  /-- `Delay(n)` lasts until the delay counter has run out -/
  | waitDelay (n : Nat)
  /-- a register write -/
  | set (w : RegWrite)
  /-- `raise e` (spec/60_exceptions.md R214) -/
  | raise (e : Status)
  /-- `respond(OK, data...)` (R10) -/
  | respond (data : List Byte)
  deriving DecidableEq, Repr

/-- The sequencer's state. -/
structure Sequencer where
  /-- `busy` (R32) -/
  busy     : Bool
  /-- `upc`, the number of steps completed in the request in progress (R33); its width is the implementation's (R33), here
  an unbounded number, a DESIGN CHOICE (log 27, safe) -/
  upc      : Nat
  /-- the delay counter, in clock cycles (R33, spec/60_exceptions.md R224); its width is the implementation's (R33), here an
  unbounded number, a DESIGN CHOICE (log 27, safe) -/
  delayCtr : Nat
  /-- the request in progress with its operands (R33); none for an undecodable packet and between requests -/
  request  : Option Instr
  /-- what is left of its micro-program (R33) -/
  prog     : List Micro
  /-- an input: the `upc` at which the reset input is asserted during the request, if it is (R242; log 6) -/
  resetAt  : Option Nat
  deriving DecidableEq, Repr

/-- The idle sequencer: nothing in progress, nothing pending (R37, spec/70_reset_and_hazards.md R240). -/
def Sequencer.idle : Sequencer :=
  { busy := false, upc := 0, delayCtr := 0, request := none, prog := [], resetAt := none }

/-! ## Inputs -/

/-- A move of the host (R255): a packet on the request port, with the `upc` at which a reset cuts the request off, if
one does (R242); or a reset on its own (R240). -/
inductive HostMove where
  | request (packet : List Byte) (resetAt : Option Nat)
  | reset
  deriving DecidableEq, Repr

/-- The inputs: the host's moves not yet taken, and the bus primitive's answers (spec/00_scope.md R12): those this state
fixes, counted from the first draw of the run, and how many draws have been made. An answer the state does not fix is free (log 4). -/
structure Env where
  moves   : List HostMove
  answers : List BusAnswer
  draws   : Nat
  deriving DecidableEq, Repr

/-! ## The downstream observer (spec/20_memory.md R70) -/

/-- The controller's interface width. Unknown carries how many 8-bit-mode nibbles have been latched in a row (R75; log 14). -/
inductive IfWidth where
  | unknown (threes : Nat)
  | w8
  | w4
  deriving DecidableEq, Repr

/-- `phase` and `hi_nib`: the next latched nibble is the high half, or the low half after this high one. -/
inductive NibblePhase where
  | hi
  | lo (hiNib : Nibble)
  deriving DecidableEq, Repr

/-- The controller's addressing mode. -/
inductive Space where
  | ddram
  | cgram
  deriving DecidableEq, Repr

/-- The observer: the expander's pins and the controller. `none` is the spec's own value "unknown" (R70, R76; log 2); an
address that a memory does not list holds an unknown byte (log 3). -/
structure Observer where
  pins    : Option Byte
  ifw     : IfWidth
  phase   : Option NibblePhase
  space   : Option Space
  ac      : Option Addr
  ddram   : List Host.Cell
  cgram   : List Host.Cell
  /-- D, C, B -/
  disp    : Option (BitVec 3)
  /-- I/D, `entry[1]` -/
  entryId : Option Bool
  /-- S, `entry[0]` -/
  entryS  : Option Bool
  /-- DL, N, F -/
  func    : Option (BitVec 3)
  deriving DecidableEq, Repr

/-- "Before the first INIT every component is unknown" (R70). -/
def Observer.unknown : Observer :=
  { pins := none, ifw := .unknown 0, phase := none, space := none, ac := none, ddram := [], cgram := [],
    disp := none, entryId := none, entryS := none, func := none }

/-! ## The machine -/

/-- The whole state. -/
structure State where
  regs    : Session
  seq     : Sequencer
  env     : Env
  /-- the event history, oldest first (R11) -/
  history : List Event
  obs     : Observer
  deriving DecidableEq, Repr

/-- The machine right after reset (R37, R240): closed, idle, nothing pending, nothing on the bus; the observer unknown
(spec/70_reset_and_hazards.md R241). No host move is waiting and no answer of the bus is fixed (DESIGN CHOICE, log 4 and log 24). -/
def State.reset : State :=
  { regs := Session.reset, seq := Sequencer.idle, env := { moves := [], answers := [], draws := 0 },
    history := [], obs := Observer.unknown }

/-- A run of micro-operations goes on from a state, or the request is over in one (responded to, or abandoned by a reset). -/
inductive Flow where
  | go (s : State)
  | done (s : State)
  deriving DecidableEq, Repr

/-- Why the machine stops. -/
inductive Fault where
  /-- Raised by step alone, when the sequencer is busy with no micro-operation left. Every micro-program ends in its
  response (spec/10_state.md R33, spec/30_encoding.md R103), so no run reaches such a state and the spec gives it no effect. Safe (log 26). -/
  | sequencerUnderrun
  deriving DecidableEq, Repr

/-- Why the machine does not take an instruction. -/
inductive Refusal where
  /-- Raised by exec alone, for an instruction that has no meaning yet. Safe. -/
  | notModelled (mnemonic : String)
  /-- Raised by the meaning of a request that is asked for while `busy` is 1: "the request port accepts nothing"
  (spec/10_state.md R32; treatment `refuse`, U21). The step never does so: it leaves the packet waiting. Safe (log 23). -/
  | requestWhileBusy
  deriving DecidableEq, Repr

end Sys2Proof.Machine
end

