-- ==== Sys2Proof/Machine/Flags.lean ====
section
/-! DEFINITION. The flags of `dcf` and `emf` (spec/10_state.md R27, R28) and the command bytes that carry them and the
addresses (spec/30_encoding.md R87 to R91). -/

namespace Sys2Proof.Machine

/-- `dcf | mask` when `v` is 1, `dcf & ~mask` when it is 0, at 3 bits (spec/43_display_ops.md R172, R127 (e)). -/
def setFlag (mask : BitVec 3) (v : Bool) (f : BitVec 3) : BitVec 3 := if v then f ||| mask else f &&& ~~~mask

/-- The display-control command `0x08 | dcf` (R88). -/
def displayCommand (d : BitVec 3) : Byte := Config.CMD_DISPLAY ||| d.setWidth 8

/-- The entry-mode command `0x04 | emf` (R87). -/
def entryCommand (e : BitVec 2) : Byte := Config.CMD_ENTRY ||| e.setWidth 8

/-- The function-set command with its three flags (R89). -/
def functionCommand (dl n f : Bool) : Byte :=
  Config.CMD_FUNCTION ||| (if dl then Config.FLAG_DL else 0) ||| (if n then Config.FLAG_N else 0)
    ||| (if f then Config.FLAG_F else 0)

/-- The set-DDRAM-address command `0x80 | a` (R91). -/
def setDdramCommand (a : Addr) : Byte := Config.CMD_SET_DDRAM ||| a.setWidth 8

/-- The set-CGRAM-address command `0x40 | (slot << 3)` (R90). -/
def setCgramCommand (slot : Byte) : Byte := Config.CMD_SET_CGRAM ||| (slot <<< 3)

/-- The three display flags as `dcf` holds them: D in bit 2, C in bit 1, B in bit 0 (R27). -/
def displayFlags (d c b : Bool) : BitVec 3 := BitVec.ofBool d ++ BitVec.ofBool c ++ BitVec.ofBool b

/-- The two entry flags as `emf` holds them: increment in bit 1, shift in bit 0 (R28). -/
def entryFlags (inc shift : Bool) : BitVec 2 := BitVec.ofBool inc ++ BitVec.ofBool shift

end Sys2Proof.Machine
end

