-- ==== Sys2Proof/Machine/Memory.lean ====
section
/-! DEFINITION. The operations over a memory of the controller: a list of address and byte pairs, addresses strictly
rising. An address that is not listed holds an unknown byte (log 3). -/

namespace Sys2Proof.Machine

/-- What an unlisted address reads as: no known byte. -/
def Memory.unlisted : Option Byte := none

/-- The canonical form: addresses strictly rising. No entry can equal what an unlisted address reads as. -/
abbrev Memory.wf (m : List Host.Cell) : Prop := (m.map Prod.fst).Pairwise (· < ·)

/-- The byte known to be at address `k`. -/
def Memory.read : List Host.Cell → Nat → Option Byte
  | [], _ => Memory.unlisted
  | (a, v) :: m, k => if a = k then some v else Memory.read m k

/-- A byte written at address `k`. -/
def Memory.write : List Host.Cell → Nat → Byte → List Host.Cell
  | [], k, v => [(k, v)]
  | (a, x) :: m, k, v =>
    if k < a then (k, v) :: (a, x) :: m
    else if k = a then (k, v) :: m
    else (a, x) :: Memory.write m k v

/-- No byte is known any more: any cell may have changed. -/
def Memory.forgetAll : List Host.Cell := []

/-- The first `n` addresses hold `v`. -/
def Memory.fill (n : Nat) (v : Byte) : List Host.Cell := (List.range n).map fun a => (a, v)

end Sys2Proof.Machine
end

