-- ==== Sys2Proof/Machine/Observer.lean ====
section
/-! DEFINITION. The downstream observer's reaction to a bus write (spec/20_memory.md R71 to R76): the expander's pins, the
controller's nibble latch, its commands and its memories. -/

namespace Sys2Proof.Machine

/-! ## Data (R74) -/

/-- Is the controller known to be in two-line mode (N = 1)? -/
def Observer.twoLine (o : Observer) : Bool :=
  match o.func with
  | some f => f.getLsbD 1
  | none => false

/-- The address counter after a data transfer at display address `a`: one more when `entry[1] = 1`, in seven bits, with the
two-line wrap of R74 at 0x27 and 0x67 (UNVERIFIED, unsafe, log 16); unknown where `entry[1]` is not known to be 1. Outside
two-line mode, where R74 does not say at which address a row's memory ends, the counter is unknown after 0x27 and 0x67 and
goes on by one after every other address (DESIGN CHOICE, unsafe, log 29). -/
def Observer.nextDdram (o : Observer) (a : Addr) : Option Addr :=
  if o.entryId ≠ some true then none
  else if a.toNat = 0x27 then (if o.twoLine then some 0x40 else none)
  else if a.toNat = 0x67 then (if o.twoLine then some 0x00 else none)
  else some (a + 1)

/-- The address counter after a data transfer in CGRAM (R74). -/
def Observer.nextCgram (o : Observer) (a : Addr) : Option Addr :=
  if o.entryId ≠ some true then none else some (a + 1)

/-- The byte of CGRAM an address counter names: `cgram[ac[5:0]]` (R74). -/
def cgramIndex (a : Addr) : Nat := (a.extractLsb' 0 6).toNat

/-- A data byte executed by the controller (R74): `MemWrite(space, ac, 1, v)`, at any of the 128 display addresses of R70
(log 16), then the counter goes on. With the counter or the addressing mode unknown, any cell may have changed (log 17). -/
def Observer.execData (v : Byte) (o : Observer) : Observer :=
  match o.space, o.ac with
  | some .ddram, some a => { o with ddram := Memory.write o.ddram a.toNat v, ac := o.nextDdram a }
  | some .cgram, some a => { o with cgram := Memory.write o.cgram (cgramIndex a) v, ac := o.nextCgram a }
  | some .ddram, none => { o with ddram := Memory.forgetAll }
  | some .cgram, none => { o with cgram := Memory.forgetAll }
  | none, _ => { o with ddram := Memory.forgetAll, cgram := Memory.forgetAll, ac := none }

/-! ## Commands (R73) -/

/-- The registers are no longer known: a command that R73 does not model, or that cannot be told, may have been executed.
The memories stay (log 15, log 18). -/
def Observer.blurRegisters (o : Observer) : Observer :=
  { o with space := none, ac := none, disp := none, entryId := none, entryS := none, func := none }

/-- A command byte executed by the controller, by the table of R73. -/
def Observer.execCommand (b : Byte) (o : Observer) : Observer :=
  match decodeLcd b with
  | .setDdram a => { o with space := some .ddram, ac := some a }
  | .setCgram a => { o with space := some .cgram, ac := some (a.setWidth 7) }
  | .function f => { o with func := some f, ifw := if f.getLsbD 2 then .w8 else .w4 }
  | .shift => o.blurRegisters
  | .display d => { o with disp := some d }
  | .entry inc sh => { o with entryId := some inc, entryS := some sh }
  | .home => { o with space := some .ddram, ac := some 0 }
  | .clear => { o with ddram := Memory.fill 128 Config.CH_SPACE, space := some .ddram, ac := some 0, entryId := some true }
  | .zero => o.blurRegisters

/-- A whole byte executed: as data if the latch's register-select was 1, else as a command (R72). -/
def Observer.execByte (b : Byte) (rs : Bool) (o : Observer) : Observer :=
  if rs then o.execData b else o.execCommand b

/-! ## The nibble latch (R71, R72, R75) -/

/-- A nibble latched with register-select 0 may have ended a command that cannot be told. It can be the clear command, which
alone writes memory, only if its low half is 1 (R73, R75; log 15). -/
def Observer.blurCommand (n : Nibble) (o : Observer) : Observer :=
  { o.blurRegisters with phase := none, ddram := if n = 1#4 then Memory.forgetAll else o.ddram }

/-- A nibble latched with register-select 1 may have ended a data byte stored anywhere. -/
def Observer.blurData (o : Observer) : Observer :=
  { o with phase := none, ac := none, ddram := Memory.forgetAll, cgram := Memory.forgetAll }

/-- The interface width after one more nibble of register-select 0, when it was unknown with `k` 8-bit-mode nibbles in a
row: the third of them settles it ("sending it three times guarantees convergence", R75; log 14). -/
def widthAfter (k : Nat) (n : Nibble) : IfWidth :=
  if n = Config.NIB_8BIT then (if k + 1 ≥ 3 then .w8 else .unknown (k + 1)) else .unknown 0

/-- The controller latches a nibble. In 4-bit width R72 says what it does. In 8-bit width only the two nibbles of the
initialization are known: the 8-bit-mode nibble keeps the width, the 4-bit-mode-select nibble settles 4-bit transfers with
the next nibble a high half (R75, spec/41_init_lifecycle.md R141 steps 3 and 4; log 14). -/
def Observer.latch (n : Nibble) (rs : Bool) (o : Observer) : Observer :=
  match o.ifw with
  | .w4 =>
    match o.phase with
    | some .hi => { o with phase := some (.lo n) }
    | some (.lo h) => Observer.execByte (h ++ n) rs { o with phase := some .hi }
    | none => if rs then o.blurData else { o.blurCommand n with ifw := widthAfter 0 n }
  | .w8 =>
    if rs then o.blurData
    else if n = Config.NIB_8BIT then o.blurCommand n
    else if n = Config.NIB_4BIT then { o.blurCommand n with ifw := .w4, phase := some .hi }
    else { o.blurCommand n with ifw := .unknown 0 }
  | .unknown k =>
    if rs then { o.blurData with ifw := .unknown 0 }
    else { o.blurCommand n with ifw := widthAfter k n }

/-- The enable pin was unknown and is now low: the nibble may have been latched or not. -/
def Observer.mayLatch (n : Nibble) (rs : Bool) (o : Observer) : Observer :=
  if rs then { o.blurData with ifw := .unknown 0 } else { o.blurCommand n with ifw := .unknown 0 }

/-- A successful bus write of `w` (R71): a fall of the enable pin latches `w[7:4]` with register-select `w[0]`; in every
case the pins take `w`. -/
def Observer.write (w : Byte) (o : Observer) : Observer :=
  let o' :=
    match o.pins with
    | some p => if p.getLsbD 2 && !w.getLsbD 2 then o.latch (highNibble w) (w.getLsbD 0) else o
    | none => if w.getLsbD 2 then o else o.mayLatch (highNibble w) (w.getLsbD 0)
  { o' with pins := some w }

/-! ## Indeterminate states (R76, R242) -/

/-- A failed bus write of `w` (R76): the pins take `w` or stay as they were, by the draw. Whether the controller latched a
nibble or not, it is carried as unknown from then on (D16): the phase, the addressing, the cells the request touched, and
any register a spurious command could write (U4, R248; log 19). -/
def Observer.failedWrite (w : Byte) (landed : Bool) (o : Observer) : Observer :=
  { Observer.unknown with pins := if landed then some w else o.pins }

/-- A reset cut a request off (R242): the controller is as after a failed write, a word that was under way may have reached
the pins or not, and the enable pin may be high; any value for all of it (U23; log 6). -/
def Observer.abandoned (_ : Observer) : Observer := Observer.unknown

end Sys2Proof.Machine
end

