-- ==== Sys2Proof/Machine/Operands.lean ====
section
/-! DEFINITION. What the requests read from their operands: the configuration bytes (spec/30_encoding.md R102), the
well-formedness of a size (spec/10_state.md R23), the row-address decoder (spec/42_addressing.md R160), the characters of a line. -/

namespace Sys2Proof.Machine

/-- A result, or the error a request raises. -/
inductive Checked (α : Type) where
  | ok (a : α)
  | err (e : Status)
  deriving DecidableEq, Repr

/-- First this check, then that: the first error decides (spec/60_exceptions.md R217). -/
def Checked.andThen {α β : Type} (c : Checked α) (f : α → Checked β) : Checked β :=
  match c with
  | .ok a => f a
  | .err e => .err e

/-- A check: no value, or an error. -/
def require (p : Bool) (e : Status) : Checked Unit := if p then .ok () else .err e

/-! ## The configuration operands (R102) -/

/-- `p[1][6:0]`, the peripheral address. -/
def cfgAddr (addr : Byte) : Addr := addr.extractLsb' 0 7

/-- `p[2][7]`, the initial backlight state. -/
def cfgBacklight (cfg : Byte) : Bool := cfg.getLsbD 7

/-- `p[2][6]`: explicit columns and rows in place of a preset. -/
def cfgCustom (cfg : Byte) : Bool := cfg.getLsbD 6

/-- `p[2][3:0]`, the preset id. -/
def cfgPreset (cfg : Byte) : Nibble := cfg.extractLsb' 0 4

/-- Every reserved field of R102 is 0: bit 7 of the address byte, bits 5 and 4 of the configuration byte, the preset id of a
custom configuration, the column and row bytes of a preset. -/
def cfgReservedZero (addr cfg columns rows : Byte) : Bool :=
  !addr.getLsbD 7 && !cfg.getLsbD 5 && !cfg.getLsbD 4 &&
    (if cfgCustom cfg then cfgPreset cfg == 0 else columns == 0 && rows == 0)

/-- The size a configuration asks for: a preset's, or the custom one (R140); none when the id names no preset. -/
def cfgGeometry (cfg columns rows : Byte) : Option Geometry :=
  if cfgCustom cfg then some ⟨columns, rows, Config.CUSTOM_ROW_BASE columns⟩
  else Config.PRESETS[(cfgPreset cfg).toNat]?

/-! ## The row-base table -/

/-- `row_base[row]` (R24): a four-entry lookup (R162). No row above 3 is ever looked up. -/
def rowBaseAt (t : RowBase) (row : Nat) : Addr :=
  match row with
  | 0 => t.r0
  | 1 => t.r1
  | 2 => t.r2
  | _ => t.r3

/-- `WF_CFG(columns, rows, row_base)` (R23). -/
def wfCfg (columns rows : Nat) (t : RowBase) : Bool :=
  decide (0 < columns) && decide (0 < rows) && decide (rows ≤ 4) &&
    (List.range rows).all fun r => decide ((rowBaseAt t r).toNat + columns - 1 ≤ 0x7F)

/-- `WF_CFG` of a size. -/
def geometryWf (g : Geometry) : Bool := wfCfg g.columns.toNat g.rows.toNat g.rowBase

/-- `ADDR(column, row)`, the row-address decoder (R160): both bounds checked, then `row_base[row] + column`. -/
def addr (s : State) (column row : Byte) : Checked Addr :=
  if ¬ row.toNat < s.regs.rows.toNat then .err .outOfRange
  else if ¬ column.toNat < s.regs.columns.toNat then .err .outOfRange
  else .ok (BitVec.ofNat 7 ((rowBaseAt s.regs.rowBase row.toNat).toNat + column.toNat))

/-! ## The characters of a line (spec/44_text_ops.md R193) -/

/-- `columns` characters: each from the string while there is one, then spaces. -/
def lineChars (columns : Nat) (text : List Byte) : List Byte :=
  (List.range columns).map fun i => text.getD i Config.CH_SPACE

end Sys2Proof.Machine
end

