-- ==== Sys2Proof/Machine/Ops.lean ====
section
/-! DEFINITION. The named operations over the state: the bus primitive and the delay sequencer (spec/20_memory.md R50 to
R55), raising an error and returning from a request (spec/60_exceptions.md R214, R219), reset (spec/70_reset_and_hazards.md
R240, R242), and one micro-operation of a micro-program (spec/10_state.md R33). -/

namespace Sys2Proof.Machine

/-! ## Small updates -/

/-- Appends an event to the history (R11). -/
def State.emit (e : Event) (s : State) : State := { s with history := s.history ++ [e] }

/-- One step of the request in progress has completed (R33). -/
def State.advance (s : State) : State := { s with seq := { s.seq with upc := s.seq.upc + 1 } }

/-- One more of the bus primitive's answers has been drawn (R12). -/
def State.drawn (s : State) : State := { s with env := { s.env with draws := s.env.draws + 1 } }

/-- The observer reacts. -/
def State.observe (f : Observer → Observer) (s : State) : State := { s with obs := f s.obs }

/-- The answer to the k-th draw of the run: the one this state fixes, else a free one (log 4). -/
def State.answerAt (s : State) (k : Nat) : BusAnswer := (s.env.answers[k]?).getD (Config.busAnswer k)

/-- The bus primitive's next answer. -/
def State.answer (s : State) : BusAnswer := s.answerAt s.env.draws

/-- A register write. -/
def Session.write (r : Session) : RegWrite → Session
  | .isOpen v => { r with isOpen := v }
  | .periphAddr v => { r with periphAddr := v }
  | .columns v => { r with columns := v }
  | .rows v => { r with rows := v }
  | .rowBase v => { r with rowBase := v }
  | .dcf v => { r with dcf := v }
  | .emf v => { r with emf := v }
  | .backlightOn v => { r with backlightOn := v }

/-- A register write of the machine. -/
def State.setReg (w : RegWrite) (s : State) : State := { s with regs := s.regs.write w }

/-! ## Responses (spec/30_encoding.md R103 to R105) -/

/-- The status code of a response (R104, D4). -/
def statusByte : Status → Byte
  | .ok => 0x00
  | .peripheralUnreachable => 0x01
  | .writeFailed => 0x02
  | .invalidArgument => 0x03
  | .notInitialized => 0x04
  | .outOfRange => 0x05

/-- The response packet `q[0] .. q[M-1]`: the status, then the data bytes (R103). -/
def responsePacket (status : Status) (data : List Byte) : List Byte := statusByte status :: data

/-! ## The end of a request -/

/-- The response is delivered, `busy` is cleared, the block returns to idle (R103, R214, R219). -/
def respond (status : Status) (data : List Byte) (s : State) : State :=
  { s.emit (.rsp status data) with seq := Sequencer.idle }

/-- What a failed write inside INIT does before its response: the bus handle is released and the session stays closed
(spec/41_init_lifecycle.md R145). Every other request leaves the session as it is (R218). -/
def State.onWriteFailed (s : State) : State :=
  match s.seq.request with
  | some (.init _ _ _ _) => (s.emit .close).setReg (.isOpen false)
  | _ => s

/-- `raise e` (spec/60_exceptions.md R214): the request ends at once with the one-byte response; nothing is saved, nothing
is undone, no later statement runs. The only raise that changes a mode is a failed write inside INIT (R145). -/
def raise (e : Status) (s : State) : State :=
  match e with
  | .writeFailed => respond .writeFailed [] s.onWriteFailed
  | .ok | .peripheralUnreachable | .invalidArgument | .notInitialized | .outOfRange => respond e [] s

/-- The reset input (R240): closed, idle, nothing pending, no event; the registers take their reset values (R37, log 1).
The expander and the controller are not reached (R241). -/
def hardwareReset (s : State) : State := { s with regs := Session.reset, seq := Sequencer.idle }

/-- A reset while a request is in progress (R242): the request is abandoned where it stands, with no response and no
further write, a delay in progress dropped; the expander and the controller are unknown. -/
def abandon (s : State) : State := (hardwareReset s).observe Observer.abandoned

/-! ## One step of a micro-program -/

/-- Goes on with the next operation, unless the request is over. -/
def Flow.andThen (x : Flow) (f : State → Flow) : Flow :=
  match x with
  | .go s => f s
  | .done s => .done s

/-- The state a flow has reached. -/
def Flow.state : Flow → State
  | .go s => s
  | .done s => s

/-- A step of the sequencer, unless the reset input is asserted at this `upc` (R242; log 6). -/
def unlessReset (s : State) (f : State → Flow) : Flow :=
  if s.seq.resetAt = some s.seq.upc then .done (abandon s) else f s

/-- `BusOpen(a)` (R50): a failure raises PERIPHERAL_UNREACHABLE (spec/41_init_lifecycle.md R140, R211). The failure and its
response are one transition, with no position for a reset between them (DESIGN CHOICE, unsafe, log 6). -/
def busOpen (a : Addr) (s : State) : Flow :=
  unlessReset s fun s =>
    match s.answer with
    | .ok => .go (s.emit (.busOpen a true)).drawn.advance
    | .fail _ => .done (raise .peripheralUnreachable (s.emit (.busOpen a false)).drawn)

/-- `BusWrite(w)` (R51): the event, the reaction downstream (R71, R76), and WRITE_FAILED where the primitive fails. The failure
and its response are one transition, with no position for a reset between them (DESIGN CHOICE, unsafe, log 6). -/
def busWrite (w : Byte) (s : State) : Flow :=
  unlessReset s fun s =>
    match s.answer with
    | .ok => .go ((s.emit (.wr w true)).drawn.advance.observe (Observer.write w))
    | .fail landed => .done (raise .writeFailed ((s.emit (.wr w false)).drawn.observe (Observer.failedWrite w landed)))

/-- `BusClose()` (R52): it cannot fail. -/
def busClose (s : State) : Flow := unlessReset s fun s => .go (s.emit .close).advance

/-- `Delay(n)` begins: the delay counter is loaded with the cycles that cover n microseconds (R33, R55). -/
def loadDelay (n : Nat) (s : State) : Flow :=
  unlessReset s fun s => .go { s with seq := { s.seq with delayCtr := Config.delayCycles n } }

/-- `Delay(n)` is over: the counter has run down, the event `Dl(n)` stands (R55; log 12). -/
def waitDelay (n : Nat) (s : State) : Flow :=
  unlessReset s fun s => .go (({ s with seq := { s.seq with delayCtr := 0 } } : State).advance.emit (.dl n))

end Sys2Proof.Machine
end

