-- ==== Sys2Proof/Machine/Sequencer.lean ====
section
/-! DEFINITION. The micro-operations of spec/40_signal_and_byte.md (R120 to R125) and the running of a request's
micro-program (spec/10_state.md R33, spec/40_signal_and_byte.md R128). -/

namespace Sys2Proof.Machine

/-! ## The micro-operations -/

/-- `Delay(n)` as a whole (R55). -/
def delay (n : Nat) (s : State) : Flow := (loadDelay n s).andThen (waitDelay n)

/-- `RAW()` (R120): one word that carries only the backlight bit, enable low; no delay follows. -/
def rawOp (s : State) : Flow := busWrite (xword 0 false false s.regs.backlightOn) s

/-- `NIB(n, rs)` (R121): the word with enable high, T_EN, the same word with enable low, T_CMD. -/
def nibOp (n : Nibble) (rs : Bool) (s : State) : Flow :=
  let w := xword n rs false s.regs.backlightOn
  (busWrite (w ||| Config.XW_EN) s).andThen fun s =>
    (delay Config.T_EN s).andThen fun s =>
      (busWrite w s).andThen fun s =>
        delay Config.T_CMD s

/-- `BYTE(v, rs)` (R122): the high nibble, then the low nibble. -/
def byteOp (v : Byte) (rs : Bool) (s : State) : Flow :=
  (nibOp (highNibble v) rs s).andThen (nibOp (lowNibble v) rs)

/-- `CMD(v)` (R123): a byte with register-select 0. -/
def cmdOp (v : Byte) (s : State) : Flow := byteOp v false s

/-- `DATA(v)` (R124): a byte with register-select 1. -/
def dataOp (v : Byte) (s : State) : Flow := byteOp v true s

/-- A register write as a step of a micro-program. -/
def setOp (w : RegWrite) (s : State) : Flow := unlessReset s fun s => .go (s.setReg w).advance

/-- One micro-operation. -/
def Micro.run : Micro → State → Flow
  | .busOpen a, s => Machine.busOpen a s
  | .busClose, s => Machine.busClose s
  | .word w, s => busWrite w s
  | .raw, s => rawOp s
  | .nib n rs, s => nibOp n rs s
  | .cmd v, s => cmdOp v s
  | .data v, s => dataOp v s
  | .loadDelay n, s => Machine.loadDelay n s
  | .waitDelay n, s => Machine.waitDelay n s
  | .set w, s => setOp w s
  | .raise e, s => unlessReset s fun s => .done (Machine.raise e s)
  | .respond d, s => unlessReset s fun s => .done (Machine.respond .ok d s)

/-! ## Micro-programs -/

/-- A micro-program run to its end: a straight line, ended early only by a raise (R33, R128) or by a reset (R242). -/
def runAll : List Micro → State → Flow
  | [], s => .go s
  | m :: ms, s => (m.run s).andThen (runAll ms)

/-- `Delay(n)` in a micro-program. -/
def delaySteps (n : Nat) : List Micro := [.loadDelay n, .waitDelay n]

/-- The micro-program of a request whose checks gave an answer: an error is raised before anything else happens (R128, R217). -/
def Checked.program (c : Checked (List Micro)) : List Micro :=
  match c with
  | .ok ms => ms
  | .err e => [.raise e]

/-- The acceptance of a request (R32, R33): `busy` is set, the sequencer holds the request and its micro-program at step 0. -/
def accept (i : Option Instr) (ms : List Micro) (s : State) : State :=
  { s with seq := { s.seq with busy := true, upc := 0, delayCtr := 0, request := i, prog := ms } }

/-- A request served from acceptance to response. While `busy` is 1 the request port accepts nothing (R32, U21; log 23). -/
def serve (i : Option Instr) (c : Checked (List Micro)) (s : State) : Host.Outcome State Fault Refusal :=
  if s.seq.busy then .refused .requestWhileBusy
  else .next (runAll c.program (accept i c.program s)).state

/-- A micro-operation run on its own, as the sequencer runs it inside a request (log 20). -/
def runMicro (m : Micro) (s : State) : Host.Outcome State Fault Refusal := .next (m.run s).state

/-- The check every request but INIT, OPEN and TEARDOWN makes first (spec/60_exceptions.md R215). -/
def requireOpen (s : State) : Checked Unit := require s.regs.isOpen .notInitialized

end Sys2Proof.Machine
end

