-- ==== Sys2Proof/Machine/Display.lean ====
section
/-! DEFINITION. The requests on the whole display and on the session's flags (spec/43_display_ops.md R170 to R178). -/

namespace Sys2Proof.Machine

/-- CLEAR's micro-program (R170): the command, then the long settle delay. -/
def clearProgram (s : State) : Checked (List Micro) :=
  (requireOpen s).andThen fun _ => .ok ([.cmd Config.CMD_CLEAR] ++ delaySteps Config.T_HOME ++ [.respond []])

/-- HOME's micro-program (R171): the command, then the long settle delay. -/
def homeProgram (s : State) : Checked (List Micro) :=
  (requireOpen s).andThen fun _ => .ok ([.cmd Config.CMD_HOME] ++ delaySteps Config.T_HOME ++ [.respond []])

/-- SETFLAG (R172): all three flags are sent, and `dcf` is committed only behind a command that was sent without failure. -/
def setFlagProgram (mask : BitVec 3) (v : Bool) (s : State) : Checked (List Micro) :=
  (requireOpen s).andThen fun _ =>
    let d := setFlag mask v s.regs.dcf
    .ok [.cmd (displayCommand d), .set (.dcf d), .respond []]

/-- BACKLIGHT_SET's micro-program (R176): the flag first, then the word that carries it. -/
def backlightSetProgram (v : Bool) (s : State) : Checked (List Micro) :=
  (requireOpen s).andThen fun _ => .ok [.set (.backlightOn v), .raw, .respond []]

/-- BACKLIGHT_GET's micro-program (R177): no bus traffic. -/
def backlightGetProgram (s : State) : Checked (List Micro) :=
  (requireOpen s).andThen fun _ => .ok [.respond [if s.regs.backlightOn then 0x01 else 0x00]]

/-- GET_DIMENSIONS' micro-program (R178): columns, then rows; no bus traffic. -/
def getDimensionsProgram (s : State) : Checked (List Micro) :=
  (requireOpen s).andThen fun _ => .ok [.respond [s.regs.columns, s.regs.rows.setWidth 8]]

/-- CLEAR (R170). -/
def execClear (s : State) : Host.Outcome State Fault Refusal := serve (some .clear) (clearProgram s) s

/-- HOME (R171). -/
def execHome (s : State) : Host.Outcome State Fault Refusal := serve (some .home) (homeProgram s) s

/-- DISPLAY (R173). -/
def execDisplay (v : Bool) (s : State) : Host.Outcome State Fault Refusal :=
  serve (some (.display v)) (setFlagProgram Config.FLAG_D v s) s

/-- CURSOR (R174). -/
def execCursor (v : Bool) (s : State) : Host.Outcome State Fault Refusal :=
  serve (some (.cursor v)) (setFlagProgram Config.FLAG_C v s) s

/-- BLINK (R175). -/
def execBlink (v : Bool) (s : State) : Host.Outcome State Fault Refusal :=
  serve (some (.blink v)) (setFlagProgram Config.FLAG_B v s) s

/-- BACKLIGHT_SET (R176). -/
def execBacklightSet (v : Bool) (s : State) : Host.Outcome State Fault Refusal :=
  serve (some (.backlightSet v)) (backlightSetProgram v s) s

/-- BACKLIGHT_GET (R177). -/
def execBacklightGet (s : State) : Host.Outcome State Fault Refusal :=
  serve (some .backlightGet) (backlightGetProgram s) s

/-- GET_DIMENSIONS (R178). -/
def execGetDimensions (s : State) : Host.Outcome State Fault Refusal :=
  serve (some .getDimensions) (getDimensionsProgram s) s

end Sys2Proof.Machine
end

