-- ==== Sys2Proof/Machine/Lifecycle.lean ====
section
/-! DEFINITION. Session creation, INIT, OPEN and TEARDOWN (spec/41_init_lifecycle.md R140 to R145). -/

namespace Sys2Proof.Machine

/-- The checks of CREATE (R140), in R217's order, all before `BusOpen`: a session already open, a reserved field, the
preset id, WF_CFG. -/
def createChecks (a cfg columns rows : Byte) (s : State) : Checked Geometry :=
  (require (!s.regs.isOpen) .invalidArgument).andThen fun _ =>
    (require (cfgReservedZero a cfg columns rows) .invalidArgument).andThen fun _ =>
      match cfgGeometry cfg columns rows with
      | none => .err .invalidArgument
      | some g => (require (geometryWf g) .invalidArgument).andThen fun _ => .ok g

/-- The rest of CREATE (R140): `BusOpen`, then the register writes in its order. -/
def createSteps (a cfg : Byte) (g : Geometry) : List Micro :=
  [.busOpen (cfgAddr a), .set (.periphAddr (cfgAddr a)), .set (.columns g.columns), .set (.rows (g.rows.setWidth 3)),
   .set (.rowBase g.rowBase), .set (.backlightOn (cfgBacklight cfg)), .set (.dcf Config.CREATION_DCF),
   .set (.emf Config.CREATION_EMF)]

/-- Display-off (R141 step 5b): the creation default of `dcf`, which the register holds here, without FLAG_D. -/
def initDisplayOff : BitVec 3 := setFlag Config.FLAG_D false Config.CREATION_DCF

/-- Display-on (R141 step 5d): the value step 5b left, with FLAG_D. -/
def initDisplayOn : BitVec 3 := setFlag Config.FLAG_D true initDisplayOff

/-- Steps 1 to 5 of R141: what INIT does after CREATE. -/
def initSteps : List Micro :=
  delaySteps Config.T_PWR ++ [.raw] ++
  ([.nib Config.NIB_8BIT false] ++ delaySteps Config.T_INIT1) ++
  ([.nib Config.NIB_8BIT false] ++ delaySteps Config.T_INIT2) ++
  ([.nib Config.NIB_8BIT false] ++ delaySteps Config.T_INIT2) ++
  [.nib Config.NIB_4BIT false] ++
  [.cmd Config.FUNCTION_SET] ++
  [.cmd (displayCommand initDisplayOff), .set (.dcf initDisplayOff)] ++
  [.cmd (entryCommand Config.FLAG_ID), .set (.emf Config.FLAG_ID)] ++
  [.cmd (displayCommand initDisplayOn), .set (.dcf initDisplayOn)]

/-- INIT's micro-program (R141). -/
def initProgram (a cfg columns rows : Byte) (s : State) : Checked (List Micro) :=
  (createChecks a cfg columns rows s).andThen fun g =>
    .ok (createSteps a cfg g ++ initSteps ++ [.set (.isOpen true), .respond []])

/-- OPEN's micro-program (R142). -/
def openProgram (a cfg columns rows : Byte) (s : State) : Checked (List Micro) :=
  (createChecks a cfg columns rows s).andThen fun g =>
    .ok (createSteps a cfg g ++ [.set (.isOpen true), .respond []])

/-- TEARDOWN's micro-program (R143): on a closed session it does nothing but respond. -/
def teardownProgram (s : State) : Checked (List Micro) :=
  .ok (if s.regs.isOpen then [.busClose, .set (.isOpen false), .respond []] else [.respond []])

/-- INIT (R141). -/
def execInit (a cfg columns rows : Byte) (s : State) : Host.Outcome State Fault Refusal :=
  serve (some (.init a cfg columns rows)) (initProgram a cfg columns rows s) s

/-- OPEN (R142). -/
def execOpen (a cfg columns rows : Byte) (s : State) : Host.Outcome State Fault Refusal :=
  serve (some (.openSession a cfg columns rows)) (openProgram a cfg columns rows s) s

/-- TEARDOWN (R143). -/
def execTeardown (s : State) : Host.Outcome State Fault Refusal := serve (some .teardown) (teardownProgram s) s

end Sys2Proof.Machine
end

