-- ==== Sys2Proof/Machine/MicroOps.lean ====
section
/-! DEFINITION. The meanings of the micro-operation rows of the opcode table (formats LCD and XW): each is what the
sequencer does when a request's micro-program comes to it (spec/40_signal_and_byte.md; log 20). -/

namespace Sys2Proof.Machine

/-- CMD_CLEAR: `CMD(0x01)` (R85, R123). -/
def execCmdClear (s : State) : Host.Outcome State Fault Refusal := runMicro (.cmd Config.CMD_CLEAR) s

/-- CMD_HOME: `CMD(0x02)` (R86, R123). -/
def execCmdHome (s : State) : Host.Outcome State Fault Refusal := runMicro (.cmd Config.CMD_HOME) s

/-- CMD_ENTRY: `CMD(0x04 | emf)` (R87, R123). -/
def execCmdEntry (inc shift : Bool) (s : State) : Host.Outcome State Fault Refusal :=
  runMicro (.cmd (entryCommand (entryFlags inc shift))) s

/-- CMD_DISPLAY: `CMD(0x08 | dcf)` (R88, R123). -/
def execCmdDisplay (d c b : Bool) (s : State) : Host.Outcome State Fault Refusal :=
  runMicro (.cmd (displayCommand (displayFlags d c b))) s

/-- CMD_FUNCTION: `CMD(0x20 | flags)` (R89, R123). -/
def execCmdFunction (dl n f : Bool) (s : State) : Host.Outcome State Fault Refusal :=
  runMicro (.cmd (functionCommand dl n f)) s

/-- CMD_SET_CGRAM: `CMD(0x40 | slot << 3)` (R90, R123). -/
def execCmdSetCgram (slot : BitVec 3) (s : State) : Host.Outcome State Fault Refusal :=
  runMicro (.cmd (setCgramCommand (slot.setWidth 8))) s

/-- CMD_SET_DDRAM: `CMD(0x80 | a)` (R91, R123). -/
def execCmdSetDdram (a : Addr) (s : State) : Host.Outcome State Fault Refusal :=
  runMicro (.cmd (setDdramCommand a)) s

/-- NIB_8BIT: `NIB(0x3, 0)` (R92, R121). -/
def execNib8Bit (s : State) : Host.Outcome State Fault Refusal := runMicro (.nib Config.NIB_8BIT false) s

/-- NIB_4BIT: `NIB(0x2, 0)` (R92, R121). -/
def execNib4Bit (s : State) : Host.Outcome State Fault Refusal := runMicro (.nib Config.NIB_4BIT false) s

/-- DATA: `DATA(v)` (R124). -/
def execData (v : Byte) (s : State) : Host.Outcome State Fault Refusal := runMicro (.data v) s

/-- XW: one bus write of the word (R80, R51). -/
def execXw (n : Nibble) (bl en rs : Bool) (s : State) : Host.Outcome State Fault Refusal :=
  runMicro (.word (xword n rs en bl)) s

/-- RAW: `RAW()` (R120). -/
def execRaw (s : State) : Host.Outcome State Fault Refusal := runMicro .raw s

/-- NIB: `NIB(n, rs)` (R121). -/
def execNib (n : Nibble) (rs : Bool) (s : State) : Host.Outcome State Fault Refusal := runMicro (.nib n rs) s

/-- The micro-operation a row stands for; none for a request. -/
def microOf : Instr → Option Micro
  | .cmdClear => some (.cmd Config.CMD_CLEAR)
  | .cmdHome => some (.cmd Config.CMD_HOME)
  | .cmdEntry inc sh => some (.cmd (entryCommand (entryFlags inc sh)))
  | .cmdDisplay d c b => some (.cmd (displayCommand (displayFlags d c b)))
  | .cmdFunction dl n f => some (.cmd (functionCommand dl n f))
  | .cmdSetCgram slot => some (.cmd (setCgramCommand (slot.setWidth 8)))
  | .cmdSetDdram a => some (.cmd (setDdramCommand a))
  | .nib8Bit => some (.nib Config.NIB_8BIT false)
  | .nib4Bit => some (.nib Config.NIB_4BIT false)
  | .data v => some (.data v)
  | .xw n bl en rs => some (.word (xword n rs en bl))
  | .raw => some .raw
  | .nib n rs => some (.nib n rs)
  | .init _ _ _ _ | .openSession _ _ _ _ | .teardown | .clear | .home | .clearLine _ | .setCursor _ _ | .setLine _ _
  | .display _ | .cursor _ | .blink _ | .backlightSet _ | .backlightGet | .getDimensions | .putChar _ | .putString _
  | .createCustomChar _ _ | .formattedWrite _ => none

end Sys2Proof.Machine
end

