-- ==== Sys2Proof/Machine/Text.lean ====
section
/-! DEFINITION. The requests that address and write characters and glyphs (spec/42_addressing.md R161, spec/44_text_ops.md
R190 to R195). -/

namespace Sys2Proof.Machine

/-- SET_CURSOR's micro-program (R161). -/
def setCursorProgram (column row : Byte) (s : State) : Checked (List Micro) :=
  (requireOpen s).andThen fun _ =>
    (addr s column row).andThen fun a => .ok [.cmd (setDdramCommand a), .respond []]

/-- PUT_CHAR's micro-program (R190). -/
def putCharProgram (ch : Byte) (s : State) : Checked (List Micro) :=
  (requireOpen s).andThen fun _ => .ok [.data ch, .respond []]

/-- PUT_STRING's micro-program (R191): first character first; an empty string sends nothing. -/
def putStringProgram (text : List Byte) (s : State) : Checked (List Micro) :=
  (requireOpen s).andThen fun _ => .ok (text.map Micro.data ++ [.respond []])

/-- A whole line written from column 0 (R192, R193): the reposition, then exactly `columns` characters. -/
def lineProgram (line : Byte) (text : List Byte) (s : State) : Checked (List Micro) :=
  (requireOpen s).andThen fun _ =>
    (addr s 0 line).andThen fun a =>
      .ok ([.cmd (setDdramCommand a)] ++ (lineChars s.regs.columns.toNat text).map Micro.data ++ [.respond []])

/-- CREATE_CUSTOM_CHAR's micro-program (R195): the glyph's address, its eight rows, and back to display memory at address 0. -/
def createCustomCharProgram (slot : Byte) (pat : List Byte) (s : State) : Checked (List Micro) :=
  (requireOpen s).andThen fun _ =>
    (require (decide (slot.toNat ≤ 7)) .outOfRange).andThen fun _ =>
      .ok ([.cmd (setCgramCommand slot)] ++ pat.map Micro.data ++ [.cmd (setDdramCommand 0), .respond []])

/-- CLEAR_LINE (R192): `columns` spaces. -/
def execClearLine (line : Byte) (s : State) : Host.Outcome State Fault Refusal :=
  serve (some (.clearLine line)) (lineProgram line [] s) s

/-- SET_CURSOR (R161). -/
def execSetCursor (column row : Byte) (s : State) : Host.Outcome State Fault Refusal :=
  serve (some (.setCursor column row)) (setCursorProgram column row s) s

/-- SET_LINE (R193). -/
def execSetLine (line : Byte) (text : List Byte) (s : State) : Host.Outcome State Fault Refusal :=
  serve (some (.setLine line text)) (lineProgram line text s) s

/-- PUT_CHAR (R190). -/
def execPutChar (ch : Byte) (s : State) : Host.Outcome State Fault Refusal :=
  serve (some (.putChar ch)) (putCharProgram ch s) s

/-- PUT_STRING (R191). -/
def execPutString (text : List Byte) (s : State) : Host.Outcome State Fault Refusal :=
  serve (some (.putString text)) (putStringProgram text s) s

/-- CREATE_CUSTOM_CHAR (R195). -/
def execCreateCustomChar (slot : Byte) (pat : List Byte) (s : State) : Host.Outcome State Fault Refusal :=
  serve (some (.createCustomChar slot pat)) (createCustomCharProgram slot pat s) s

/-- FORMATTED_WRITE (R194): the rendered text is cut without an error; what reaches the block is one PUT_STRING. -/
def execFormattedWrite (text : List Byte) (s : State) : Host.Outcome State Fault Refusal :=
  serve (some (.putString (cutText text))) (putStringProgram (cutText text) s) s

end Sys2Proof.Machine
end

