-- ==== Sys2Proof/Machine/Dispatch.lean ====
section
/-! DEFINITION. One arm for each instruction. -/

namespace Sys2Proof.Machine

def exec (i : Instr) (s : State) : Host.Outcome State Fault Refusal :=
  match i with
  | .init a cfg columns rows => Sys2Proof.Machine.execInit a cfg columns rows s
  | .openSession a cfg columns rows => Sys2Proof.Machine.execOpen a cfg columns rows s
  | .teardown => Sys2Proof.Machine.execTeardown s
  | .clear => Sys2Proof.Machine.execClear s
  | .home => Sys2Proof.Machine.execHome s
  | .clearLine line => Sys2Proof.Machine.execClearLine line s
  | .setCursor column row => Sys2Proof.Machine.execSetCursor column row s
  | .setLine line text => Sys2Proof.Machine.execSetLine line text s
  | .display v => Sys2Proof.Machine.execDisplay v s
  | .cursor v => Sys2Proof.Machine.execCursor v s
  | .blink v => Sys2Proof.Machine.execBlink v s
  | .backlightSet v => Sys2Proof.Machine.execBacklightSet v s
  | .backlightGet => Sys2Proof.Machine.execBacklightGet s
  | .getDimensions => Sys2Proof.Machine.execGetDimensions s
  | .putChar ch => Sys2Proof.Machine.execPutChar ch s
  | .putString text => Sys2Proof.Machine.execPutString text s
  | .createCustomChar slot pat => Sys2Proof.Machine.execCreateCustomChar slot pat s
  | .formattedWrite text => Sys2Proof.Machine.execFormattedWrite text s
  | .cmdClear => Sys2Proof.Machine.execCmdClear s
  | .cmdHome => Sys2Proof.Machine.execCmdHome s
  | .cmdEntry inc shift => Sys2Proof.Machine.execCmdEntry inc shift s
  | .cmdDisplay d c b => Sys2Proof.Machine.execCmdDisplay d c b s
  | .cmdFunction dl n f => Sys2Proof.Machine.execCmdFunction dl n f s
  | .cmdSetCgram slot => Sys2Proof.Machine.execCmdSetCgram slot s
  | .cmdSetDdram a => Sys2Proof.Machine.execCmdSetDdram a s
  | .nib8Bit => Sys2Proof.Machine.execNib8Bit s
  | .nib4Bit => Sys2Proof.Machine.execNib4Bit s
  | .data v => Sys2Proof.Machine.execData v s
  | .xw n bl en rs => Sys2Proof.Machine.execXw n bl en rs s
  | .raw => Sys2Proof.Machine.execRaw s
  | .nib n rs => Sys2Proof.Machine.execNib n rs s

end Sys2Proof.Machine
end

