-- ==== Sys2Proof/Machine/Ports.lean ====
section
/-! DEFINITION. What a step runs: a packet taken from the request port, or the next micro-operation of the request in
progress (spec/30_encoding.md R96, R106; spec/10_state.md R32, R33). -/

namespace Sys2Proof.Machine

/-- An undecodable packet (R106): INVALID_ARGUMENT, no register changed, nothing on the bus, in either mode. -/
def serveUndecodable (s : State) : Host.Outcome State Fault Refusal := serve none (.err .invalidArgument) s

/-- A packet served: decoded whole, then run (R96, R217 step 1). -/
def servePacket (p : List Byte) (s : State) : Host.Outcome State Fault Refusal :=
  match decode p with
  | .ok i => exec i s
  | .reject _ => serveUndecodable s

/-- The idle sequencer (R240): it waits for a move of the host, and takes one. -/
def stepIdle (s : State) : Host.Outcome State Fault Refusal :=
  match s.env.moves with
  | [] => .next s
  | .reset :: rest => .next (hardwareReset { s with env := { s.env with moves := rest } })
  | .request p r :: rest =>
    servePacket p { s with env := { s.env with moves := rest }, seq := { s.seq with resetAt := r } }

/-- One micro-operation of the request in progress, `ms` being what is left behind it. The delay counter of a `Delay` counts
down one cycle a step (R33), unless a reset drops it (R242). -/
def stepMicro (m : Micro) (ms : List Micro) (s : State) : State :=
  match m with
  | .waitDelay n =>
    if s.seq.delayCtr ≠ 0 ∧ s.seq.resetAt ≠ some s.seq.upc then
      { s with seq := { s.seq with delayCtr := s.seq.delayCtr - 1 } }
    else ((Micro.waitDelay n).run { s with seq := { s.seq with prog := ms } }).state
  | .busOpen _ | .busClose | .word _ | .raw | .nib _ _ | .cmd _ | .data _ | .loadDelay _ | .set _ | .raise _ | .respond _ =>
    (m.run { s with seq := { s.seq with prog := ms } }).state

/-- The busy sequencer: a waiting packet stays waiting (R32), a reset abandons the request (R242), else the next micro-operation runs. -/
def stepBusy (s : State) : Host.Outcome State Fault Refusal :=
  match s.env.moves with
  | .reset :: rest => .next (abandon { s with env := { s.env with moves := rest } })
  | [] | .request _ _ :: _ =>
    match s.seq.prog with
    | [] => .fault .sequencerUnderrun
    | m :: ms => .next (stepMicro m ms s)

/-- The micro-program of each request; a micro-operation row has none of its own. -/
def requestProgram (i : Instr) (s : State) : List Micro :=
  match i with
  | .init a cfg columns rows => (initProgram a cfg columns rows s).program
  | .openSession a cfg columns rows => (openProgram a cfg columns rows s).program
  | .teardown => (teardownProgram s).program
  | .clear => (clearProgram s).program
  | .home => (homeProgram s).program
  | .clearLine line => (lineProgram line [] s).program
  | .setCursor column row => (setCursorProgram column row s).program
  | .setLine line text => (lineProgram line text s).program
  | .display v => (setFlagProgram Config.FLAG_D v s).program
  | .cursor v => (setFlagProgram Config.FLAG_C v s).program
  | .blink v => (setFlagProgram Config.FLAG_B v s).program
  | .backlightSet v => (backlightSetProgram v s).program
  | .backlightGet => (backlightGetProgram s).program
  | .getDimensions => (getDimensionsProgram s).program
  | .putChar ch => (putCharProgram ch s).program
  | .putString text => (putStringProgram text s).program
  | .createCustomChar slot pat => (createCustomCharProgram slot pat s).program
  | .formattedWrite text => (putStringProgram (cutText text) s).program
  | .cmdClear | .cmdHome | .cmdEntry _ _ | .cmdDisplay _ _ _ | .cmdFunction _ _ _ | .cmdSetCgram _ | .cmdSetDdram _
  | .nib8Bit | .nib4Bit | .data _ | .xw _ _ _ _ | .raw | .nib _ _ => []

/-- The request the sequencer holds while it serves `i`: FORMATTED_WRITE reaches the block as a PUT_STRING (R194). -/
def heldRequest : Instr → Instr
  | .formattedWrite text => .putString (cutText text)
  | i => i

/-- Resets among the first waiting moves, let go. -/
def dropResets : List HostMove → List HostMove
  | .reset :: rest => dropResets rest
  | .request p r :: rest => .request p r :: rest
  | [] => []

/-- A packet presented to an idle block, ahead of every waiting move. -/
def present (p : List Byte) (s : State) : State :=
  { s with seq := Sequencer.idle, env := { s.env with moves := .request p none :: s.env.moves } }

/-- A micro-operation as the next one of the request in progress; where none is, of a request that then responds. -/
def insertMicro (m : Micro) (s : State) : State :=
  { s with
    seq := { s.seq with
      busy := true, resetAt := none
      prog := m :: (if s.seq.busy then s.seq.prog else [.respond []]) }
    env := { s.env with moves := dropResets s.env.moves } }

/-- The instruction of a table word made the next one to run: a request on the request port, a micro-operation in the
sequencer (log 24). -/
def placeWord (nbits w : Nat) (s : State) : State :=
  match decode (tablePacket nbits w) with
  | .ok _ => present (tablePacket nbits w) s
  | .reject _ =>
    match (decodeMicroByte (BitVec.ofNat 8 (w % 2 ^ nbits))).bind microOf with
    | some m => insertMicro m s
    | none => present (tablePacket nbits w) s

end Sys2Proof.Machine
end

