-- ==== Sys2Proof/Machine/Step.lean ====
section
/-! DEFINITION. One step of the machine. -/

namespace Sys2Proof.Machine

/-- One step: the busy sequencer goes on with its request, the idle one takes a move of the host. -/
def step (s : State) : Host.Outcome State Fault Refusal :=
  if s.seq.busy then stepBusy s else stepIdle s

/-- The state whose next step runs the instruction of this table word (log 24). -/
def State.withFetchWord (s : State) (nbits w : Nat) : State := placeWord nbits w s

end Sys2Proof.Machine
end

