-- ==== Sys2Proof/Safety.lean ====
section
/-! DEFINITION. The terms claims are stated in: what the spec's histories are made of, what a completed request leaves,
what an invariant of the machine says. -/

namespace Sys2Proof

open Machine

/-! ## Hypotheses on the environment -/

/-- The sequencer is idle and no reset comes during the next request. -/
def Ready (s : State) : Prop := s.seq = Sequencer.idle

/-- The next `n` answers of the bus primitive are `ok`. -/
def AnswersOk (s : State) (n : Nat) : Prop := ∀ j, j < n → s.answerAt (s.env.draws + j) = .ok

/-- The bus primitive's answer number `j` from now, counted from 0, is the first that fails. -/
def FailsFirstAt (s : State) (j : Nat) (landed : Bool) : Prop :=
  AnswersOk s j ∧ s.answerAt (s.env.draws + j) = .fail landed

/-! ## Histories (the notation of spec/95_test_vectors.md) -/

/-- `Wr(h|4) Dl(1) Wr(h) Dl(50)`: a nibble transfer in which every write succeeds (spec/40_signal_and_byte.md R121). -/
def nibEvents (bl : Bool) (n : Nibble) (rs : Bool) : List Event :=
  [.wr (xword n rs true bl) true, .dl 1, .wr (xword n rs false bl) true, .dl 50]

/-- `B[v,rs]`: a byte transfer in which every write succeeds (R122). -/
def byteEvents (bl : Bool) (v : Byte) (rs : Bool) : List Event :=
  nibEvents bl (highNibble v) rs ++ nibEvents bl (lowNibble v) rs

/-- Byte transfers one after the other. -/
def bytesEvents (bl : Bool) (vs : List Byte) (rs : Bool) : List Event := vs.flatMap fun v => byteEvents bl v rs

/-- Is this event a bus write? -/
def Event.isWr : Event → Bool
  | .wr _ _ => true
  | .busOpen _ _ | .dl _ | .close | .rsp _ _ => false

/-- Is this event a response? -/
def Event.isRsp : Event → Bool
  | .rsp _ _ => true
  | .busOpen _ _ | .wr _ _ | .dl _ | .close => false

/-- Does this event use an answer of the bus primitive? -/
def Event.isDraw : Event → Bool
  | .busOpen _ _ | .wr _ _ => true
  | .dl _ | .close | .rsp _ _ => false

/-- The length of a delay event. -/
def Event.delay : Event → Nat
  | .dl n => n
  | .busOpen _ _ | .wr _ _ | .close | .rsp _ _ => 0

/-- The response packet an event hands to the host, if it is one (spec/30_encoding.md R103). -/
def Event.packet : Event → Option (List Byte)
  | .rsp status data => some (responsePacket status data)
  | .busOpen _ _ | .wr _ _ | .dl _ | .close => none

/-- The response packets the host has received, oldest first. -/
def responses (evs : List Event) : List (List Byte) := evs.filterMap Event.packet

/-- How many bus writes a history has (spec/70_reset_and_hazards.md R252). -/
def writeCount (evs : List Event) : Nat := evs.countP Event.isWr

/-- How many answers of the bus primitive a history uses. -/
def drawCount (evs : List Event) : Nat := evs.countP Event.isDraw

/-- The minimum delay of a history: the sum of its `Dl` events (R252). -/
def minDelay (evs : List Event) : Nat := (evs.map Event.delay).sum

/-- What the observer makes of one event of a history in which every write succeeds (spec/20_memory.md R71). -/
def observeEvent (o : Observer) : Event → Observer
  | .wr w _ => o.write w
  | .busOpen _ _ | .dl _ | .close | .rsp _ _ => o

/-- What the observer makes of a history in which every write succeeds. -/
def replay (evs : List Event) (o : Observer) : Observer := evs.foldl observeEvent o

/-- The state in which a request completes: the registers `regs`, the events `evs` and the OK response with `data` behind
the old history, the sequencer idle, the answers used, the observer as the events leave it. -/
def completed (s : State) (regs : Session) (evs : List Event) (data : List Byte) : State :=
  { regs := regs
    seq := Sequencer.idle
    env := { s.env with draws := s.env.draws + drawCount evs }
    history := s.history ++ evs ++ [.rsp .ok data]
    obs := replay evs s.obs }

/-- The state in which a request is refused with nothing done but its response (spec/60_exceptions.md R214). -/
def refusedWith (s : State) (e : Status) : State :=
  { s with seq := Sequencer.idle, history := s.history ++ [.rsp e []] }

/-- The state in which a request ends at its first failed bus write, of the word `w`, behind the events `before`: nothing of
the request comes after it but `tail` and the response, the observer is as R76 leaves it (spec/40_signal_and_byte.md R125,
spec/60_exceptions.md R214). `tail` is empty, or `Close` for an INIT (spec/41_init_lifecycle.md R145). -/
def failedAfter (s : State) (regs : Session) (before : List Event) (w : Byte) (landed : Bool) (tail : List Event) : State :=
  { regs := regs
    seq := Sequencer.idle
    env := { s.env with draws := s.env.draws + drawCount before + 1 }
    history := s.history ++ before ++ [.wr w false] ++ tail ++ [.rsp .writeFailed []]
    obs := Observer.failedWrite w landed (replay before s.obs) }

/-- The state in which the sequencer goes on behind a micro-operation with the events `evs`: one step of `upc` for each
event (spec/10_state.md R33), the delay counter run down if there was a delay, everything else of the block as it was. -/
def sent (s : State) (evs : List Event) : State :=
  { s with
    seq := { s.seq with
      upc := s.seq.upc + evs.length
      delayCtr := if minDelay evs = 0 then s.seq.delayCtr else 0 }
    env := { s.env with draws := s.env.draws + drawCount evs }
    history := s.history ++ evs
    obs := replay evs s.obs }

/-- Is the request in progress an INIT? -/
def holdsInit (s : State) : Bool :=
  match s.seq.request with
  | some (.init _ _ _ _) => true
  | _ => false

/-- A request that makes the events `evs`: with every answer `ok` it completes with the registers `after` and the response
data `data`; with a first failure at any one of its bus writes it ends there with WRITE_FAILED and the registers `onFail`. -/
def RunsAs (i : Instr) (s : State) (evs : List Event) (after onFail : Session) (data : List Byte) : Prop :=
  (AnswersOk s (drawCount evs) → exec i s = .next (completed s after evs data)) ∧
  ∀ before w rest landed, evs = before ++ .wr w true :: rest → FailsFirstAt s (drawCount before) landed →
    exec i s = .next (failedAfter s onFail before w landed [])

/-- A micro-operation that makes the events `evs`: with every answer `ok` the sequencer goes on behind it; with a first
failure at any one of its bus writes the request in progress ends there, an INIT with its bus handle released. -/
def MicroRunsAs (i : Instr) (s : State) (evs : List Event) : Prop :=
  (AnswersOk s (drawCount evs) → exec i s = .next (sent s evs)) ∧
  ∀ before w rest landed, evs = before ++ .wr w true :: rest → FailsFirstAt s (drawCount before) landed →
    exec i s = .next
      (if holdsInit s then failedAfter s { s.regs with isOpen := false } before w landed [.close]
       else failedAfter s s.regs before w landed [])

/-! ## Histories of the requests when everything succeeds -/

/-- The events of one micro-operation, every answer `ok`, with `bl` in the words. -/
def microEvents (bl : Bool) : Micro → List Event
  | .busOpen a => [.busOpen a true]
  | .busClose => [.close]
  | .word w => [.wr w true]
  | .raw => [.wr (xword 0 false false bl) true]
  | .nib n rs => nibEvents bl n rs
  | .cmd v => byteEvents bl v false
  | .data v => byteEvents bl v true
  | .loadDelay _ => []
  | .waitDelay n => [.dl n]
  | .set _ => []
  | .raise e => [.rsp e []]
  | .respond d => [.rsp .ok d]

/-- The events of a micro-program, every answer `ok`, while the backlight bit of its words is `bl`. -/
def programEvents (bl : Bool) (ms : List Micro) : List Event := ms.flatMap (microEvents bl)

/-- INIT's events behind `Open` and before the response (spec/41_init_lifecycle.md R141). -/
def initEvents (bl : Bool) : List Event :=
  [.dl 50000, .wr (xword 0 false false bl) true] ++
  (nibEvents bl 0x3 false ++ [.dl 5000]) ++ (nibEvents bl 0x3 false ++ [.dl 150]) ++
  (nibEvents bl 0x3 false ++ [.dl 150]) ++ nibEvents bl 0x2 false ++
  bytesEvents bl [0x28, 0x08, 0x06, 0x0C] false

/-- The registers session creation leaves, with `isOpen` as given (R140, spec/10_state.md R38). -/
def createdSession (a cfg : Byte) (g : Geometry) (isOpen : Bool) : Session :=
  { isOpen := isOpen, periphAddr := cfgAddr a, columns := g.columns, rows := g.rows.setWidth 3, rowBase := g.rowBase,
    dcf := 0b100, emf := 0b10, backlightOn := cfgBacklight cfg }

/-- The configuration operands of INIT and OPEN are in order and name the size `g` (spec/30_encoding.md R102, spec/10_state.md R23, R25, R26):
every reserved field 0, a preset id that names a row of `PRESETS` or explicit columns and rows, and `WF_CFG`. -/
structure ConfigNames (a cfg columns rows : Byte) (g : Geometry) : Prop where
  addrReserved : a.getLsbD 7 = false
  cfgReserved  : cfg.getLsbD 5 = false ∧ cfg.getLsbD 4 = false
  preset       : cfg.getLsbD 6 = false →
    columns = 0 ∧ rows = 0 ∧ Config.PRESETS[(cfg.extractLsb' 0 4).toNat]? = some g
  custom       : cfg.getLsbD 6 = true →
    cfg.extractLsb' 0 4 = 0#4 ∧ g = ⟨columns, rows, Config.CUSTOM_ROW_BASE columns⟩
  wf           : 0 < g.columns.toNat ∧ 0 < g.rows.toNat ∧ g.rows.toNat ≤ 4 ∧
    ∀ r, r < g.rows.toNat → (rowBaseAt g.rowBase r).toNat + g.columns.toNat - 1 ≤ 0x7F

/-- The state in which session creation ends when `BusOpen` fails (spec/60_exceptions.md R211): the event, the response, an
answer used, nothing else. -/
def unreachable (s : State) (a : Byte) : State :=
  { s with
    seq := Sequencer.idle
    env := { s.env with draws := s.env.draws + 1 }
    history := s.history ++ [.busOpen (cfgAddr a) false, .rsp .peripheralUnreachable []] }

/-! ## The rows of the opcode table by kind -/

/-- Is this a request of the host (format REQ, or the pseudo-instruction)? -/
def isRequest (i : Instr) : Bool := formatOf i == .req

/-- Is this INIT or OPEN, which create a session? -/
def createsSession : Instr → Bool
  | .init _ _ _ _ | .openSession _ _ _ _ => true
  | .teardown | .clear | .home | .clearLine _ | .setCursor _ _ | .setLine _ _ | .display _ | .cursor _ | .blink _
  | .backlightSet _ | .backlightGet | .getDimensions | .putChar _ | .putString _ | .createCustomChar _ _
  | .formattedWrite _ | .cmdClear | .cmdHome | .cmdEntry _ _ | .cmdDisplay _ _ _ | .cmdFunction _ _ _
  | .cmdSetCgram _ | .cmdSetDdram _ | .nib8Bit | .nib4Bit | .data _ | .xw _ _ _ _ | .raw | .nib _ _ => false

/-- The requests that need an open session: every one but INIT, OPEN and TEARDOWN (spec/60_exceptions.md R215). -/
def needsOpen (i : Instr) : Bool := isRequest i && !createsSession i && decide (i ≠ .teardown)

/-- The `backlight_on` that the words of an instruction carry and that it leaves, also when it fails (spec/40_signal_and_byte.md
R126, spec/60_exceptions.md R218). -/
def backlightAfter (i : Instr) (s : State) : Bool :=
  match i with
  | .backlightSet v => v
  | .init _ cfg _ _ | .openSession _ cfg _ _ => cfgBacklight cfg
  | .teardown | .clear | .home | .clearLine _ | .setCursor _ _ | .setLine _ _ | .display _ | .cursor _ | .blink _
  | .backlightGet | .getDimensions | .putChar _ | .putString _ | .createCustomChar _ _
  | .formattedWrite _ | .cmdClear | .cmdHome | .cmdEntry _ _ | .cmdDisplay _ _ _ | .cmdFunction _ _ _
  | .cmdSetCgram _ | .cmdSetDdram _ | .nib8Bit | .nib4Bit | .data _ | .xw _ _ _ _ | .raw | .nib _ _ => s.regs.backlightOn

/-- The table of spec/70_reset_and_hazards.md R252: bus writes and minimum delay in microseconds of a request when every
write succeeds, and of the micro-operation rows. -/
def costOf (i : Instr) (s : State) : Nat × Nat :=
  match i with
  | .init _ _ _ _ => (25, 55912)
  | .openSession _ _ _ _ | .teardown | .backlightGet | .getDimensions => (0, 0)
  | .clear | .home => (4, 1702)
  | .setCursor _ _ | .display _ | .cursor _ | .blink _ | .putChar _ => (4, 102)
  | .backlightSet _ => (1, 0)
  | .putString text => (4 * text.length, 102 * text.length)
  | .formattedWrite text => (4 * (cutText text).length, 102 * (cutText text).length)
  | .clearLine _ | .setLine _ _ => (4 * (1 + s.regs.columns.toNat), 102 * (1 + s.regs.columns.toNat))
  | .createCustomChar _ pat => (4 * (2 + pat.length), 102 * (2 + pat.length))
  | .cmdClear | .cmdHome | .cmdEntry _ _ | .cmdDisplay _ _ _ | .cmdFunction _ _ _ | .cmdSetCgram _ | .cmdSetDdram _
  | .data _ => (4, 102)
  | .nib8Bit | .nib4Bit | .nib _ _ => (2, 51)
  | .xw _ _ _ _ | .raw => (1, 0)

/-! ## The observer -/

/-- The controller is in step with the block: 4-bit width, a high half next, the enable pin low. -/
def InStep (o : Observer) : Prop :=
  o.ifw = .w4 ∧ o.phase = some .hi ∧ ∃ p, o.pins = some p ∧ p.getLsbD 2 = false

/-- The controller takes data bytes at display address `a`, one after the other. -/
def AtDisplay (o : Observer) (a : Addr) : Prop :=
  InStep o ∧ o.space = some .ddram ∧ o.ac = some a ∧ o.entryId = some true

/-- The nibble phase is lost and no run of 8-bit-mode nibbles is on its way to settle it (spec/20_memory.md R76). -/
def PhaseLost (o : Observer) : Prop :=
  o.phase = none ∧ (o.ifw = .w4 ∨ o.ifw = .unknown 0 ∨ o.ifw = .unknown 1)

/-- The byte known to be in display memory at `a`. -/
def ddramAt (s : State) (a : Nat) : Option Byte := Memory.read s.obs.ddram a

/-- The byte known to be in glyph memory at `a`. -/
def cgramAt (s : State) (a : Nat) : Option Byte := Memory.read s.obs.cgram a

/-! ## The invariant of the machine between requests -/

/-- What holds of the registers of an open session after every response (spec/10_state.md R35). -/
def SessionInv (r : Session) : Prop :=
  r.isOpen = true → wfCfg r.columns.toNat r.rows.toNat r.rowBase = true ∧ r.emf = 0b10

/-- What holds of the observer: both memories keep their canonical form within their bounds (R70), and the read/write pin
is low once a word has been written (spec/30_encoding.md R81). -/
def ObserverInv (o : Observer) : Prop :=
  Memory.wf o.ddram ∧ (∀ c ∈ o.ddram, c.1 < 128) ∧ Memory.wf o.cgram ∧ (∀ c ∈ o.cgram, c.1 < 64) ∧
  (∀ p, o.pins = some p → p.getLsbD 1 = false)

/-- The invariant between requests: the sequencer is idle, the session and the observer are in order. -/
def Inv (s : State) : Prop := Ready s ∧ SessionInv s.regs ∧ ObserverInv s.obs

/-- The invariant of every state, a request in progress or not: the observer is in order, and every word that is ready to be
sent has its read/write bit 0 (spec/30_encoding.md R81). -/
def BusInv (s : State) : Prop :=
  ObserverInv s.obs ∧ ∀ w, .word w ∈ s.seq.prog → w.getLsbD 1 = false

/-! ## Runs of several steps -/

/-- `n` steps one after the other; a fault or a refusal ends the run. -/
def runSteps : Nat → State → Host.Outcome State Fault Refusal
  | 0, s => .next s
  | n + 1, s =>
    match step s with
    | .next t => runSteps n t
    | .fault f => .fault f
    | .refused r => .refused r

/-- The next move of the host is no reset. -/
def NoReset (s : State) : Prop := ∀ rest, s.env.moves ≠ .reset :: rest

/-- Two states that agree on everything the host or the bus can see: equal, or both closed and different at most in the
session registers behind `open` (spec/10_state.md R37). -/
def SameButHidden (s s' : State) : Prop :=
  s' = s ∨ (s.regs.isOpen = false ∧ ∃ r, r.isOpen = false ∧ s' = { s with regs := r })

end Sys2Proof
end

