-- ==== Sys2Proof/Certificates/Slice0/Obligations.lean ====
section
/-! DEFINITION. The statements for the provers. Each docstring names the rules of spec/ it says. Command bytes, flag
positions and the space character are the spec's own defaults (D19, log 9). -/

open Sys2Proof Sys2Proof.Machine

/-! ## Reset, and what a step runs -/

/-- R240, R241: reset closes the session and idles the sequencer, puts nothing on the bus, and does not reach the expander
and the controller. That the reset input is a move of the host, here one an idle block takes, is the model's form of it (log 6,
log 24); a reset of a busy block is in `ResetAbandonsTheRequest`. -/
def Obligations.ResetClosesAndIdles : Prop :=
  (State.reset.regs.isOpen = false ∧ State.reset.seq.busy = false ∧ State.reset.seq.upc = 0 ∧
    State.reset.seq.delayCtr = 0 ∧ State.reset.seq.request = none ∧ State.reset.seq.prog = [] ∧
    State.reset.history = []) ∧
  ∀ (s : State) (rest : List HostMove), s.seq.busy = false → s.env.moves = .reset :: rest →
    ∃ t, step s = .next t ∧ t.regs.isOpen = false ∧ t.seq = Sequencer.idle ∧ t.history = s.history ∧ t.obs = s.obs ∧
      t.env = { s.env with moves := rest }

/-- The idle step: with a packet waiting it is exec of the decoded instruction, at the state with that packet taken; with
nothing waiting it stays (model's conventions, log 5 and log 24). -/
def Obligations.IdleStepServesTheDecodedRequest : Prop :=
  (∀ (s : State) (p : List Byte) (r : Option Nat) (rest : List HostMove) (i : Instr),
    s.seq.busy = false → s.env.moves = .request p r :: rest → decode p = .ok i →
      step s = exec i { s with env := { s.env with moves := rest }, seq := { s.seq with resetAt := r } }) ∧
  ∀ s : State, s.seq.busy = false → s.env.moves = [] → step s = .next s

/-- The busy step: when the next micro-operation is one of a row of the opcode table, it is exec of that row, at the state
whose micro-program has moved past it (model's convention, log 20). -/
def Obligations.BusyStepRunsTheNextMicroOperation : Prop :=
  ∀ (s : State) (i : Instr) (m : Micro) (ms : List Micro),
    s.seq.busy = true → NoReset s → s.seq.prog = m :: ms → microOf i = some m →
      step s = exec i { s with seq := { s.seq with prog := ms } }

/-- A table word that is placed is the instruction the very next step runs: a request on the port, a micro-operation in the
sequencer (model's convention, log 24). -/
def Obligations.PlacedWordRunsNext : Prop :=
  ∀ (s : State) (nbits w : Nat) (i : Instr), decodeTableWord nbits w = some i →
    (decode (tablePacket nbits w) = .ok i ∧
      step (s.withFetchWord nbits w) = exec i { s with seq := Sequencer.idle }) ∨
    ((∃ r, decode (tablePacket nbits w) = .reject r) ∧
      step (s.withFetchWord nbits w) =
        exec i { s with
          seq := { s.seq with
            busy := true, resetAt := none
            prog := if s.seq.busy then s.seq.prog else [.respond []] }
          env := { s.env with moves := dropResets s.env.moves } })

/-- R106: which packets are undecodable, and that such a packet gives INVALID_ARGUMENT and nothing else, in either mode. -/
def Obligations.UndecodablePacketsDoNothing : Prop :=
  (∀ p : List Byte, (∃ r, decode p = .reject r) ↔ packetLength p ≠ some p.length) ∧
  (∀ b : Byte, opcodeOf b = none ↔
    b.toNat = 0x00 ∨ (0x04 ≤ b.toNat ∧ b.toNat ≤ 0x0F) ∨ (0x15 ≤ b.toNat ∧ b.toNat ≤ 0x1F) ∨
    (0x2A ≤ b.toNat ∧ b.toNat ≤ 0x2F) ∨ (0x32 ≤ b.toNat ∧ b.toNat ≤ 0x3F) ∨ 0x41 ≤ b.toNat) ∧
  ∀ (s : State) (p : List Byte) (rest : List HostMove) (r : Reject),
    Ready s → s.env.moves = .request p none :: rest → decode p = .reject r →
      step s = .next (refusedWith { s with env := { s.env with moves := rest } } .invalidArgument)

/-! ## Encodings -/

/-- R100: the packet of every request, its opcode and its operands in order; bit 0 is the value operand (R101). -/
def Obligations.OpcodeMapAsTheSpecGivesIt : Prop :=
  ∀ (a c x y v : Byte) (text pat : List Byte), text.length ≤ 255 → pat.length = 8 →
    decode [0x01, a, c, x, y] = .ok (.init a c x y) ∧
    decode [0x02, a, c, x, y] = .ok (.openSession a c x y) ∧
    decode [0x03] = .ok .teardown ∧
    decode [0x10] = .ok .clear ∧
    decode [0x11] = .ok .home ∧
    decode [0x12, v] = .ok (.clearLine v) ∧
    decode [0x13, x, y] = .ok (.setCursor x y) ∧
    decode (0x14 :: v :: BitVec.ofNat 8 text.length :: text) = .ok (.setLine v text) ∧
    decode [0x20] = .ok (.display false) ∧ decode [0x21] = .ok (.display true) ∧
    decode [0x22] = .ok (.cursor false) ∧ decode [0x23] = .ok (.cursor true) ∧
    decode [0x24] = .ok (.blink false) ∧ decode [0x25] = .ok (.blink true) ∧
    decode [0x26] = .ok (.backlightSet false) ∧ decode [0x27] = .ok (.backlightSet true) ∧
    decode [0x28] = .ok .backlightGet ∧
    decode [0x29] = .ok .getDimensions ∧
    decode [0x30, v] = .ok (.putChar v) ∧
    decode (0x31 :: BitVec.ofNat 8 text.length :: text) = .ok (.putString text) ∧
    decode (0x40 :: v :: pat) = .ok (.createCustomChar v pat)

/-- R96 to R101: the decoder and the encoder are inverse to each other on the requests. That every formatted write is encoded
as the PUT_STRING of its cut text is the model's choice: its operand is the rendered text (log 22), and `FMT_CAP` is at most
256, so that the cut text always has a length byte (log 10). -/
def Obligations.DecodeInvertsEncode : Prop :=
  (∀ i : Instr, WellFormed i = true → isRequest i = true → (∀ t, i ≠ .formattedWrite t) → decode (encode i) = .ok i) ∧
  (∀ t : List Byte, decode (encode (.formattedWrite t)) = .ok (.putString (cutText t))) ∧
  ∀ (p : List Byte) (i : Instr), decode p = .ok i → encode i = p ∧ WellFormed i = true ∧ isRequest i = true

/-- R80, R84 to R92: every micro-operation row read back in the format of its row, whatever its operands and the backlight. -/
def Obligations.MicroRowsDecodeInTheirFormat : Prop :=
  ∀ (bl : Bool) (i : Instr), isRequest i = false → decodeAs (formatOf i) (encodeWith bl i) = some i

/-- A few words of each format, written out. -/
def Obligations.SampleWordsDecode : Prop :=
  decode [0x01, 0x27, 0x80, 0x00, 0x00] = .ok (.init 0x27 0x80 0 0) ∧
  decode [0x13, 0x05, 0x01] = .ok (.setCursor 5 1) ∧
  decode [0x14, 0x00, 0x03, 0x41, 0x42, 0x43] = .ok (.setLine 0 [0x41, 0x42, 0x43]) ∧
  decode [0x21] = .ok (.display true) ∧
  decodeAs .lcd [0xC5] = some (.cmdSetDdram 0x45) ∧
  decodeAs .lcd [0x58] = some (.cmdSetCgram 3) ∧
  decodeAs .lcd [0x28] = some (.cmdFunction false true false) ∧
  decodeAs .xw [0xAD] = some (.xw 0xA true true true) ∧
  decodeAs .xwPair [0xAD, 0xA9] = some (.nib 0xA true) ∧
  decodeAs .raw [0x08] = some .raw

/-- R80, R83: the layout of an expander word, and the words of the two halves of a byte. -/
def Obligations.ExpanderWordLayout : Prop :=
  (∀ (n : Nibble) (rs en bl : Bool),
    xword n rs en bl = (n.setWidth 8 <<< 4) ||| (if bl then 0x08 else 0) ||| (if en then 0x04 else 0) |||
      (if rs then 0x01 else 0)) ∧
  ∀ (v : Byte) (rs en bl : Bool),
    xword (highNibble v) rs en bl &&& 0xF0 = v &&& 0xF0 ∧ xword (lowNibble v) rs en bl &&& 0xF0 = (v <<< 4) &&& 0xF0 ∧
    (highNibble v).toNat = v.toNat / 16 ∧ (lowNibble v).toNat = v.toNat % 16

/-- R81, R82, R126: bit 1 of every word the block sends is 0, whatever the instruction, the state, the failures and the resets,
and bit 3 is `backlight_on`. That the bare XW row is exempt, with a bit of its own, is the model's choice (log 21). -/
def Obligations.WordsAreWriteOnlyAndCarryTheBacklight : Prop :=
  ∀ (i : Instr) (s t : State), exec i s = .next t →
    ∃ evs, t.history = s.history ++ evs ∧
      ∀ w ok, Event.wr w ok ∈ evs →
        w.getLsbD 1 = false ∧ ((∀ n bl en rs, i ≠ .xw n bl en rs) → w.getLsbD 3 = backlightAfter i s)

/-! ## The micro-operation rows

Each statement holds at every state, a request in progress or not. That a row also runs where none is, and that its failing
write answers WRITE_FAILED there too, is the model's choice (log 20). -/

/-- R121: a nibble transfer, with every write a success and with either write a failure; with no request in progress its run
and its WRITE_FAILED response are the model's choice (log 20). -/
def Obligations.NibbleTransfer : Prop :=
  ∀ (n : Nibble) (rs : Bool) (s : State), s.seq.resetAt = none →
    MicroRunsAs (.nib n rs) s
      [.wr (xword n rs true s.regs.backlightOn) true, .dl 1, .wr (xword n rs false s.regs.backlightOn) true, .dl 50]

/-- R120: the raw word; with the enable pin low it latches nothing. That with the enable pin high the controller latches the
nibble 0 is R120's own inference from R71, which it marks as derived; with no request in progress the run and the WRITE_FAILED
response are the model's choice (log 20). -/
def Obligations.RawWord : Prop :=
  ∀ s : State, s.seq.resetAt = none →
    MicroRunsAs .raw s [.wr (if s.regs.backlightOn then 0x08 else 0x00) true] ∧
    ∀ p, s.obs.pins = some p →
      replay [.wr (if s.regs.backlightOn then 0x08 else 0x00) true] s.obs =
        { (if p.getLsbD 2 then Observer.latch 0 false s.obs else s.obs) with
          pins := some (if s.regs.backlightOn then 0x08 else 0x00) }

/-- R122, R124, R125: a data byte, the high half first, register-select 1 in all four words; with no request in progress its
run and its WRITE_FAILED response are the model's choice (log 20). -/
def Obligations.DataTransfer : Prop :=
  ∀ (v : Byte) (s : State), s.seq.resetAt = none →
    MicroRunsAs (.data v) s
      (nibEvents s.regs.backlightOn (v.extractLsb' 4 4) true ++ nibEvents s.regs.backlightOn (v.extractLsb' 0 4) true)

/-- R85 to R92, R123: each command row sends its byte, and each row of the initialization its nibble, with register-select 0;
with no request in progress the run and the WRITE_FAILED response are the model's choice (log 20). -/
def Obligations.CommandRowsSendTheirByte : Prop :=
  ∀ s : State, s.seq.resetAt = none →
    MicroRunsAs .cmdClear s (byteEvents s.regs.backlightOn 0x01 false) ∧
    MicroRunsAs .cmdHome s (byteEvents s.regs.backlightOn 0x02 false) ∧
    (∀ inc sh, MicroRunsAs (.cmdEntry inc sh) s
      (byteEvents s.regs.backlightOn (byteOfBits false false false false false true inc sh) false)) ∧
    (∀ d c b, MicroRunsAs (.cmdDisplay d c b) s
      (byteEvents s.regs.backlightOn (byteOfBits false false false false true d c b) false)) ∧
    (∀ dl n f, MicroRunsAs (.cmdFunction dl n f) s
      (byteEvents s.regs.backlightOn (byteOfBits false false true dl n f false false) false)) ∧
    (∀ slot : BitVec 3, MicroRunsAs (.cmdSetCgram slot) s
      (byteEvents s.regs.backlightOn (0b01#2 ++ slot ++ 0b000#3) false)) ∧
    (∀ a : Addr, MicroRunsAs (.cmdSetDdram a) s (byteEvents s.regs.backlightOn (0b1#1 ++ a) false)) ∧
    MicroRunsAs .nib8Bit s (nibEvents s.regs.backlightOn 0x3 false) ∧
    MicroRunsAs .nib4Bit s (nibEvents s.regs.backlightOn 0x2 false)

/-- R51, R80: the XW row is one bus write of its word (log 20, log 21); on success the pins hold it. -/
def Obligations.XwRowIsOneBusWrite : Prop :=
  ∀ (n : Nibble) (bl en rs : Bool) (s : State), s.seq.resetAt = none →
    MicroRunsAs (.xw n bl en rs) s
      [.wr (byteOfBits (n.getLsbD 3) (n.getLsbD 2) (n.getLsbD 1) (n.getLsbD 0) bl en false rs) true] ∧
    (AnswersOk s 1 → ∃ t, exec (.xw n bl en rs) s = .next t ∧
      t.obs.pins = some (byteOfBits (n.getLsbD 3) (n.getLsbD 2) (n.getLsbD 1) (n.getLsbD 0) bl en false rs))

/-! ## Lifecycle -/

/-- R141, R145, with R140's refusals: INIT in full, whatever the bus answers. The seventeenth write (number 16) is the last
of display-off, so `dcf` is 0b000 from the next failing write on. -/
def Obligations.InitRuns : Prop :=
  ∀ (a c x y : Byte) (s : State), Ready s →
    (s.regs.isOpen = true ∨ (¬ ∃ g, ConfigNames a c x y g) →
      exec (.init a c x y) s = .next (refusedWith s .invalidArgument)) ∧
    ∀ g, s.regs.isOpen = false → ConfigNames a c x y g →
      (∀ landed, s.answer = .fail landed → exec (.init a c x y) s = .next (unreachable s a)) ∧
      (AnswersOk s 26 → exec (.init a c x y) s =
        .next (completed s (createdSession a c g true)
          (.busOpen (cfgAddr a) true :: initEvents (c.getLsbD 7)) [])) ∧
      ∀ before w rest landed, initEvents (c.getLsbD 7) = before ++ .wr w true :: rest →
        FailsFirstAt s (1 + drawCount before) landed →
        exec (.init a c x y) s =
          .next (failedAfter s
            { createdSession a c g false with dcf := if writeCount before < 17 then 0b100 else 0b000 }
            (.busOpen (cfgAddr a) true :: before) w landed [.close])

/-- R75, R146: whatever the controller's state before, a successful INIT leaves it in 4-bit width with a high half next,
function set, display and entry mode as listed, the pins at the last word, and both memories as they were. How the width
converges nibble by nibble, and that the memories stay, are the model's readings of R75 (log 14, log 15). -/
def Obligations.InitConverges : Prop :=
  ∀ (a c x y : Byte) (g : Geometry) (s : State), Ready s → s.regs.isOpen = false → ConfigNames a c x y g → AnswersOk s 26 →
    ∃ t, exec (.init a c x y) s = .next t ∧
      t.obs.ifw = .w4 ∧ t.obs.phase = some .hi ∧ t.obs.func = some 0b010 ∧ t.obs.disp = some 0b100 ∧
      t.obs.entryId = some true ∧ t.obs.entryS = some false ∧
      t.obs.pins = some (xword 0xC false false (c.getLsbD 7)) ∧
      t.obs.ddram = s.obs.ddram ∧ t.obs.cgram = s.obs.cgram

/-- R142, with R140's refusals: OPEN in full; it never writes the bus. -/
def Obligations.OpenRuns : Prop :=
  ∀ (a c x y : Byte) (s : State), Ready s →
    (s.regs.isOpen = true ∨ (¬ ∃ g, ConfigNames a c x y g) →
      exec (.openSession a c x y) s = .next (refusedWith s .invalidArgument)) ∧
    ∀ g, s.regs.isOpen = false → ConfigNames a c x y g →
      (∀ landed, s.answer = .fail landed → exec (.openSession a c x y) s = .next (unreachable s a)) ∧
      (s.answer = .ok → exec (.openSession a c x y) s =
        .next (completed s (createdSession a c g true) [.busOpen (cfgAddr a) true] []))

/-- R143: TEARDOWN releases the handle of an open session and does nothing to a closed one; it answers OK in both. -/
def Obligations.TeardownRuns : Prop :=
  ∀ s : State, Ready s →
    (s.regs.isOpen = true → exec .teardown s = .next (completed s { s.regs with isOpen := false } [.close] [])) ∧
    (s.regs.isOpen = false → exec .teardown s = .next (completed s s.regs [] []))

/-- R211: only session creation on a closed session raises PERIPHERAL_UNREACHABLE, with no bus write and no register written. -/
def Obligations.OnlyCreationIsUnreachable : Prop :=
  ∀ (i : Instr) (s t : State) (evs : List Event) (d : List Byte), isRequest i = true → Ready s → exec i s = .next t →
    t.history = s.history ++ evs → .rsp .peripheralUnreachable d ∈ evs →
      createsSession i = true ∧ s.regs.isOpen = false ∧ t.regs = s.regs ∧ t.obs = s.obs ∧ writeCount evs = 0 ∧ d = [] ∧
      ∃ landed, s.answer = .fail landed

/-- R223: the two modes, what each permits, and how the session changes between them. -/
def Obligations.ModesOfTheSession : Prop :=
  ∀ (i : Instr) (s : State), isRequest i = true → Ready s →
    ∃ t evs st d, exec i s = .next t ∧ t.history = s.history ++ evs ++ [.rsp st d] ∧
      (s.regs.isOpen = false → needsOpen i = true → st = .notInitialized ∧ t.regs.isOpen = false) ∧
      (s.regs.isOpen = true → createsSession i = true → st = .invalidArgument ∧ t.regs.isOpen = true) ∧
      (s.regs.isOpen = true → needsOpen i = true →
        st ≠ .notInitialized ∧ st ≠ .invalidArgument ∧ t.regs.isOpen = true) ∧
      (s.regs.isOpen = false → createsSession i = true → (t.regs.isOpen = true ↔ st = .ok)) ∧
      (i = .teardown → st = .ok ∧ t.regs.isOpen = false)

/-! ## Errors and responses -/

/-- R215: every request but INIT, OPEN and TEARDOWN on a closed session, whatever its operands, does nothing but answer
NOT_INITIALIZED. -/
def Obligations.ClosedSessionRefuses : Prop :=
  ∀ (i : Instr) (s : State), needsOpen i = true → Ready s → s.regs.isOpen = false →
    exec i s = .next (refusedWith s .notInitialized)

/-- R216: a row, line, column or slot out of bounds gives OUT_OF_RANGE and nothing else. -/
def Obligations.OutOfRangeRefuses : Prop :=
  ∀ (s : State), Ready s → s.regs.isOpen = true →
    (∀ column row : Byte, s.regs.rows.toNat ≤ row.toNat ∨ s.regs.columns.toNat ≤ column.toNat →
      exec (.setCursor column row) s = .next (refusedWith s .outOfRange)) ∧
    (∀ line : Byte, s.regs.rows.toNat ≤ line.toNat ∨ s.regs.columns.toNat = 0 →
      exec (.clearLine line) s = .next (refusedWith s .outOfRange) ∧
      ∀ text, exec (.setLine line text) s = .next (refusedWith s .outOfRange)) ∧
    ∀ (slot : Byte) (pat : List Byte), 7 < slot.toNat →
      exec (.createCustomChar slot pat) s = .next (refusedWith s .outOfRange)

/-- R213: where INVALID_ARGUMENT comes from. -/
def Obligations.InvalidArgumentCases : Prop :=
  (∀ (s : State) (p : List Byte) (rest : List HostMove) (r : Reject),
    Ready s → s.env.moves = .request p none :: rest → decode p = .reject r →
      ∃ t, step s = .next t ∧ t.history = s.history ++ [.rsp .invalidArgument []]) ∧
  ∀ (i : Instr) (s t : State) (evs : List Event) (d : List Byte), isRequest i = true → Ready s → exec i s = .next t →
    t.history = s.history ++ evs →
      (.rsp .invalidArgument d ∈ evs ↔
        d = [] ∧ ∃ a c x y, (i = .init a c x y ∨ i = .openSession a c x y) ∧
          (s.regs.isOpen = true ∨ ¬ ∃ g, ConfigNames a c x y g))

/-- R218: what each error leaves of the registers and of the display. "Indeterminate" is that no component of the controller
is known (R76, D16, log 19); the pins are what `FailedWriteLosesThePosition` says. -/
def Obligations.StateAfterEachError : Prop :=
  ∀ (i : Instr) (s t : State) (evs : List Event) (st : Status), isRequest i = true → Ready s → exec i s = .next t →
    t.history = s.history ++ evs ++ [.rsp st []] →
      (st = .invalidArgument ∨ st = .notInitialized ∨ st = .outOfRange ∨ st = .peripheralUnreachable →
        t.regs = s.regs ∧ t.obs = s.obs) ∧
      (st = .writeFailed → s.regs.isOpen = true →
        t.regs = { s.regs with backlightOn := backlightAfter i s } ∧
        t.obs = { Observer.unknown with pins := t.obs.pins })

/-- R103, R104: the six status codes, and that every request gives exactly one response packet, its last event: the status
code, then data only for the two getters and only when OK; behind it the block is idle again (R219). -/
def Obligations.ExactlyOneResponse : Prop :=
  (statusByte .ok = 0x00 ∧ statusByte .peripheralUnreachable = 0x01 ∧ statusByte .writeFailed = 0x02 ∧
    statusByte .invalidArgument = 0x03 ∧ statusByte .notInitialized = 0x04 ∧ statusByte .outOfRange = 0x05) ∧
  ∀ (i : Instr) (s : State), isRequest i = true → Ready s →
    ∃ t evs st d, exec i s = .next t ∧ t.history = s.history ++ evs ++ [.rsp st d] ∧
      (∀ e ∈ evs, Event.isRsp e = false) ∧ responses t.history = responses s.history ++ [statusByte st :: d] ∧
      (statusByte st).toNat ≤ 0x05 ∧ (d ≠ [] → st = .ok ∧ (i = .backlightGet ∨ i = .getDimensions)) ∧
      t.seq = Sequencer.idle

/-- R32: while a request is in progress the port takes nothing: a waiting packet stays, and a request asked for is refused
by name (log 23). -/
def Obligations.BusyPortAcceptsNothing : Prop :=
  (∀ (s t : State) (p : List Byte) (r : Option Nat) (rest : List HostMove),
    s.seq.busy = true → s.env.moves = .request p r :: rest → step s = .next t → t.env.moves = s.env.moves) ∧
  ∀ (i : Instr) (s : State), isRequest i = true → s.seq.busy = true → exec i s = .refused .requestWhileBusy

/-! ## Addressing and display -/

/-- R160: the row-address decoder, and the place of its sum under WF_CFG. -/
def Obligations.RowAddressDecoder : Prop :=
  ∀ (s : State) (column row : Byte),
    (row.toNat < s.regs.rows.toNat → column.toNat < s.regs.columns.toNat →
      addr s column row = .ok (rowBaseAt s.regs.rowBase row.toNat + column.setWidth 7)) ∧
    (s.regs.rows.toNat ≤ row.toNat ∨ s.regs.columns.toNat ≤ column.toNat → addr s column row = .err .outOfRange) ∧
    (wfCfg s.regs.columns.toNat s.regs.rows.toNat s.regs.rowBase = true →
      ∀ a, addr s column row = .ok a →
        a.toNat = (rowBaseAt s.regs.rowBase row.toNat).toNat + column.toNat ∧ a.toNat ≤ 0x7F)

/-- R161: SET_CURSOR in full. -/
def Obligations.SetCursorRuns : Prop :=
  ∀ (column row : Byte) (s : State), Ready s →
    (s.regs.isOpen = false → exec (.setCursor column row) s = .next (refusedWith s .notInitialized)) ∧
    (s.regs.isOpen = true → s.regs.rows.toNat ≤ row.toNat ∨ s.regs.columns.toNat ≤ column.toNat →
      exec (.setCursor column row) s = .next (refusedWith s .outOfRange)) ∧
    (s.regs.isOpen = true → row.toNat < s.regs.rows.toNat → column.toNat < s.regs.columns.toNat →
      ∀ a : Addr, a = rowBaseAt s.regs.rowBase row.toNat + column.setWidth 7 →
      RunsAs (.setCursor column row) s (byteEvents s.regs.backlightOn (0b1#1 ++ a) false) s.regs s.regs [] ∧
      (InStep s.obs → AnswersOk s 4 → ∃ t, exec (.setCursor column row) s = .next t ∧ InStep t.obs ∧
        t.obs.space = some .ddram ∧ t.obs.ac = some a ∧ t.obs.ddram = s.obs.ddram ∧ t.obs.cgram = s.obs.cgram))

/-- R170: CLEAR in full. -/
def Obligations.ClearRuns : Prop :=
  ∀ s : State, Ready s →
    (s.regs.isOpen = false → exec .clear s = .next (refusedWith s .notInitialized)) ∧
    (s.regs.isOpen = true →
      RunsAs .clear s (byteEvents s.regs.backlightOn 0x01 false ++ [.dl 1600]) s.regs s.regs [] ∧
      (InStep s.obs → AnswersOk s 4 → ∃ t, exec .clear s = .next t ∧ InStep t.obs ∧
        (∀ a, a < 128 → ddramAt t a = some 0x20) ∧ t.obs.space = some .ddram ∧ t.obs.ac = some 0 ∧
        t.obs.cgram = s.obs.cgram))

/-- R171: HOME in full. -/
def Obligations.HomeRuns : Prop :=
  ∀ s : State, Ready s →
    (s.regs.isOpen = false → exec .home s = .next (refusedWith s .notInitialized)) ∧
    (s.regs.isOpen = true →
      RunsAs .home s (byteEvents s.regs.backlightOn 0x02 false ++ [.dl 1600]) s.regs s.regs [] ∧
      (InStep s.obs → AnswersOk s 4 → ∃ t, exec .home s = .next t ∧ InStep t.obs ∧
        t.obs.space = some .ddram ∧ t.obs.ac = some 0 ∧ t.obs.ddram = s.obs.ddram ∧ t.obs.cgram = s.obs.cgram))

/-- R172 to R175: DISPLAY, CURSOR and BLINK in full: one bit of `dcf` changes, all three are sent, `dcf` is committed only
when every write succeeded. -/
def Obligations.FlagRequestsRun : Prop :=
  ∀ (i : Instr) (mask : BitVec 3) (v : Bool) (d : BitVec 3) (s : State),
    (i = .display v ∧ mask = 0b100) ∨ (i = .cursor v ∧ mask = 0b010) ∨ (i = .blink v ∧ mask = 0b001) →
    d = (if v then s.regs.dcf ||| mask else s.regs.dcf &&& ~~~mask) → Ready s →
    (s.regs.isOpen = false → exec i s = .next (refusedWith s .notInitialized)) ∧
    (s.regs.isOpen = true →
      RunsAs i s (byteEvents s.regs.backlightOn (0b00001#5 ++ d) false) { s.regs with dcf := d } s.regs [] ∧
      (InStep s.obs → AnswersOk s 4 → ∃ t, exec i s = .next t ∧ InStep t.obs ∧ t.obs.disp = some d ∧
        t.obs.ddram = s.obs.ddram ∧ t.obs.cgram = s.obs.cgram ∧ t.obs.space = s.obs.space ∧ t.obs.ac = s.obs.ac))

/-- R176: BACKLIGHT_SET in full: the flag is kept even when its word fails; with the enable pin low nothing is latched. -/
def Obligations.BacklightSetRuns : Prop :=
  ∀ (v : Bool) (s : State), Ready s →
    (s.regs.isOpen = false → exec (.backlightSet v) s = .next (refusedWith s .notInitialized)) ∧
    (s.regs.isOpen = true →
      RunsAs (.backlightSet v) s [.wr (if v then 0x08 else 0x00) true]
        { s.regs with backlightOn := v } { s.regs with backlightOn := v } [] ∧
      ∀ p, s.obs.pins = some p → p.getLsbD 2 = false → AnswersOk s 1 →
        ∃ t, exec (.backlightSet v) s = .next t ∧ t.obs = { s.obs with pins := some (if v then 0x08 else 0x00) })

/-- R177, R178, R105: the two getters: no event but the response, nothing written. -/
def Obligations.GettersRead : Prop :=
  ∀ s : State, Ready s →
    (s.regs.isOpen = false → exec .backlightGet s = .next (refusedWith s .notInitialized) ∧
      exec .getDimensions s = .next (refusedWith s .notInitialized)) ∧
    (s.regs.isOpen = true →
      exec .backlightGet s = .next (completed s s.regs [] [if s.regs.backlightOn then 0x01 else 0x00]) ∧
      exec .getDimensions s = .next (completed s s.regs [] [s.regs.columns, s.regs.rows.setWidth 8]))

/-! ## Text and glyphs -/

/-- R190: PUT_CHAR in full. -/
def Obligations.PutCharRuns : Prop :=
  ∀ (ch : Byte) (s : State), Ready s →
    (s.regs.isOpen = false → exec (.putChar ch) s = .next (refusedWith s .notInitialized)) ∧
    (s.regs.isOpen = true →
      RunsAs (.putChar ch) s (byteEvents s.regs.backlightOn ch true) s.regs s.regs [])

/-- R191: PUT_STRING in full: the characters before a failing one are sent, none behind it. -/
def Obligations.PutStringRuns : Prop :=
  ∀ (text : List Byte) (s : State), Ready s →
    (s.regs.isOpen = false → exec (.putString text) s = .next (refusedWith s .notInitialized)) ∧
    (s.regs.isOpen = true →
      RunsAs (.putString text) s (bytesEvents s.regs.backlightOn text true) s.regs s.regs [])

/-- R192: CLEAR_LINE in full. -/
def Obligations.ClearLineRuns : Prop :=
  ∀ (line : Byte) (s : State), Ready s →
    (s.regs.isOpen = false → exec (.clearLine line) s = .next (refusedWith s .notInitialized)) ∧
    (s.regs.isOpen = true → s.regs.rows.toNat ≤ line.toNat ∨ s.regs.columns.toNat = 0 →
      exec (.clearLine line) s = .next (refusedWith s .outOfRange)) ∧
    (s.regs.isOpen = true → line.toNat < s.regs.rows.toNat → 0 < s.regs.columns.toNat →
      RunsAs (.clearLine line) s
        (byteEvents s.regs.backlightOn (0b1#1 ++ rowBaseAt s.regs.rowBase line.toNat) false ++
          bytesEvents s.regs.backlightOn (List.replicate s.regs.columns.toNat 0x20) true) s.regs s.regs [])

/-- R193: SET_LINE in full: exactly `columns` characters, cut or padded with spaces. -/
def Obligations.SetLineRuns : Prop :=
  ∀ (line : Byte) (text : List Byte) (s : State), Ready s →
    (s.regs.isOpen = false → exec (.setLine line text) s = .next (refusedWith s .notInitialized)) ∧
    (s.regs.isOpen = true → s.regs.rows.toNat ≤ line.toNat ∨ s.regs.columns.toNat = 0 →
      exec (.setLine line text) s = .next (refusedWith s .outOfRange)) ∧
    (s.regs.isOpen = true → line.toNat < s.regs.rows.toNat → 0 < s.regs.columns.toNat →
      RunsAs (.setLine line text) s
        (byteEvents s.regs.backlightOn (0b1#1 ++ rowBaseAt s.regs.rowBase line.toNat) false ++
          bytesEvents s.regs.backlightOn
            (text.take s.regs.columns.toNat ++ List.replicate (s.regs.columns.toNat - text.length) 0x20) true)
        s.regs s.regs [])

/-- R194: FORMATTED_WRITE is the PUT_STRING of the first `FMT_CAP - 1` characters, with no error for the cut. That the operand is
the text as it was rendered (log 22), and that `FMT_CAP` is a free constant from 1 to 256 (log 10), are the model's choices. -/
def Obligations.FormattedWriteRuns : Prop :=
  ∀ (text : List Byte) (s : State), Ready s →
    (s.regs.isOpen = false → exec (.formattedWrite text) s = .next (refusedWith s .notInitialized)) ∧
    (s.regs.isOpen = true →
      RunsAs (.formattedWrite text) s
        (bytesEvents s.regs.backlightOn (text.take (min text.length (Config.FMT_CAP - 1))) true) s.regs s.regs [])

/-- R195: CREATE_CUSTOM_CHAR in full, for the eight pattern bytes a packet has. That `exec`, asked with another number of
them, which no packet decodes to, sends what it is given is the model's choice (log 28). -/
def Obligations.CreateCustomCharRuns : Prop :=
  ∀ (slot : Byte) (pat : List Byte) (s : State), Ready s →
    (s.regs.isOpen = false → exec (.createCustomChar slot pat) s = .next (refusedWith s .notInitialized)) ∧
    (s.regs.isOpen = true → 7 < slot.toNat →
      exec (.createCustomChar slot pat) s = .next (refusedWith s .outOfRange)) ∧
    (s.regs.isOpen = true → slot.toNat ≤ 7 →
      RunsAs (.createCustomChar slot pat) s
        (byteEvents s.regs.backlightOn (0b01#2 ++ slot.extractLsb' 0 3 ++ 0b000#3) false ++
          bytesEvents s.regs.backlightOn pat true ++ byteEvents s.regs.backlightOn 0x80 false) s.regs s.regs [])

/-! ## Downstream: the expander and the controller -/

/-- R71, R72: the enable pin's fall latches the nibble, and two latched nibbles make a byte; nothing else latches. -/
def Obligations.LatchingAndAssembly : Prop :=
  (∀ (o : Observer) (w p : Byte), o.pins = some p →
    o.write w = { (if p.getLsbD 2 && !w.getLsbD 2 then o.latch (w.extractLsb' 4 4) (w.getLsbD 0) else o) with
      pins := some w }) ∧
  ∀ (o : Observer) (n h : Nibble) (rs : Bool), o.ifw = .w4 →
    (o.phase = some .hi → o.latch n rs = { o with phase := some (.lo n) }) ∧
    (o.phase = some (.lo h) → o.latch n rs = Observer.execByte (h ++ n) rs { o with phase := some .hi })

/-- R73: what each command byte does to a controller in step, by its highest set bit, and that it does nothing else. That a glyph
address is loaded with bit 6 of the counter zero, and that clear leaves `entry[0]`, are the model's readings (log 28). -/
def Obligations.CommandsActByHighestBit : Prop :=
  ∀ (bl : Bool) (b : Byte) (o : Observer), InStep o →
    ∀ u : Observer, u = { o with pins := some (xword (b.extractLsb' 0 4) false false bl) } →
    (b.getLsbD 7 = true → replay (byteEvents bl b false) o = { u with space := some .ddram, ac := some (b.extractLsb' 0 7) }) ∧
    (b.extractLsb' 6 2 = 0b01#2 →
      replay (byteEvents bl b false) o = { u with space := some .cgram, ac := some (0b0#1 ++ b.extractLsb' 0 6) }) ∧
    (b.extractLsb' 5 3 = 0b001#3 →
      replay (byteEvents bl b false) o =
        { u with func := some (b.extractLsb' 2 3), ifw := if b.getLsbD 4 then .w8 else .w4 }) ∧
    (b.extractLsb' 3 5 = 0b00001#5 →
      replay (byteEvents bl b false) o = { u with disp := some (b.extractLsb' 0 3) }) ∧
    (b.extractLsb' 2 6 = 0b000001#6 →
      replay (byteEvents bl b false) o = { u with entryId := some (b.getLsbD 1), entryS := some (b.getLsbD 0) }) ∧
    (b.extractLsb' 1 7 = 0b0000001#7 →
      replay (byteEvents bl b false) o = { u with space := some .ddram, ac := some 0 }) ∧
    (b = 0x01 → ∃ m, replay (byteEvents bl b false) o =
        { u with ddram := m, space := some .ddram, ac := some 0, entryId := some true } ∧
      ∀ a, a < 128 → Memory.read m a = some 0x20)

/-- R74: a data byte is stored at the address counter, which goes on by one; every other byte of both memories stays. The
model's choices in it: at 0x27 and 0x67 the counter wraps in two-line mode, and a byte at any other of R70's 128 display
addresses is stored like one in a cell (log 16); after every other address the counter goes on by one outside two-line mode
too (log 29); in glyph memory it goes on in seven bits, also past glyph address 63 (log 28); and the row runs also with no
request in progress (log 20). -/
def Obligations.DataIsStoredAtTheCounter : Prop :=
  ∀ (v : Byte) (a : Addr) (s : State), s.seq.resetAt = none → AnswersOk s 4 → InStep s.obs → s.obs.ac = some a →
    s.obs.entryId = some true →
    ∃ t, exec (.data v) s = .next t ∧ InStep t.obs ∧ t.obs.space = s.obs.space ∧
      (s.obs.space = some .ddram →
        ddramAt t a.toNat = some v ∧ (∀ k, k ≠ a.toNat → ddramAt t k = ddramAt s k) ∧ t.obs.cgram = s.obs.cgram ∧
        (a.toNat ≠ 0x27 → a.toNat ≠ 0x67 → t.obs.ac = some (a + 1)) ∧
        (∀ f, s.obs.func = some f → f.getLsbD 1 = true →
          (a.toNat = 0x27 → t.obs.ac = some 0x40) ∧ (a.toNat = 0x67 → t.obs.ac = some 0x00))) ∧
      (s.obs.space = some .cgram →
        cgramAt t (a.toNat % 64) = some v ∧ (∀ k, k ≠ a.toNat % 64 → cgramAt t k = cgramAt s k) ∧
        t.obs.ddram = s.obs.ddram ∧ t.obs.ac = some (a + 1))

/-- R161's property (spec/95_test_vectors.md A3): SET_CURSOR then PUT_CHAR stores the character at `row_base[row] + column`
and nowhere else, for every position of every size; at an address outside the two lines' cells this rests on log 16. -/
def Obligations.CharacterLandsAtTheCursor : Prop :=
  ∀ (column row ch : Byte) (a : Addr) (s : State), Ready s → s.regs.isOpen = true → SessionInv s.regs → InStep s.obs →
    s.obs.entryId = some true → AnswersOk s 8 →
    row.toNat < s.regs.rows.toNat → column.toNat < s.regs.columns.toNat →
    a.toNat = (rowBaseAt s.regs.rowBase row.toNat).toNat + column.toNat →
    ∃ t u, exec (.setCursor column row) s = .next t ∧ exec (.putChar ch) t = .next u ∧
      ddramAt u a.toNat = some ch ∧ (∀ k, k ≠ a.toNat → ddramAt u k = ddramAt s k) ∧ u.obs.cgram = s.obs.cgram ∧
      u.regs = s.regs

/-- R196: a string put at a display address fills the cells from there on, one after the other, and no other, as long as the
counter does not wrap on its way: at 0x27 and 0x67 (R74, log 16) or at the end of the address space. That it goes on by one
everywhere else, in two-line mode or not, is the model's choice (log 16, log 29). -/
def Obligations.StringRunsOnFromTheCounter : Prop :=
  ∀ (text : List Byte) (a : Addr) (s : State), Ready s → s.regs.isOpen = true → AtDisplay s.obs a →
    AnswersOk s (4 * text.length) →
    (a.toNat + text.length ≤ 0x28 ∨ (0x28 ≤ a.toNat ∧ a.toNat + text.length ≤ 0x68) ∨
      (0x68 ≤ a.toNat ∧ a.toNat + text.length ≤ 0x80)) →
    ∃ t, exec (.putString text) s = .next t ∧
      (∀ k, k < text.length → ddramAt t (a.toNat + k) = text[k]?) ∧
      (∀ b, b < a.toNat ∨ a.toNat + text.length ≤ b → ddramAt t b = ddramAt s b) ∧ t.obs.cgram = s.obs.cgram

/-- R193, R192: after SET_LINE every cell of the line holds the string's character or a space, and no other cell changes;
CLEAR_LINE does the same with spaces only. The line lies where the counter does not wrap inside it (R74, log 16); that it goes on by one
everywhere else, in two-line mode or not, is the model's choice (log 16, log 29). -/
def Obligations.LineIsOverwritten : Prop :=
  ∀ (line : Byte) (text : List Byte) (base : Nat) (s : State), Ready s → s.regs.isOpen = true → InStep s.obs →
    s.obs.entryId = some true → AnswersOk s (4 * (1 + s.regs.columns.toNat)) →
    line.toNat < s.regs.rows.toNat → 0 < s.regs.columns.toNat →
    base = (rowBaseAt s.regs.rowBase line.toNat).toNat →
    (base + s.regs.columns.toNat ≤ 0x28 ∨ (0x28 ≤ base ∧ base + s.regs.columns.toNat ≤ 0x68) ∨
      (0x68 ≤ base ∧ base + s.regs.columns.toNat ≤ 0x80)) →
    ∃ t u, exec (.setLine line text) s = .next t ∧ exec (.clearLine line) s = .next u ∧
      (∀ k, k < s.regs.columns.toNat → ddramAt t (base + k) = some (text.getD k 0x20) ∧ ddramAt u (base + k) = some 0x20) ∧
      (∀ b, b < base ∨ base + s.regs.columns.toNat ≤ b → ddramAt t b = ddramAt s b ∧ ddramAt u b = ddramAt s b) ∧
      t.obs.cgram = s.obs.cgram ∧ u.obs.cgram = s.obs.cgram

/-- R195, R253, R62: CREATE_CUSTOM_CHAR stores the eight pattern bytes in the slot's eight cells and nowhere else, and
leaves the controller at display address 0. -/
def Obligations.GlyphIsStored : Prop :=
  ∀ (slot : Byte) (pat : List Byte) (s : State), Ready s → s.regs.isOpen = true → InStep s.obs →
    s.obs.entryId = some true → AnswersOk s 40 → slot.toNat ≤ 7 → pat.length = 8 →
    ∃ t, exec (.createCustomChar slot pat) s = .next t ∧ InStep t.obs ∧
      (∀ k, k < 8 → cgramAt t (8 * slot.toNat + k) = pat[k]?) ∧
      (∀ b, b < 8 * slot.toNat ∨ 8 * slot.toNat + 8 ≤ b → cgramAt t b = cgramAt s b) ∧
      t.obs.ddram = s.obs.ddram ∧ t.obs.space = some .ddram ∧ t.obs.ac = some 0

/-- R76, first part, with R248: a bus write that fails, by any instruction that makes it first, leaves the pins at the word or
as they were, by the draw, and no other component of the observer known: the phase is lost, no byte of either memory is
kept. That all of it is unknown, not only what R76 names, is D16's reading (log 19). The model's choices: the set `PhaseLost`
(log 14), and that a micro-operation row runs, and answers WRITE_FAILED, with no request in progress (log 20). -/
def Obligations.FailedWriteLosesThePosition : Prop :=
  (∀ (w : Byte) (landed : Bool) (o : Observer),
    (o.failedWrite w landed).pins = (if landed then some w else o.pins) ∧
    o.failedWrite w landed = { Observer.unknown with pins := (o.failedWrite w landed).pins } ∧
    PhaseLost (o.failedWrite w landed)) ∧
  ∀ (i : Instr) (s t : State) (evs : List Event) (w : Byte), Ready s → exec i s = .next t →
    t.history = s.history ++ evs → .wr w false ∈ evs →
      PhaseLost t.obs ∧ (∀ a, ddramAt t a = none) ∧ (∀ a, cgramAt t a = none) ∧
      ∃ before, evs = before ++ [.wr w false, .rsp .writeFailed []] ∨ evs = before ++ [.wr w false, .close, .rsp .writeFailed []]

/-- R76, last part: once the phase is lost, no request on an open session brings it back, whatever the bus answers. The
set `PhaseLost` of such observers is the model's (log 14, log 19). -/
def Obligations.LostPhaseStaysLost : Prop :=
  ∀ (i : Instr) (s t : State), needsOpen i = true → Ready s → s.regs.isOpen = true → PhaseLost s.obs →
    exec i s = .next t → PhaseLost t.obs

/-! ## Invariants and rules of the whole machine -/

/-- R35, R81 and the bounds of R70: what holds between requests is kept by every step, with any packet, any answers of the
bus and any reset. -/
def Obligations.StepKeepsTheInvariant : Prop :=
  ∀ s t : State, Inv s → step s = .next t → Inv t

/-- The invariant holds after reset. -/
def Obligations.ResetMeetsTheInvariant : Prop := Inv State.reset ∧ BusInv State.reset

/-- R70, R81: the observer's bounds and canonical memories and the read/write pin are kept by every step, also in the middle
of a request. -/
def Obligations.StepKeepsTheBusInOrder : Prop :=
  ∀ s t : State, BusInv s → step s = .next t → BusInv t

/-- R20's table of writers, R35: which requests can change which register, when no reset comes. -/
def Obligations.OnlyOwnersWriteRegisters : Prop :=
  ∀ (i : Instr) (s t : State), Ready s → exec i s = .next t →
    (t.regs.isOpen ≠ s.regs.isOpen → createsSession i = true ∨ i = .teardown) ∧
    (t.regs.periphAddr ≠ s.regs.periphAddr ∨ t.regs.columns ≠ s.regs.columns ∨ t.regs.rows ≠ s.regs.rows ∨
      t.regs.rowBase ≠ s.regs.rowBase ∨ t.regs.emf ≠ s.regs.emf → createsSession i = true ∧ s.regs.isOpen = false) ∧
    (t.regs.dcf ≠ s.regs.dcf → (createsSession i = true ∧ s.regs.isOpen = false) ∨
      ∃ v, i = .display v ∨ i = .cursor v ∨ i = .blink v) ∧
    (t.regs.backlightOn ≠ s.regs.backlightOn → (createsSession i = true ∧ s.regs.isOpen = false) ∨
      ∃ v, i = .backlightSet v ∧ t.regs.backlightOn = v)

/-- R37: the registers a closed session holds cannot be seen: two states that differ only in them go on, through any step
of an idle block, to states that differ only in them, with the same history and the same display. -/
def Obligations.ClosedRegistersCannotBeSeen : Prop :=
  ∀ s s' t : State, SameButHidden s s' → s.seq.busy = false → step s = .next t →
    ∃ t', step s' = .next t' ∧ SameButHidden t t' ∧ t'.history = t.history ∧ t'.obs = t.obs

/-- R242: a reset in the middle of a request abandons it: no response, no further write, the session closed, the block idle,
no component of the expander or the controller known (U23). With `resetAt` it comes at that `upc` (log 6), and what was done before it is
the beginning of what the request would have done. -/
def Obligations.ResetAbandonsTheRequest : Prop :=
  (∀ (s : State) (rest : List HostMove), s.seq.busy = true → s.env.moves = .reset :: rest →
    ∃ t, step s = .next t ∧ t.history = s.history ∧ t.regs.isOpen = false ∧ t.seq = Sequencer.idle ∧
      t.obs = Observer.unknown) ∧
  ∀ (i : Instr) (s : State) (r : Nat), isRequest i = true → Ready s →
    ∃ t u evs, exec i { s with seq := { s.seq with resetAt := some r } } = .next t ∧ exec i s = .next u ∧
      t.history = s.history ++ evs ∧ evs <+: u.history.drop s.history.length ∧ t.seq = Sequencer.idle ∧
      (t = u ∨
        ((∀ e ∈ evs, Event.isRsp e = false) ∧ t.regs.isOpen = false ∧ t.obs = Observer.unknown)) ∧
      (r = 0 → evs = [] ∧ t.regs.isOpen = false ∧ t.obs = Observer.unknown)

/-- R33, R65: a request served in one step of the model and the same request stepped micro-operation by micro-operation,
its delays counted down, end in the same state. Both sizes of a step are the model's choice (log 5); this says that it is
harmless. -/
def Obligations.SteppingServesTheWholeRequest : Prop :=
  ∀ (i : Instr) (s t : State), isRequest i = true → s.seq.busy = false → NoReset s → exec i s = .next t →
    ∃ k, runSteps k (accept (some (heldRequest i)) (requestProgram i s) s) = .next t

/-- R252: bus writes and minimum delay of every request that answers OK, and of every micro-operation row, which runs also with
no request in progress by the model's choice (log 20). -/
def Obligations.WriteCountsAndMinimumDelays : Prop :=
  (∀ (i : Instr) (s t : State) (evs : List Event) (d : List Byte), isRequest i = true → WellFormed i = true → Ready s →
    exec i s = .next t → t.history = s.history ++ evs ++ [.rsp .ok d] →
      writeCount evs = (costOf i s).1 ∧ minDelay evs = (costOf i s).2) ∧
  ∀ (i : Instr) (s : State), isRequest i = false → s.seq.resetAt = none → AnswersOk s (costOf i s).1 →
    ∃ t evs, exec i s = .next t ∧ t.history = s.history ++ evs ∧
      writeCount evs = (costOf i s).1 ∧ minDelay evs = (costOf i s).2

/-- R55: a delay of n microseconds is at least n microseconds of cycles, rounded up, whatever the clock. The model's choices: one
cycle is one step of a busy block (log 5), and the event stands behind the last cycle only (log 12). -/
def Obligations.DelayLastsItsCycles : Prop :=
  (∀ n : Nat, n * Config.CLK_HZ ≤ Config.delayCycles n * 1000000 ∧
    Config.delayCycles n * 1000000 < n * Config.CLK_HZ + 1000000) ∧
  ∀ (s : State) (n : Nat) (ms : List Micro), s.seq.busy = true → NoReset s → s.seq.resetAt = none →
    s.seq.prog = .loadDelay n :: .waitDelay n :: ms →
    (∀ k, k ≤ Config.delayCycles n → ∃ t, runSteps (1 + k) s = .next t ∧ t.history = s.history ∧
      t.seq.delayCtr = Config.delayCycles n - k ∧ t.seq.upc = s.seq.upc ∧ t.seq.prog = .waitDelay n :: ms) ∧
    ∃ t, runSteps (2 + Config.delayCycles n) s = .next t ∧ t.history = s.history ++ [.dl n] ∧ t.seq.delayCtr = 0 ∧
      t.seq.upc = s.seq.upc + 1 ∧ t.seq.prog = ms

/-- R93, R95: every controller byte and every raw nibble a request can send with register-select 0. -/
def Obligations.ControllerBytesEverSent : Prop :=
  ∀ (i : Instr) (s : State) (m : Micro), m ∈ requestProgram i s →
    (∀ v, m = .cmd v → v = 0x01 ∨ v = 0x02 ∨ v = 0x06 ∨ (0x08 ≤ v.toNat ∧ v.toNat ≤ 0x0F) ∨ v = 0x28 ∨
      (∃ k, k < 8 ∧ v.toNat = 0x40 + 8 * k) ∨ 0x80 ≤ v.toNat) ∧
    (∀ n rs, m = .nib n rs → rs = false ∧ (n = 0x3 ∨ n = 0x2)) ∧ ∀ w, m ≠ .word w
end

