-- ==== Sys2Proof/Laws/Decode.lean ====
section
/-! SUPPORT. The laws of bit fields, expander words and encodings. -/

namespace Sys2Proof

/-! ## Expander words (spec/30_encoding.md R80 to R83) -/

@[simp] theorem xword_rw (n : Nibble) (rs en bl : Bool) : (xword n rs en bl).getLsbD 1 = false := by
  revert n rs en bl; decide

@[simp] theorem xword_rs (n : Nibble) (rs en bl : Bool) : (xword n rs en bl).getLsbD 0 = rs := by
  revert n rs en bl; decide

@[simp] theorem xword_en (n : Nibble) (rs en bl : Bool) : (xword n rs en bl).getLsbD 2 = en := by
  revert n rs en bl; decide

@[simp] theorem xword_bl (n : Nibble) (rs en bl : Bool) : (xword n rs en bl).getLsbD 3 = bl := by
  revert n rs en bl; decide

@[simp] theorem highNibble_xword (n : Nibble) (rs en bl : Bool) : highNibble (xword n rs en bl) = n := by
  revert n rs en bl; decide

/-- The enable bit ored into a word with enable low. -/
@[simp] theorem xword_or_en (n : Nibble) (rs bl : Bool) :
    xword n rs false bl ||| Config.XW_EN = xword n rs true bl := by
  revert n rs bl; decide

/-- The two halves of a byte make the byte (R127 (a)). -/
@[simp] theorem high_append_low (v : Byte) : (highNibble v ++ lowNibble v : BitVec 8) = v := by
  revert v; decide +kernel

/-- A word is determined by its bits. -/
theorem xword_of_bits (w : Byte) (h : w.getLsbD 1 = false) :
    xword (highNibble w) (w.getLsbD 0) (w.getLsbD 2) (w.getLsbD 3) = w := by
  revert w; decide +kernel

/-! ## The opcode map (R100) -/

/-- No two rows of the opcode map read the same opcode byte. -/
theorem opcodeMap_rows_disjoint :
    opcodeMap.Pairwise fun x y => ∀ b : Byte, ¬ (x.reads b = true ∧ y.reads b = true) := by
  decide +kernel

/-- The length byte of a string that fits it. -/
theorem lenByte_toNat (s : List Byte) (h : s.length ≤ 255) : (lenByte s).toNat = s.length := by
  simp [lenByte]; omega

/-- What FORMATTED_WRITE sends always fits a length byte (spec/44_text_ops.md R194; log 10). -/
theorem cutText_length_le (t : List Byte) : (cutText t).length ≤ 255 := by
  have h : Config.fmtRoom.toNat < 2 ^ 8 := Config.fmtRoom.isLt
  simp only [cutText, Config.FMT_CAP, List.length_take]
  omega

/-! ## Controller bytes (R85 to R91) -/

@[simp] theorem decodeLcd_setDdram (a : Addr) : decodeLcd (Machine.setDdramCommand a) = .setDdram a := by
  revert a; decide +kernel

@[simp] theorem decodeLcd_displayCommand (d : BitVec 3) : decodeLcd (Machine.displayCommand d) = .display d := by
  revert d; decide

@[simp] theorem decodeLcd_clear : decodeLcd Config.CMD_CLEAR = .clear := by decide
@[simp] theorem decodeLcd_home : decodeLcd Config.CMD_HOME = .home := by decide
@[simp] theorem decodeLcd_functionSet : decodeLcd Config.FUNCTION_SET = .function 0b010 := by decide
@[simp] theorem decodeLcd_entry : decodeLcd (Machine.entryCommand Config.FLAG_ID) = .entry true false := by decide

/-- A slot's set-address command, for the eight slots (R90). -/
theorem decodeLcd_setCgram (slot : Byte) (h : slot.toNat ≤ 7) :
    decodeLcd (Machine.setCgramCommand slot) = .setCgram (slot.setWidth 6 <<< 3) := by
  revert slot; decide +kernel

end Sys2Proof
end

