-- ==== Sys2Proof/Laws/Memory.lean ====
section
/-! SUPPORT. The laws of the controller's memories: reading after writing, and that every operation keeps the
canonical form and the bounds. -/

namespace Sys2Proof.Machine

@[simp] theorem Memory.read_nil (k : Nat) : Memory.read [] k = none := rfl

theorem Memory.read_write_same (m : List Host.Cell) (k : Nat) (v : Byte) :
    Memory.read (Memory.write m k v) k = some v := by
  induction m with
  | nil => simp [Memory.write, Memory.read]
  | cons c m ih =>
    obtain ⟨a, x⟩ := c
    simp only [Memory.write]
    split
    · simp [Memory.read]
    · split
      · simp [Memory.read]
      · rename_i h1 h2
        simp only [Memory.read, if_neg (Ne.symm h2), ih]

theorem Memory.read_write_of_ne (m : List Host.Cell) {k j : Nat} (v : Byte) (h : j ≠ k) :
    Memory.read (Memory.write m k v) j = Memory.read m j := by
  induction m with
  | nil => simp [Memory.write, Memory.read, Ne.symm h, Memory.unlisted]
  | cons c m ih =>
    obtain ⟨a, x⟩ := c
    simp only [Memory.write]
    split
    · simp [Memory.read, Ne.symm h]
    · split
      · rename_i h1 h2
        subst h2
        simp [Memory.read, Ne.symm h]
      · simp only [Memory.read, ih]

/-- Reading after a write: the value at the address written, what was there elsewhere. -/
theorem Memory.read_write (m : List Host.Cell) (k j : Nat) (v : Byte) :
    Memory.read (Memory.write m k v) j = if j = k then some v else Memory.read m j := by
  split
  · rename_i h; subst h; exact Memory.read_write_same m j v
  · rename_i h; exact Memory.read_write_of_ne m v h

theorem Memory.read_eq_none_of_not_mem (m : List Host.Cell) (k : Nat) (h : k ∉ m.map Prod.fst) :
    Memory.read m k = none := by
  induction m with
  | nil => rfl
  | cons c m ih =>
    obtain ⟨a, x⟩ := c
    simp only [List.map_cons, List.mem_cons, not_or] at h
    simp [Memory.read, Ne.symm h.1, ih h.2]

theorem Memory.read_map_range (f : Nat → Byte) (l : List Nat) (k : Nat) :
    Memory.read (l.map fun a => (a, f a)) k = if k ∈ l then some (f k) else none := by
  induction l with
  | nil => rfl
  | cons a l ih =>
    simp only [List.map_cons, Memory.read, ih, List.mem_cons]
    by_cases h : a = k
    · subst h; simp
    · simp [h, Ne.symm h]

theorem Memory.read_fill (n : Nat) (v : Byte) (k : Nat) :
    Memory.read (Memory.fill n v) k = if k < n then some v else none := by
  simp [Memory.fill, Memory.read_map_range (fun _ => v)]

/-! ## The canonical form -/

theorem Memory.mem_write {m : List Host.Cell} {k : Nat} {v : Byte} {c : Host.Cell}
    (h : c ∈ Memory.write m k v) : c = (k, v) ∨ c ∈ m := by
  induction m with
  | nil => simpa [Memory.write] using h
  | cons d m ih =>
    obtain ⟨a, x⟩ := d
    simp only [Memory.write] at h
    split at h
    · simpa using h
    · split at h
      · simp only [List.mem_cons] at h ⊢; tauto
      · simp only [List.mem_cons] at h ⊢
        rcases h with h | h
        · tauto
        · rcases ih h with h | h <;> tauto

theorem Memory.wf_nil : Memory.wf [] := by simp [Memory.wf]

theorem Memory.wf_cons_iff (a : Nat) (x : Byte) (m : List Host.Cell) :
    Memory.wf ((a, x) :: m) ↔ (∀ c ∈ m, a < c.1) ∧ Memory.wf m := by
  simp [Memory.wf, List.pairwise_cons]

theorem Memory.wf_write {m : List Host.Cell} (h : Memory.wf m) (k : Nat) (v : Byte) :
    Memory.wf (Memory.write m k v) := by
  induction m with
  | nil => simp [Memory.write, Memory.wf]
  | cons c m ih =>
    obtain ⟨a, x⟩ := c
    rw [Memory.wf_cons_iff] at h
    simp only [Memory.write]
    split
    · rename_i hk
      rw [Memory.wf_cons_iff, Memory.wf_cons_iff]
      refine ⟨?_, h⟩
      intro c hc
      rcases List.mem_cons.1 hc with rfl | hc
      · exact hk
      · exact lt_trans hk (h.1 c hc)
    · split
      · rename_i hk; subst hk
        rw [Memory.wf_cons_iff]; exact h
      · rename_i h1 h2
        rw [Memory.wf_cons_iff]
        refine ⟨?_, ih h.2⟩
        intro c hc
        rcases Memory.mem_write hc with rfl | hc
        · show a < k
          omega
        · exact h.1 c hc

theorem Memory.wf_fill (n : Nat) (v : Byte) : Memory.wf (Memory.fill n v) := by
  have : (Memory.fill n v).map Prod.fst = List.range n := by simp [Memory.fill, Function.comp_def]
  rw [Memory.wf, this]
  exact List.pairwise_lt_range

/-- A bound on the listed addresses. -/
theorem Memory.bound_write {m : List Host.Cell} {b k : Nat} {v : Byte} (h : ∀ c ∈ m, c.1 < b) (hk : k < b) :
    ∀ c ∈ Memory.write m k v, c.1 < b := by
  intro c hc
  rcases Memory.mem_write hc with rfl | hc
  · exact hk
  · exact h c hc

theorem Memory.bound_fill (n : Nat) (v : Byte) : ∀ c ∈ Memory.fill n v, c.1 < n := by
  intro c hc
  simp only [Memory.fill, List.mem_map, List.mem_range] at hc
  obtain ⟨a, ha, rfl⟩ := hc
  exact ha

end Sys2Proof.Machine
end

