-- ==== Sys2Proof/Laws/Observer.lean ====
section
/-! SUPPORT. The laws of the downstream observer: what a nibble transfer and a byte transfer do to it, and that every
reaction keeps its invariant. -/

namespace Sys2Proof

open Machine

/-! ## Histories -/

@[simp] theorem replay_nil (o : Observer) : replay [] o = o := rfl

@[simp] theorem replay_cons (e : Event) (evs : List Event) (o : Observer) :
    replay (e :: evs) o = replay evs (observeEvent o e) := rfl

theorem replay_append (a b : List Event) (o : Observer) : replay (a ++ b) o = replay b (replay a o) := by
  simp [replay, List.foldl_append]

@[simp] theorem observeEvent_wr (o : Observer) (w : Byte) (ok : Bool) : observeEvent o (.wr w ok) = o.write w := rfl
@[simp] theorem observeEvent_dl (o : Observer) (n : Nat) : observeEvent o (.dl n) = o := rfl
@[simp] theorem observeEvent_busOpen (o : Observer) (a : Addr) (ok : Bool) : observeEvent o (.busOpen a ok) = o := rfl
@[simp] theorem observeEvent_close (o : Observer) : observeEvent o .close = o := rfl
@[simp] theorem observeEvent_rsp (o : Observer) (st : Status) (d : List Byte) : observeEvent o (.rsp st d) = o := rfl

@[simp] theorem drawCount_nil : drawCount [] = 0 := rfl
theorem drawCount_append (a b : List Event) : drawCount (a ++ b) = drawCount a + drawCount b := by
  simp [drawCount]
@[simp] theorem writeCount_nil : writeCount [] = 0 := rfl
theorem writeCount_append (a b : List Event) : writeCount (a ++ b) = writeCount a + writeCount b := by
  simp [writeCount]
@[simp] theorem minDelay_nil : minDelay [] = 0 := rfl
theorem minDelay_append (a b : List Event) : minDelay (a ++ b) = minDelay a + minDelay b := by
  simp [minDelay]

@[simp] theorem responses_nil : responses [] = [] := rfl
theorem responses_append (a b : List Event) : responses (a ++ b) = responses a ++ responses b := by
  simp [responses]
@[simp] theorem responses_rsp (st : Status) (d : List Byte) : responses [.rsp st d] = [responsePacket st d] := rfl

/-- Events that are no response hand the host no packet. -/
theorem responses_eq_nil {evs : List Event} (h : ∀ e ∈ evs, Event.isRsp e = false) : responses evs = [] := by
  simp only [responses, List.filterMap_eq_nil_iff]
  intro e he
  have := h e he
  cases e <;> simp_all [Event.isRsp, Event.packet]

@[simp] theorem drawCount_nibEvents (bl : Bool) (n : Nibble) (rs : Bool) : drawCount (nibEvents bl n rs) = 2 := rfl
@[simp] theorem drawCount_byteEvents (bl : Bool) (v : Byte) (rs : Bool) : drawCount (byteEvents bl v rs) = 4 := rfl
@[simp] theorem writeCount_byteEvents (bl : Bool) (v : Byte) (rs : Bool) : writeCount (byteEvents bl v rs) = 4 := rfl
@[simp] theorem minDelay_byteEvents (bl : Bool) (v : Byte) (rs : Bool) : minDelay (byteEvents bl v rs) = 102 := rfl

@[simp] theorem bytesEvents_nil (bl rs : Bool) : bytesEvents bl [] rs = [] := rfl
theorem bytesEvents_cons (bl : Bool) (v : Byte) (vs : List Byte) (rs : Bool) :
    bytesEvents bl (v :: vs) rs = byteEvents bl v rs ++ bytesEvents bl vs rs := rfl

theorem drawCount_bytesEvents (bl : Bool) (vs : List Byte) (rs : Bool) :
    drawCount (bytesEvents bl vs rs) = 4 * vs.length := by
  induction vs with
  | nil => rfl
  | cons v vs ih => simp [bytesEvents_cons, drawCount_append, ih]; omega

/-! ## The pins -/

@[simp] theorem Observer.write_pins (o : Observer) (w : Byte) : (o.write w).pins = some w := by
  simp [Observer.write]

/-- A word with enable high latches nothing. -/
theorem Observer.write_enHigh (o : Observer) (w : Byte) (h : w.getLsbD 2 = true) :
    o.write w = { o with pins := some w } := by
  simp only [Observer.write, h]
  cases o.pins <;> simp

/-- A word with enable low over pins with enable low latches nothing (R60). -/
theorem Observer.write_enLow (o : Observer) (w : Byte) {p : Byte} (hp : o.pins = some p)
    (h : p.getLsbD 2 = false) : o.write w = { o with pins := some w } := by
  have h' : p[2] = false := h
  simp [Observer.write, hp, h']

/-- Executing a byte does not look at the pins. -/
theorem Observer.execByte_pins (o : Observer) (v : Byte) (rs : Bool) (q : Option Byte) :
    Observer.execByte v rs { o with pins := q } = { o.execByte v rs with pins := q } := by
  cases rs with
  | true =>
    rcases o with ⟨pins, ifw, phase, _ | sp, _ | a, _⟩
    · rfl
    · rfl
    · cases sp <;> rfl
    · cases sp <;> rfl
  | false =>
    simp only [Observer.execByte, Observer.execCommand, Bool.false_eq_true, if_false]
    cases decodeLcd v <;> rfl

/-- The latch does not look at the pins. -/
theorem Observer.latch_pins (o : Observer) (n : Nibble) (rs : Bool) (q : Option Byte) :
    Observer.latch n rs { o with pins := q } = { o.latch n rs with pins := q } := by
  rcases o with ⟨pins, _ | _ | _, _ | _ | h, space, ac, ddram, cgram, disp, ei, es, func⟩
  case w4.some.lo => exact Observer.execByte_pins ⟨pins, .w4, some .hi, _, _, _, _, _, _, _, _⟩ (h ++ n) rs q
  case w4.some.hi => rfl
  all_goals
    cases rs
    all_goals
      simp only [Observer.latch, Observer.blurData, Observer.blurCommand, Observer.blurRegisters]
      first
        | rfl
        | (simp only [Bool.false_eq_true, if_false]
           split
           · rfl
           · split <;> rfl)

/-- A nibble transfer: the controller latches the nibble, the pins hold the word with enable low (R71, R121). -/
theorem replay_nibEvents (bl : Bool) (n : Nibble) (rs : Bool) (o : Observer) :
    replay (nibEvents bl n rs) o = { o.latch n rs with pins := some (xword n rs false bl) } := by
  simp only [nibEvents, replay_cons, observeEvent_wr, observeEvent_dl, replay_nil]
  rw [Observer.write_enHigh o _ (by simp)]
  simp only [Observer.write, xword_en, Bool.not_false, Bool.and_self, if_true, highNibble_xword, xword_rs]
  rw [Observer.latch_pins]

/-- Two latches in 4-bit width, the first of them a high half, execute the byte (R72). -/
theorem Observer.latch_latch (o : Observer) (v : Byte) (rs : Bool) (q : Option Byte)
    (h4 : o.ifw = .w4) (hh : o.phase = some .hi) :
    Observer.latch (lowNibble v) rs { o.latch (highNibble v) rs with pins := q }
      = Observer.execByte v rs { o with pins := q } := by
  have h1 : o.latch (highNibble v) rs = { o with phase := some (.lo (highNibble v)) } := by
    simp [Observer.latch, h4, hh]
  rw [h1]
  simp only [Observer.latch, h4, high_append_low]
  congr 1
  cases o
  simp_all

/-- A byte transfer to a controller in step executes the byte (R72). -/
theorem replay_byteEvents (bl : Bool) (v : Byte) (rs : Bool) (o : Observer)
    (h4 : o.ifw = .w4) (hh : o.phase = some .hi) :
    replay (byteEvents bl v rs) o
      = { o.execByte v rs with pins := some (xword (lowNibble v) rs false bl) } := by
  rw [byteEvents, replay_append, replay_nibEvents, replay_nibEvents,
    Observer.latch_latch o v rs _ h4 hh, Observer.execByte_pins]

/-- A data byte leaves the interface in step. -/
theorem Observer.execData_ifw (o : Observer) (v : Byte) : (o.execData v).ifw = o.ifw := by
  simp only [Observer.execData]
  split <;> rfl

theorem Observer.execData_phase (o : Observer) (v : Byte) : (o.execData v).phase = o.phase := by
  simp only [Observer.execData]
  split <;> rfl

/-- A data byte at a known display address: stored there, the counter goes on (R74). -/
theorem Observer.execData_ddram {o : Observer} (v : Byte) {a : Addr} (hs : o.space = some .ddram) (ha : o.ac = some a) :
    o.execData v = { o with ddram := Memory.write o.ddram a.toNat v, ac := o.nextDdram a } := by
  simp [Observer.execData, hs, ha]

/-- A data byte at a known glyph address: stored there, the counter goes on (R74). -/
theorem Observer.execData_cgram {o : Observer} (v : Byte) {a : Addr} (hs : o.space = some .cgram) (ha : o.ac = some a) :
    o.execData v = { o with cgram := Memory.write o.cgram (cgramIndex a) v, ac := o.nextCgram a } := by
  simp [Observer.execData, hs, ha]

/-! ## The invariant of the observer -/

/-- The part of the invariant that is about the memories. -/
def MemoriesInv (o : Observer) : Prop :=
  Memory.wf o.ddram ∧ (∀ c ∈ o.ddram, c.1 < 128) ∧ Memory.wf o.cgram ∧ (∀ c ∈ o.cgram, c.1 < 64)

theorem observerInv_iff (o : Observer) :
    ObserverInv o ↔ MemoriesInv o ∧ ∀ p, o.pins = some p → p.getLsbD 1 = false := by
  simp only [ObserverInv, MemoriesInv]; tauto

theorem memoriesInv_congr {o o' : Observer} (hd : o'.ddram = o.ddram) (hc : o'.cgram = o.cgram)
    (h : MemoriesInv o) : MemoriesInv o' := by
  simpa only [MemoriesInv, hd, hc] using h

theorem memoriesInv_ddram {o o' : Observer} (hw : Memory.wf o'.ddram) (hb : ∀ c ∈ o'.ddram, c.1 < 128)
    (hc : o'.cgram = o.cgram) (h : MemoriesInv o) : MemoriesInv o' :=
  ⟨hw, hb, hc ▸ h.2.2.1, hc ▸ h.2.2.2⟩

theorem memoriesInv_cgram {o o' : Observer} (hw : Memory.wf o'.cgram) (hb : ∀ c ∈ o'.cgram, c.1 < 64)
    (hd : o'.ddram = o.ddram) (h : MemoriesInv o) : MemoriesInv o' :=
  ⟨hd ▸ h.1, hd ▸ h.2.1, hw, hb⟩

theorem wf_forgetAll : Memory.wf Memory.forgetAll := Memory.wf_nil
theorem bound_forgetAll (b : Nat) : ∀ c ∈ Memory.forgetAll, c.1 < b := by simp [Memory.forgetAll]

theorem cgramIndex_lt (a : Addr) : cgramIndex a < 64 := (a.extractLsb' 0 6).isLt

theorem memoriesInv_execData {o : Observer} (v : Byte) (h : MemoriesInv o) : MemoriesInv (o.execData v) := by
  simp only [Observer.execData]
  split
  · rename_i a _ _
    exact memoriesInv_ddram (o := o) (Memory.wf_write h.1 _ _) (Memory.bound_write h.2.1 a.isLt) rfl h
  · rename_i a _ _
    exact memoriesInv_cgram (o := o) (Memory.wf_write h.2.2.1 _ _) (Memory.bound_write h.2.2.2 (cgramIndex_lt a)) rfl h
  · exact memoriesInv_ddram (o := o) wf_forgetAll (bound_forgetAll _) rfl h
  · exact memoriesInv_cgram (o := o) wf_forgetAll (bound_forgetAll _) rfl h
  · exact ⟨wf_forgetAll, bound_forgetAll _, wf_forgetAll, bound_forgetAll _⟩

theorem memoriesInv_execCommand {o : Observer} (b : Byte) (h : MemoriesInv o) :
    MemoriesInv (o.execCommand b) := by
  simp only [Observer.execCommand]
  split
  all_goals first
    | exact memoriesInv_congr rfl rfl h
    | exact memoriesInv_ddram (o := o) (Memory.wf_fill _ _) (Memory.bound_fill _ _) rfl h

theorem memoriesInv_execByte {o : Observer} (b : Byte) (rs : Bool) (h : MemoriesInv o) :
    MemoriesInv (o.execByte b rs) := by
  cases rs
  · exact memoriesInv_execCommand b h
  · exact memoriesInv_execData b h

theorem memoriesInv_blurCommand {o : Observer} (n : Nibble) (h : MemoriesInv o) :
    MemoriesInv (o.blurCommand n) := by
  simp only [Observer.blurCommand]
  split
  · exact memoriesInv_ddram (o := o) wf_forgetAll (bound_forgetAll _) rfl h
  · exact memoriesInv_congr rfl rfl h

theorem memoriesInv_blurData (o : Observer) : MemoriesInv o.blurData :=
  ⟨wf_forgetAll, bound_forgetAll _, wf_forgetAll, bound_forgetAll _⟩

theorem memoriesInv_latch {o : Observer} (n : Nibble) (rs : Bool) (h : MemoriesInv o) :
    MemoriesInv (o.latch n rs) := by
  simp only [Observer.latch]
  have hc := memoriesInv_blurCommand n h
  have hd := memoriesInv_blurData o
  split
  · split
    · exact memoriesInv_congr rfl rfl h
    · exact memoriesInv_execByte _ _ (memoriesInv_congr (o := o) rfl rfl h)
    · split
      · exact hd
      · exact memoriesInv_congr rfl rfl hc
  · split
    · exact hd
    · split
      · exact hc
      · split <;> exact memoriesInv_congr rfl rfl hc
  · split
    · exact memoriesInv_congr rfl rfl hd
    · exact memoriesInv_congr rfl rfl hc

/-- A bus write keeps the memories' form. -/
theorem memoriesInv_write {o : Observer} (w : Byte) (h : MemoriesInv o) : MemoriesInv (o.write w) := by
  have hm : MemoriesInv (o.mayLatch (highNibble w) (w.getLsbD 0)) := by
    simp only [Observer.mayLatch]
    split
    · exact memoriesInv_congr rfl rfl (memoriesInv_blurData o)
    · exact memoriesInv_congr rfl rfl (memoriesInv_blurCommand _ h)
  simp only [Observer.write]
  refine memoriesInv_congr (o := _) rfl rfl ?_
  split
  · split
    · exact memoriesInv_latch _ _ h
    · exact h
  · split
    · exact h
    · exact hm

/-- A successful write of a word whose read/write bit is 0 keeps the observer's invariant. -/
theorem observerInv_write {o : Observer} (w : Byte) (hw : w.getLsbD 1 = false) (h : ObserverInv o) :
    ObserverInv (o.write w) := by
  rw [observerInv_iff] at h ⊢
  refine ⟨memoriesInv_write w h.1, ?_⟩
  intro p hp
  rw [Observer.write_pins] at hp
  cases hp
  exact hw

/-- The observer of which nothing is known meets it. -/
theorem observerInv_unknown : ObserverInv Observer.unknown := by
  simp [ObserverInv, Observer.unknown, Memory.wf]

/-- A failed write of such a word keeps it too. -/
theorem observerInv_failedWrite {o : Observer} (w : Byte) (landed : Bool) (hw : w.getLsbD 1 = false)
    (h : ObserverInv o) : ObserverInv (o.failedWrite w landed) := by
  refine ⟨observerInv_unknown.1, observerInv_unknown.2.1, observerInv_unknown.2.2.1, observerInv_unknown.2.2.2.1, ?_⟩
  intro p hp
  cases landed
  · exact h.2.2.2.2 p hp
  · cases hp; exact hw

/-- An abandoned request leaves one that meets it. -/
theorem observerInv_abandoned (o : Observer) : ObserverInv o.abandoned := observerInv_unknown

/-- After a failed write the nibble phase is lost, whatever it was (R76, R248). -/
theorem phaseLost_failedWrite (o : Observer) (w : Byte) (landed : Bool) : PhaseLost (o.failedWrite w landed) :=
  ⟨rfl, .inr (.inl rfl)⟩

end Sys2Proof
end

