-- ==== Sys2Proof/Laws/State.lean ====
section
/-! SUPPORT. What each named update of the state leaves in each part of it: one lemma per part and update, true by rfl. -/

namespace Sys2Proof.Machine

@[simp] theorem State.emit_regs (e : Event) (s : State) : (s.emit e).regs = s.regs := rfl
@[simp] theorem State.emit_seq (e : Event) (s : State) : (s.emit e).seq = s.seq := rfl
@[simp] theorem State.emit_env (e : Event) (s : State) : (s.emit e).env = s.env := rfl
@[simp] theorem State.emit_history (e : Event) (s : State) : (s.emit e).history = s.history ++ [e] := rfl
@[simp] theorem State.emit_obs (e : Event) (s : State) : (s.emit e).obs = s.obs := rfl

@[simp] theorem State.advance_regs (s : State) : (s.advance).regs = s.regs := rfl
@[simp] theorem State.advance_seq (s : State) : (s.advance).seq = { s.seq with upc := s.seq.upc + 1 } := rfl
@[simp] theorem State.advance_env (s : State) : (s.advance).env = s.env := rfl
@[simp] theorem State.advance_history (s : State) : (s.advance).history = s.history := rfl
@[simp] theorem State.advance_obs (s : State) : (s.advance).obs = s.obs := rfl

@[simp] theorem State.drawn_regs (s : State) : (s.drawn).regs = s.regs := rfl
@[simp] theorem State.drawn_seq (s : State) : (s.drawn).seq = s.seq := rfl
@[simp] theorem State.drawn_env (s : State) : (s.drawn).env = { s.env with draws := s.env.draws + 1 } := rfl
@[simp] theorem State.drawn_history (s : State) : (s.drawn).history = s.history := rfl
@[simp] theorem State.drawn_obs (s : State) : (s.drawn).obs = s.obs := rfl

@[simp] theorem State.observe_regs (f : Observer → Observer) (s : State) : (s.observe f).regs = s.regs := rfl
@[simp] theorem State.observe_seq (f : Observer → Observer) (s : State) : (s.observe f).seq = s.seq := rfl
@[simp] theorem State.observe_env (f : Observer → Observer) (s : State) : (s.observe f).env = s.env := rfl
@[simp] theorem State.observe_history (f : Observer → Observer) (s : State) : (s.observe f).history = s.history := rfl
@[simp] theorem State.observe_obs (f : Observer → Observer) (s : State) : (s.observe f).obs = f s.obs := rfl

@[simp] theorem State.setReg_regs (w : RegWrite) (s : State) : (s.setReg w).regs = s.regs.write w := rfl
@[simp] theorem State.setReg_seq (w : RegWrite) (s : State) : (s.setReg w).seq = s.seq := rfl
@[simp] theorem State.setReg_env (w : RegWrite) (s : State) : (s.setReg w).env = s.env := rfl
@[simp] theorem State.setReg_history (w : RegWrite) (s : State) : (s.setReg w).history = s.history := rfl
@[simp] theorem State.setReg_obs (w : RegWrite) (s : State) : (s.setReg w).obs = s.obs := rfl

@[simp] theorem respond_regs (st : Status) (d : List Byte) (s : State) : (respond st d s).regs = s.regs := rfl
@[simp] theorem respond_seq (st : Status) (d : List Byte) (s : State) : (respond st d s).seq = Sequencer.idle := rfl
@[simp] theorem respond_env (st : Status) (d : List Byte) (s : State) : (respond st d s).env = s.env := rfl
@[simp] theorem respond_history (st : Status) (d : List Byte) (s : State) : (respond st d s).history = s.history ++ [.rsp st d] := rfl
@[simp] theorem respond_obs (st : Status) (d : List Byte) (s : State) : (respond st d s).obs = s.obs := rfl

@[simp] theorem hardwareReset_regs (s : State) : (hardwareReset s).regs = Session.reset := rfl
@[simp] theorem hardwareReset_seq (s : State) : (hardwareReset s).seq = Sequencer.idle := rfl
@[simp] theorem hardwareReset_env (s : State) : (hardwareReset s).env = s.env := rfl
@[simp] theorem hardwareReset_history (s : State) : (hardwareReset s).history = s.history := rfl
@[simp] theorem hardwareReset_obs (s : State) : (hardwareReset s).obs = s.obs := rfl

@[simp] theorem abandon_regs (s : State) : (abandon s).regs = Session.reset := rfl
@[simp] theorem abandon_seq (s : State) : (abandon s).seq = Sequencer.idle := rfl
@[simp] theorem abandon_env (s : State) : (abandon s).env = s.env := rfl
@[simp] theorem abandon_history (s : State) : (abandon s).history = s.history := rfl
@[simp] theorem abandon_obs (s : State) : (abandon s).obs = s.obs.abandoned := rfl

@[simp] theorem accept_regs (i : Option Instr) (ms : List Micro) (s : State) : (accept i ms s).regs = s.regs := rfl
@[simp] theorem accept_seq (i : Option Instr) (ms : List Micro) (s : State) : (accept i ms s).seq = { s.seq with busy := true, upc := 0, delayCtr := 0, request := i, prog := ms } := rfl
@[simp] theorem accept_env (i : Option Instr) (ms : List Micro) (s : State) : (accept i ms s).env = s.env := rfl
@[simp] theorem accept_history (i : Option Instr) (ms : List Micro) (s : State) : (accept i ms s).history = s.history := rfl
@[simp] theorem accept_obs (i : Option Instr) (ms : List Micro) (s : State) : (accept i ms s).obs = s.obs := rfl

/-! ## A register write, register by register -/

@[simp] theorem Session.write_isOpen (r : Session) (v : Bool) : r.write (.isOpen v) = { r with isOpen := v } := rfl
@[simp] theorem Session.write_periphAddr (r : Session) (v : Addr) : r.write (.periphAddr v) = { r with periphAddr := v } := rfl
@[simp] theorem Session.write_columns (r : Session) (v : Byte) : r.write (.columns v) = { r with columns := v } := rfl
@[simp] theorem Session.write_rows (r : Session) (v : BitVec 3) : r.write (.rows v) = { r with rows := v } := rfl
@[simp] theorem Session.write_rowBase (r : Session) (v : RowBase) : r.write (.rowBase v) = { r with rowBase := v } := rfl
@[simp] theorem Session.write_dcf (r : Session) (v : BitVec 3) : r.write (.dcf v) = { r with dcf := v } := rfl
@[simp] theorem Session.write_emf (r : Session) (v : BitVec 2) : r.write (.emf v) = { r with emf := v } := rfl
@[simp] theorem Session.write_backlightOn (r : Session) (v : Bool) : r.write (.backlightOn v) = { r with backlightOn := v } := rfl

/-! ## Flows -/

@[simp] theorem Flow.andThen_go (s : State) (f : State → Flow) : (Flow.go s).andThen f = f s := rfl
@[simp] theorem Flow.andThen_done (s : State) (f : State → Flow) : (Flow.done s).andThen f = .done s := rfl
@[simp] theorem Flow.state_go (s : State) : (Flow.go s).state = s := rfl
@[simp] theorem Flow.state_done (s : State) : (Flow.done s).state = s := rfl

theorem Flow.andThen_assoc (x : Flow) (f g : State → Flow) :
    (x.andThen f).andThen g = x.andThen fun s => (f s).andThen g := by
  cases x <;> rfl

@[simp] theorem Checked.andThen_ok {α β : Type} (a : α) (f : α → Checked β) : (Checked.ok a).andThen f = f a := rfl
@[simp] theorem Checked.andThen_err {α β : Type} (e : Status) (f : α → Checked β) :
    (Checked.err e).andThen f = .err e := rfl
@[simp] theorem Checked.program_ok (ms : List Micro) : (Checked.ok ms).program = ms := rfl
@[simp] theorem Checked.program_err (e : Status) : (Checked.err e : Checked (List Micro)).program = [.raise e] := rfl

@[simp] theorem require_true (e : Status) : require true e = .ok () := rfl
@[simp] theorem require_false (e : Status) : require false e = .err e := rfl

/-! ## The idle sequencer -/

@[simp] theorem Sequencer.idle_busy : Sequencer.idle.busy = false := rfl
@[simp] theorem Sequencer.idle_upc : Sequencer.idle.upc = 0 := rfl
@[simp] theorem Sequencer.idle_delayCtr : Sequencer.idle.delayCtr = 0 := rfl
@[simp] theorem Sequencer.idle_request : Sequencer.idle.request = none := rfl
@[simp] theorem Sequencer.idle_prog : Sequencer.idle.prog = [] := rfl
@[simp] theorem Sequencer.idle_resetAt : Sequencer.idle.resetAt = none := rfl

/-- Every raise ends the request: the sequencer is idle. -/
@[simp] theorem raise_seq (e : Status) (s : State) : (raise e s).seq = Sequencer.idle := by
  cases e <;> rfl

/-- A raise other than WRITE_FAILED does nothing but respond. -/
theorem raise_eq_respond (e : Status) (h : e ≠ .writeFailed) (s : State) : raise e s = respond e [] s := by
  cases e <;> first | rfl | exact absurd rfl h

@[simp] theorem raise_env (e : Status) (s : State) : (raise e s).env = s.env := by
  cases e <;> simp [raise, State.onWriteFailed]
  split <;> rfl

@[simp] theorem raise_obs (e : Status) (s : State) : (raise e s).obs = s.obs := by
  cases e <;> simp [raise, State.onWriteFailed]
  split <;> rfl

end Sys2Proof.Machine
end

