-- ==== Sys2Proof/Laws/Ops.lean ====
section
/-! SUPPORT. The laws of the bus primitive, the delays and the micro-operations: all each of them can do, and what it does
when the bus answers `ok`. -/

namespace Sys2Proof

open Machine

/-! ## All each operation can do -/

theorem unlessReset_none {s : State} (f : State → Flow) (h : s.seq.resetAt = none) :
    unlessReset s f = f s := by
  simp [unlessReset, h]

/-- All a bus write can do: a reset, a success, a failure (spec/20_memory.md R51, R242). -/
theorem busWrite_cases (w : Byte) (s : State) :
    (s.seq.resetAt = some s.seq.upc ∧ busWrite w s = .done (abandon s)) ∨
    (s.answer = .ok ∧ busWrite w s = .go ((s.emit (.wr w true)).drawn.advance.observe (Observer.write w))) ∨
    (∃ landed, s.answer = .fail landed ∧ busWrite w s =
      .done (raise .writeFailed ((s.emit (.wr w false)).drawn.observe (Observer.failedWrite w landed)))) := by
  unfold busWrite unlessReset
  by_cases h : s.seq.resetAt = some s.seq.upc
  · simp [h]
  · right
    simp only [if_neg h]
    cases ha : s.answer with
    | ok => exact .inl ⟨rfl, rfl⟩
    | fail landed => exact .inr ⟨landed, rfl, rfl⟩

/-- All `BusOpen` can do (R50, R211, R242). -/
theorem busOpen_cases (a : Addr) (s : State) :
    (s.seq.resetAt = some s.seq.upc ∧ Machine.busOpen a s = .done (abandon s)) ∨
    (s.answer = .ok ∧ Machine.busOpen a s = .go (s.emit (.busOpen a true)).drawn.advance) ∨
    (∃ landed, s.answer = .fail landed ∧ Machine.busOpen a s =
      .done (respond .peripheralUnreachable [] (s.emit (.busOpen a false)).drawn)) := by
  unfold Machine.busOpen unlessReset
  by_cases h : s.seq.resetAt = some s.seq.upc
  · simp [h]
  · right
    simp only [if_neg h]
    cases ha : s.answer with
    | ok => exact .inl ⟨rfl, rfl⟩
    | fail landed => exact .inr ⟨landed, rfl, rfl⟩

/-- All a `Delay` can do: a reset, or its event with the counter run down (R55, R242). -/
theorem delay_cases (n : Nat) (s : State) :
    (s.seq.resetAt = some s.seq.upc ∧ ∃ t, delay n s = .done (abandon t) ∧ t.regs = s.regs ∧ t.env = s.env ∧
      t.history = s.history ∧ t.obs = s.obs) ∨
    (delay n s =
      .go (({ s with seq := { s.seq with delayCtr := 0 } } : State).advance.emit (.dl n))) := by
  unfold delay Machine.loadDelay unlessReset
  by_cases h : s.seq.resetAt = some s.seq.upc
  · exact .inl ⟨h, s, by simp [h], rfl, rfl, rfl, rfl⟩
  · right
    simp only [if_neg h, Flow.andThen_go, Machine.waitDelay, unlessReset]

/-! ## Progress: what a stretch of a micro-program does when the bus answers `ok` -/

/-- `t` is `s` after the events `evs`, every one a success, with the registers `r`. -/
structure Progress (s t : State) (r : Session) (evs : List Event) : Prop where
  regs : t.regs = r
  resetAt : t.seq.resetAt = s.seq.resetAt
  request : t.seq.request = s.seq.request
  env : t.env = { s.env with draws := s.env.draws + drawCount evs }
  history : t.history = s.history ++ evs
  obs : t.obs = replay evs s.obs

theorem Progress.refl (s : State) : Progress s s s.regs [] :=
  ⟨rfl, rfl, rfl, by simp, by simp, rfl⟩

theorem Progress.trans {s t u : State} {r r' : Session} {a b : List Event}
    (h : Progress s t r a) (k : Progress t u r' b) : Progress s u r' (a ++ b) where
  regs := k.regs
  resetAt := k.resetAt.trans h.resetAt
  request := k.request.trans h.request
  env := by rw [k.env, h.env]; simp [drawCount_append, Nat.add_assoc]
  history := by rw [k.history, h.history, List.append_assoc]
  obs := by rw [k.obs, h.obs, replay_append]

theorem AnswersOk.mono {s : State} {n m : Nat} (h : AnswersOk s n) (hm : m ≤ n) : AnswersOk s m :=
  fun j hj => h j (Nat.lt_of_lt_of_le hj hm)

theorem AnswersOk.first {s : State} {n : Nat} (h : AnswersOk s n) (hn : 0 < n) : s.answer = .ok := by
  simpa [State.answer] using h 0 hn

/-- The answer to draw `j` after a stretch is the answer to draw `drawCount evs + j` before it. -/
theorem Progress.answerAt {s t : State} {r : Session} {evs : List Event} (h : Progress s t r evs) (j : Nat) :
    t.answerAt (t.env.draws + j) = s.answerAt (s.env.draws + (drawCount evs + j)) := by
  simp [State.answerAt, h.env, Nat.add_assoc]

/-- The answers left after a stretch. -/
theorem Progress.answersOk {s t : State} {r : Session} {evs : List Event} (h : Progress s t r evs) {n : Nat}
    (ha : AnswersOk s (drawCount evs + n)) : AnswersOk t n := by
  intro j hj
  rw [h.answerAt]
  exact ha _ (by omega)

/-- A bus write answered `ok`. -/
theorem busWrite_ok {s : State} (w : Byte) (hr : s.seq.resetAt = none) (ha : s.answer = .ok) :
    ∃ t, busWrite w s = .go t ∧ Progress s t s.regs [.wr w true] := by
  refine ⟨(s.emit (.wr w true)).drawn.advance.observe (Observer.write w), ?_, ?_⟩
  · simp [busWrite, unlessReset_none _ hr, ha]
  · exact ⟨rfl, rfl, rfl, rfl, rfl, rfl⟩

/-- A delay without a reset. -/
theorem delay_ok {s : State} (n : Nat) (hr : s.seq.resetAt = none) :
    ∃ t, delay n s = .go t ∧ Progress s t s.regs [.dl n] := by
  refine ⟨({ s with seq := { s.seq with delayCtr := 0 } } : State).advance.emit (.dl n), ?_, ?_⟩
  · simp [delay, Machine.loadDelay, Machine.waitDelay, unlessReset, hr]
  · exact ⟨rfl, rfl, rfl, rfl, rfl, rfl⟩

/-- A nibble transfer answered `ok` twice (R121). -/
theorem nibOp_ok {s : State} (n : Nibble) (rs : Bool) (hr : s.seq.resetAt = none) (ha : AnswersOk s 2) :
    ∃ t, nibOp n rs s = .go t ∧ Progress s t s.regs (nibEvents s.regs.backlightOn n rs) := by
  obtain ⟨t1, h1, p1⟩ := busWrite_ok (xword n rs true s.regs.backlightOn) hr (ha.first (by omega))
  have r1 : t1.seq.resetAt = none := p1.resetAt.trans hr
  obtain ⟨t2, h2, p2⟩ := delay_ok Config.T_EN r1
  have q2 := p1.trans p2
  have r2 : t2.seq.resetAt = none := q2.resetAt.trans hr
  have a2 : AnswersOk t2 1 := q2.answersOk (ha.mono (Nat.le_refl 2))
  obtain ⟨t3, h3, p3⟩ := busWrite_ok (xword n rs false s.regs.backlightOn) r2 (a2.first (by omega))
  have r3 : t3.seq.resetAt = none := p3.resetAt.trans r2
  obtain ⟨t4, h4, p4⟩ := delay_ok Config.T_CMD r3
  refine ⟨t4, ?_, ?_⟩
  · simp only [nibOp, xword_or_en, h1, h2, h3, h4, Flow.andThen_go]
  · have q := (q2.trans p3).trans p4
    have hregs : t3.regs = s.regs := p3.regs.trans (p2.regs.trans p1.regs)
    rw [hregs] at q
    exact q

/-- A byte transfer answered `ok` four times (R122). -/
theorem byteOp_ok {s : State} (v : Byte) (rs : Bool) (hr : s.seq.resetAt = none) (ha : AnswersOk s 4) :
    ∃ t, byteOp v rs s = .go t ∧ Progress s t s.regs (byteEvents s.regs.backlightOn v rs) := by
  obtain ⟨t1, h1, p1⟩ := nibOp_ok (highNibble v) rs hr (ha.mono (by omega))
  have r1 : t1.seq.resetAt = none := p1.resetAt.trans hr
  have a1 : AnswersOk t1 2 := p1.answersOk (ha.mono (by simp))
  obtain ⟨t2, h2, p2⟩ := nibOp_ok (lowNibble v) rs r1 a1
  refine ⟨t2, ?_, ?_⟩
  · simp only [byteOp, h1, h2, Flow.andThen_go]
  · have q := p1.trans p2
    rw [p1.regs] at q
    exact q

/-! ## Micro-operations that go on -/

/-- Neither a raise nor a response: the request goes on behind it. -/
def Micro.goesOn : Micro → Bool
  | .raise _ | .respond _ => false
  | .busOpen _ | .busClose | .word _ | .raw | .nib _ _ | .cmd _ | .data _ | .loadDelay _ | .waitDelay _ | .set _ => true

/-- What a micro-operation leaves in the registers when it succeeds. -/
def Micro.regsAfter (m : Micro) (r : Session) : Session :=
  match m with
  | .set w => r.write w
  | .busOpen _ | .busClose | .word _ | .raw | .nib _ _ | .cmd _ | .data _ | .loadDelay _ | .waitDelay _ | .raise _
  | .respond _ => r

/-- What a micro-program leaves in the registers when it succeeds. -/
def regsAfterAll (ms : List Micro) (r : Session) : Session := ms.foldl (fun r m => Micro.regsAfter m r) r

/-- The events of a micro-program when it succeeds, the registers followed from `r`. -/
def eventsFrom : Session → List Micro → List Event
  | _, [] => []
  | r, m :: ms => microEvents r.backlightOn m ++ eventsFrom (Micro.regsAfter m r) ms

/-- A micro-operation that goes on, every answer `ok`. -/
theorem micro_ok (m : Micro) (hm : Micro.goesOn m = true) {s : State} (hr : s.seq.resetAt = none)
    (ha : AnswersOk s (drawCount (microEvents s.regs.backlightOn m))) :
    ∃ t, m.run s = .go t ∧ Progress s t (Micro.regsAfter m s.regs) (microEvents s.regs.backlightOn m) := by
  cases m with
  | raise e => simp [Micro.goesOn] at hm
  | respond d => simp [Micro.goesOn] at hm
  | busOpen a =>
    refine ⟨(s.emit (.busOpen a true)).drawn.advance, ?_, ⟨rfl, rfl, rfl, rfl, rfl, rfl⟩⟩
    have h : s.answer = .ok := ha.first (by show 0 < 1; omega)
    simp [Micro.run, Machine.busOpen, unlessReset_none _ hr, h]
  | busClose =>
    exact ⟨(s.emit .close).advance, by simp [Micro.run, Machine.busClose, unlessReset_none _ hr],
      ⟨rfl, rfl, rfl, rfl, rfl, rfl⟩⟩
  | word w => exact busWrite_ok w hr (ha.first (by show 0 < 1; omega))
  | raw => exact busWrite_ok _ hr (ha.first (by show 0 < 1; omega))
  | nib n rs => exact nibOp_ok n rs hr ha
  | cmd v => exact byteOp_ok v false hr ha
  | data v => exact byteOp_ok v true hr ha
  | loadDelay n =>
    exact ⟨{ s with seq := { s.seq with delayCtr := Config.delayCycles n } },
      by simp [Micro.run, Machine.loadDelay, unlessReset_none _ hr],
      ⟨rfl, rfl, rfl, rfl, (List.append_nil _).symm, rfl⟩⟩
  | waitDelay n =>
    exact ⟨({ s with seq := { s.seq with delayCtr := 0 } } : State).advance.emit (.dl n),
      by simp [Micro.run, Machine.waitDelay, unlessReset_none _ hr],
      ⟨rfl, rfl, rfl, rfl, rfl, rfl⟩⟩
  | set w =>
    exact ⟨(s.setReg w).advance, by simp [Micro.run, setOp, unlessReset_none _ hr],
      ⟨rfl, rfl, rfl, rfl, (List.append_nil _).symm, rfl⟩⟩

/-! ## Micro-programs -/

theorem runAll_append (a b : List Micro) (s : State) :
    runAll (a ++ b) s = (runAll a s).andThen (runAll b) := by
  induction a generalizing s with
  | nil => rfl
  | cons m ms ih =>
    simp only [List.cons_append, runAll]
    cases m.run s with
    | go t => simp [ih]
    | done t => rfl

/-- A stretch of a micro-program that goes on, every answer `ok`. -/
theorem runAll_ok (ms : List Micro) (hm : ∀ m ∈ ms, Micro.goesOn m = true) {s : State}
    (hr : s.seq.resetAt = none) (ha : AnswersOk s (drawCount (eventsFrom s.regs ms))) :
    ∃ t, runAll ms s = .go t ∧ Progress s t (regsAfterAll ms s.regs) (eventsFrom s.regs ms) := by
  induction ms generalizing s with
  | nil => exact ⟨s, rfl, Progress.refl s⟩
  | cons m ms ih =>
    rw [eventsFrom, drawCount_append] at ha
    obtain ⟨t, h1, p1⟩ := micro_ok m (hm m (List.mem_cons_self ..)) hr (ha.mono (by omega))
    have ha' : AnswersOk t (drawCount (eventsFrom t.regs ms)) := by
      rw [p1.regs]; exact p1.answersOk ha
    obtain ⟨u, h2, p2⟩ := ih (fun k hk => hm k (List.mem_cons_of_mem _ hk)) (p1.resetAt.trans hr) ha'
    refine ⟨u, by simp [runAll, h1, h2], ?_⟩
    have q := p1.trans p2
    rw [p1.regs] at q
    exact q

/-- A request whose micro-program goes on to its response, every answer `ok`, completes (R103, R214). -/
theorem serve_ok (i : Option Instr) (ms : List Micro) (d : List Byte) {s : State} (h : Ready s)
    (hm : ∀ m ∈ ms, Micro.goesOn m = true) (ha : AnswersOk s (drawCount (eventsFrom s.regs ms))) :
    serve i (.ok (ms ++ [.respond d])) s
      = .next (completed s (regsAfterAll ms s.regs) (eventsFrom s.regs ms) d) := by
  have hb : s.seq.busy = false := by rw [h]; rfl
  have hr : (accept i (ms ++ [.respond d]) s).seq.resetAt = none := by
    show s.seq.resetAt = none
    rw [h]; rfl
  obtain ⟨t, h1, p⟩ := runAll_ok ms hm (s := accept i (ms ++ [.respond d]) s) hr ha
  have hres : t.seq.resetAt = none := p.resetAt.trans hr
  simp only [serve, hb, Bool.false_eq_true, if_false, Checked.program_ok, runAll_append, h1, Flow.andThen_go,
    runAll, Micro.run, unlessReset_none _ hres, Flow.andThen_done, Flow.state_done]
  congr 1
  have e1 := p.regs; have e2 := p.env; have e3 := p.history; have e4 := p.obs
  simp only [accept_regs, accept_env, accept_history, accept_obs] at e1 e2 e3 e4
  simp [respond, State.emit, completed, e1, e2, e3, e4]

/-- A request whose checks raise an error does nothing but respond (spec/60_exceptions.md R214, R217, R218). -/
theorem serve_err (i : Option Instr) (e : Status) {s : State} (h : Ready s) (he : e ≠ .writeFailed) :
    serve i (.err e) s = .next (refusedWith s e) := by
  have hb : s.seq.busy = false := by rw [h]; rfl
  have hr : (accept i [.raise e] s).seq.resetAt = none := by
    show s.seq.resetAt = none
    rw [h]; rfl
  simp only [serve, hb, Bool.false_eq_true, if_false, Checked.program_err, runAll, Micro.run,
    unlessReset_none _ hr, Flow.andThen_done, Flow.state_done, raise_eq_respond e he]
  rfl

end Sys2Proof
end

