-- ==== Sys2Proof/Laws/Failure.lean ====
section
/-! SUPPORT. The laws of a request that meets a failed bus write: where it ends and what it leaves (spec/20_memory.md R76,
spec/40_signal_and_byte.md R125). -/

namespace Sys2Proof

open Machine

/-- `t` is the state in which WRITE_FAILED is raised: `s` after the events `before` and the failed write of `w`. -/
structure Broken (s t : State) (r : Session) (before : List Event) (w : Byte) (landed : Bool) : Prop where
  regs : t.regs = r
  request : t.seq.request = s.seq.request
  env : t.env = { s.env with draws := s.env.draws + drawCount before + 1 }
  history : t.history = s.history ++ before ++ [.wr w false]
  obs : t.obs = Observer.failedWrite w landed (replay before s.obs)

theorem Progress.broken {s t u : State} {r r' : Session} {a b : List Event} {w : Byte} {landed : Bool}
    (h : Progress s t r a) (k : Broken t u r' b w landed) : Broken s u r' (a ++ b) w landed where
  regs := k.regs
  request := k.request.trans h.request
  env := by rw [k.env, h.env]; simp [drawCount_append, Nat.add_assoc]
  history := by rw [k.history, h.history]; simp
  obs := by rw [k.obs, h.obs, replay_append]

/-- The answers behind a stretch, when the first failure lies behind it. -/
theorem Progress.failsFirstAt {s t : State} {r : Session} {evs : List Event} (h : Progress s t r evs) {j : Nat}
    {landed : Bool} (hf : FailsFirstAt s (drawCount evs + j) landed) : FailsFirstAt t j landed :=
  ⟨h.answersOk hf.1, (h.answerAt j).trans hf.2⟩

theorem FailsFirstAt.first {s : State} {landed : Bool} (h : FailsFirstAt s 0 landed) : s.answer = .fail landed := by
  simpa [State.answer] using h.2

/-- A bus write answered `fail`. -/
theorem busWrite_fail {s : State} (w : Byte) {landed : Bool} (hr : s.seq.resetAt = none) (ha : s.answer = .fail landed) :
    ∃ t, busWrite w s = .done (raise .writeFailed t) ∧ Broken s t s.regs [] w landed := by
  refine ⟨(s.emit (.wr w false)).drawn.observe (Observer.failedWrite w landed), ?_, ?_⟩
  · simp [busWrite, unlessReset_none _ hr, ha]
  · exact ⟨rfl, rfl, rfl, by simp, rfl⟩

/-- Where a split around a write falls in a history of two parts. -/
theorem append_eq_split {a b before rest : List Event} {e : Event} (h : a ++ b = before ++ e :: rest) :
    (∃ rest', a = before ++ e :: rest') ∨ (∃ before', before = a ++ before' ∧ b = before' ++ e :: rest) := by
  rcases List.append_eq_append_iff.1 h with ⟨c, hc1, hc2⟩ | ⟨c, hc1, hc2⟩
  · exact .inr ⟨c, hc1, hc2⟩
  · cases c with
    | nil => exact .inr ⟨[], by simpa using hc1.symm, by simpa using hc2.symm⟩
    | cons x c =>
      simp only [List.cons_append, List.cons.injEq] at hc2
      exact .inl ⟨c, by rw [hc1, hc2.1]⟩

/-- The two places where a nibble transfer can break. -/
theorem nibEvents_split {bl : Bool} {n : Nibble} {rs : Bool} {before rest : List Event} {w : Byte}
    (h : nibEvents bl n rs = before ++ .wr w true :: rest) :
    (before = [] ∧ w = xword n rs true bl) ∨
    (before = [.wr (xword n rs true bl) true, .dl 1] ∧ w = xword n rs false bl) := by
  unfold nibEvents at h
  rcases before with _ | ⟨a, _ | ⟨b, _ | ⟨c, _ | ⟨d, _ | ⟨e, l⟩⟩⟩⟩⟩ <;> simp_all

/-- A nibble transfer with a failed write. -/
theorem nibOp_fail {s : State} (n : Nibble) (rs : Bool) {before rest : List Event} {w : Byte} {landed : Bool}
    (hr : s.seq.resetAt = none) (he : nibEvents s.regs.backlightOn n rs = before ++ .wr w true :: rest)
    (hf : FailsFirstAt s (drawCount before) landed) :
    ∃ t, nibOp n rs s = .done (raise .writeFailed t) ∧ Broken s t s.regs before w landed := by
  rcases nibEvents_split he with ⟨rfl, rfl⟩ | ⟨rfl, rfl⟩
  · obtain ⟨t, h, b⟩ := busWrite_fail (xword n rs true s.regs.backlightOn) hr hf.first
    exact ⟨t, by simp [nibOp, h], b⟩
  · obtain ⟨t1, h1, p1⟩ := busWrite_ok (xword n rs true s.regs.backlightOn) hr (hf.1.first (by show 0 < 1; omega))
    have r1 : t1.seq.resetAt = none := p1.resetAt.trans hr
    obtain ⟨t2, h2, p2⟩ := delay_ok Config.T_EN r1
    have q2 := p1.trans p2
    have r2 : t2.seq.resetAt = none := q2.resetAt.trans hr
    have f2 : FailsFirstAt t2 0 landed := q2.failsFirstAt hf
    obtain ⟨t, h3, b⟩ := busWrite_fail (xword n rs false s.regs.backlightOn) r2 f2.first
    refine ⟨t, by simp [nibOp, h1, h2, h3], ?_⟩
    have q := q2.broken b
    rw [p2.regs, p1.regs] at q
    exact q

/-- A byte transfer with a failed write. -/
theorem byteOp_fail {s : State} (v : Byte) (rs : Bool) {before rest : List Event} {w : Byte} {landed : Bool}
    (hr : s.seq.resetAt = none) (he : byteEvents s.regs.backlightOn v rs = before ++ .wr w true :: rest)
    (hf : FailsFirstAt s (drawCount before) landed) :
    ∃ t, byteOp v rs s = .done (raise .writeFailed t) ∧ Broken s t s.regs before w landed := by
  rcases append_eq_split he with ⟨rest', h⟩ | ⟨before', rfl, h⟩
  · obtain ⟨t, h1, b⟩ := nibOp_fail (highNibble v) rs hr h hf
    exact ⟨t, by simp [byteOp, h1], b⟩
  · rw [drawCount_append] at hf
    obtain ⟨t1, h1, p1⟩ := nibOp_ok (highNibble v) rs hr (hf.1.mono (Nat.le_add_right _ _))
    have r1 : t1.seq.resetAt = none := p1.resetAt.trans hr
    have f1 : FailsFirstAt t1 (drawCount before') landed := p1.failsFirstAt hf
    rw [← p1.regs] at h
    obtain ⟨t, h2, b⟩ := nibOp_fail (lowNibble v) rs r1 h f1
    refine ⟨t, by simp [byteOp, h1, h2], ?_⟩
    have q := p1.broken b
    rwa [p1.regs] at q

/-- A single event is the write it is split at. -/
theorem singleton_split {w' w : Byte} {before rest : List Event} (h : [Event.wr w' true] = before ++ .wr w true :: rest) :
    before = [] ∧ w = w' := by
  rcases before with _ | ⟨a, _ | ⟨b, l⟩⟩ <;> simp_all

/-- A micro-operation with a failed write. -/
theorem micro_fail (m : Micro) {s : State} {before rest : List Event} {w : Byte} {landed : Bool}
    (hr : s.seq.resetAt = none) (he : microEvents s.regs.backlightOn m = before ++ .wr w true :: rest)
    (hf : FailsFirstAt s (drawCount before) landed) :
    ∃ t, m.run s = .done (raise .writeFailed t) ∧ Broken s t s.regs before w landed := by
  cases m with
  | word w' =>
    obtain ⟨rfl, rfl⟩ := singleton_split he
    exact busWrite_fail _ hr hf.first
  | raw =>
    obtain ⟨rfl, rfl⟩ := singleton_split he
    exact busWrite_fail _ hr hf.first
  | nib n rs => exact nibOp_fail n rs hr he hf
  | cmd v => exact byteOp_fail v false hr he hf
  | data v => exact byteOp_fail v true hr he hf
  | busOpen a => rcases before with _ | ⟨a, _ | ⟨b, l⟩⟩ <;> simp [microEvents] at he
  | busClose => rcases before with _ | ⟨a, _ | ⟨b, l⟩⟩ <;> simp [microEvents] at he
  | loadDelay n => simp [microEvents] at he
  | waitDelay n => rcases before with _ | ⟨a, _ | ⟨b, l⟩⟩ <;> simp [microEvents] at he
  | set x => simp [microEvents] at he
  | raise e => rcases before with _ | ⟨a, _ | ⟨b, l⟩⟩ <;> simp [microEvents] at he
  | respond d => rcases before with _ | ⟨a, _ | ⟨b, l⟩⟩ <;> simp [microEvents] at he

/-- A micro-program with a failed write: it ends inside the micro-operation `m` that makes the write, with the registers
the operations `pre` before it have left. -/
theorem runAll_fail (ms : List Micro) (hm : ∀ m ∈ ms, Micro.goesOn m = true) {s : State} {before rest : List Event}
    {w : Byte} {landed : Bool} (hr : s.seq.resetAt = none)
    (he : eventsFrom s.regs ms = before ++ .wr w true :: rest) (hf : FailsFirstAt s (drawCount before) landed) :
    ∃ t pre m post, runAll ms s = .done (raise .writeFailed t) ∧ ms = pre ++ m :: post ∧
      (∃ b c, microEvents (regsAfterAll pre s.regs).backlightOn m = b ++ .wr w true :: c ∧
        before = eventsFrom s.regs pre ++ b) ∧
      Broken s t (regsAfterAll pre s.regs) before w landed := by
  induction ms generalizing s before with
  | nil => simp [eventsFrom] at he
  | cons m ms ih =>
    rw [eventsFrom] at he
    rcases append_eq_split he with ⟨rest', h⟩ | ⟨before', rfl, h⟩
    · obtain ⟨t, h1, b⟩ := micro_fail m hr h hf
      exact ⟨t, [], m, ms, by simp [runAll, h1], rfl, ⟨before, rest', h, rfl⟩, b⟩
    · rw [drawCount_append] at hf
      obtain ⟨t1, h1, p1⟩ := micro_ok m (hm m (List.mem_cons_self ..)) hr (hf.1.mono (Nat.le_add_right _ _))
      rw [← p1.regs] at h
      obtain ⟨t, pre, m', post, h2, rfl, ⟨b, c, hb, rfl⟩, k⟩ := ih (fun k hk => hm k (List.mem_cons_of_mem _ hk))
        (p1.resetAt.trans hr) h (p1.failsFirstAt hf)
      refine ⟨t, m :: pre, m', post, by simp [runAll, h1, h2], rfl, ⟨b, c, ?_, ?_⟩, ?_⟩
      · rw [p1.regs] at hb; exact hb
      · rw [p1.regs]; simp [eventsFrom]
      · have q := p1.broken k
        rw [p1.regs] at q ⊢
        exact q

/-- The state a raise of WRITE_FAILED leaves, when the request in progress is not an INIT. -/
theorem raise_broken {s t : State} {r : Session} {before : List Event} {w : Byte} {landed : Bool}
    (h : Broken s t r before w landed) (hi : holdsInit s = false) :
    raise .writeFailed t = failedAfter s r before w landed [] := by
  have e : t.onWriteFailed = t := by
    unfold State.onWriteFailed
    rw [h.request]
    unfold holdsInit at hi
    split <;> simp_all
  simp [raise, e, respond, State.emit, failedAfter, h.regs, h.env, h.history, h.obs]

/-- The state a raise of WRITE_FAILED leaves inside INIT (spec/41_init_lifecycle.md R145). -/
theorem raise_broken_init {s t : State} {r : Session} {before : List Event} {w : Byte} {landed : Bool}
    (h : Broken s t r before w landed) (hi : holdsInit s = true) :
    raise .writeFailed t = failedAfter s { r with isOpen := false } before w landed [.close] := by
  have e : t.onWriteFailed = (t.emit .close).setReg (.isOpen false) := by
    unfold State.onWriteFailed
    rw [h.request]
    unfold holdsInit at hi
    split <;> simp_all
  simp [raise, e, respond, State.emit, State.setReg, failedAfter, h.regs, h.env, h.history, h.obs]

/-- A request, not an INIT, that meets a failed write (R125, R214). -/
theorem serve_fail (i : Option Instr) (ms : List Micro) (d : List Byte) {s : State} (h : Ready s)
    (hi : ∀ a c x y, i ≠ some (.init a c x y))
    (hm : ∀ m ∈ ms, Micro.goesOn m = true) {before rest : List Event} {w : Byte} {landed : Bool}
    (he : eventsFrom s.regs ms = before ++ .wr w true :: rest) (hf : FailsFirstAt s (drawCount before) landed) :
    ∃ pre m post b c, ms = pre ++ m :: post ∧
      microEvents (regsAfterAll pre s.regs).backlightOn m = b ++ .wr w true :: c ∧
      serve i (.ok (ms ++ [.respond d])) s = .next (failedAfter s (regsAfterAll pre s.regs) before w landed []) := by
  have hb : s.seq.busy = false := by rw [h]; rfl
  have hr : (accept i (ms ++ [.respond d]) s).seq.resetAt = none := by
    show s.seq.resetAt = none
    rw [h]; rfl
  obtain ⟨t, pre, m, post, h1, h2, ⟨b, c, h3, -⟩, k⟩ :=
    runAll_fail ms hm (s := accept i (ms ++ [.respond d]) s) hr he hf
  have hh : holdsInit (accept i (ms ++ [.respond d]) s) = false := by
    unfold holdsInit
    split
    · rename_i a c x y hq
      exact absurd hq (hi a c x y)
    · rfl
  refine ⟨pre, m, post, b, c, h2, h3, ?_⟩
  simp only [serve, hb, Bool.false_eq_true, if_false, Checked.program_ok, runAll_append, h1, Flow.andThen_done,
    Flow.state_done, raise_broken k hh]
  rfl

end Sys2Proof
end

