-- ==== Sys2Proof/Laws/Operands.lean ====
section
/-! SUPPORT. The laws of the checks and of the operand functions: when each gives a value, which one, and when an error. -/

namespace Sys2Proof

open Machine

/-! ## Checks -/

theorem requireOpen_open {s : State} (h : s.regs.isOpen = true) : requireOpen s = .ok () := by simp [requireOpen, h]

theorem requireOpen_closed {s : State} (h : s.regs.isOpen = false) : requireOpen s = .err .notInitialized := by
  simp [requireOpen, h]

/-- Inside both bounds the decoder adds (spec/42_addressing.md R160). -/
theorem addr_inside {s : State} {c r : Byte} (h1 : r.toNat < s.regs.rows.toNat) (h2 : c.toNat < s.regs.columns.toNat) :
    addr s c r = .ok (rowBaseAt s.regs.rowBase r.toNat + c.setWidth 7) := by
  unfold addr
  rw [if_neg (by simpa using h1), if_neg (by simpa using h2)]
  congr 1
  apply BitVec.eq_of_toNat_eq
  simp [BitVec.toNat_add]

/-- Outside either bound it raises. -/
theorem addr_outside {s : State} {c r : Byte} (h : s.regs.rows.toNat ≤ r.toNat ∨ s.regs.columns.toNat ≤ c.toNat) :
    addr s c r = .err .outOfRange := by
  unfold addr
  split
  · rfl
  · split
    · rfl
    · omega

/-- What WF_CFG says of a size (spec/10_state.md R23). -/
theorem geometryWf_iff (g : Geometry) : geometryWf g = true ↔
    (0 < g.columns.toNat ∧ 0 < g.rows.toNat ∧ g.rows.toNat ≤ 4 ∧
      ∀ r, r < g.rows.toNat → (rowBaseAt g.rowBase r).toNat + g.columns.toNat - 1 ≤ 0x7F) := by
  simp only [geometryWf, wfCfg, Bool.and_eq_true, decide_eq_true_eq, List.all_eq_true, List.mem_range]
  tauto

/-- The model's checks on the configuration operands are `ConfigNames`. -/
theorem configNames_iff (a c x y : Byte) (g : Geometry) :
    ConfigNames a c x y g ↔ cfgReservedZero a c x y = true ∧ cfgGeometry c x y = some g ∧ geometryWf g = true := by
  rw [geometryWf_iff]
  constructor
  · rintro ⟨h1, ⟨h2, h3⟩, h4, h5, h6⟩
    refine ⟨?_, ?_, h6⟩
    · cases hc : c.getLsbD 6 with
      | false =>
        obtain ⟨r1, r2, -⟩ := h4 hc
        simp only [cfgReservedZero, cfgCustom, h1, h2, h3, hc]
        simp [r1, r2]
      | true =>
        simp only [cfgReservedZero, cfgCustom, h1, h2, h3, hc, cfgPreset, (h5 hc).1]
        rfl
    · cases hc : c.getLsbD 6 with
      | false => simp only [cfgGeometry, cfgCustom, hc]; exact (h4 hc).2.2
      | true => simp only [cfgGeometry, cfgCustom, hc]; rw [(h5 hc).2]; rfl
  · rintro ⟨h1, h2, h3⟩
    simp only [cfgReservedZero, cfgPreset, Bool.and_eq_true, Bool.not_eq_true', cfgGeometry] at h1 h2
    obtain ⟨⟨⟨r1, r2⟩, r3⟩, r4⟩ := h1
    refine ⟨r1, ⟨r2, r3⟩, ?_, ?_, h3⟩
    · intro hc
      rw [if_neg (show ¬ cfgCustom c = true by rw [cfgCustom, hc]; decide)] at r4 h2
      simp at r4
      exact ⟨r4.1, r4.2, h2⟩
    · intro hc
      rw [if_pos (show cfgCustom c = true from hc)] at r4 h2
      simp at r4 h2
      exact ⟨r4, h2.symm⟩

/-- The checks of session creation pass with the size the operands name (spec/41_init_lifecycle.md R140). -/
theorem createChecks_ok {a c x y : Byte} {g : Geometry} {s : State} (ho : s.regs.isOpen = false)
    (h : ConfigNames a c x y g) : createChecks a c x y s = .ok g := by
  obtain ⟨h1, h2, h3⟩ := (configNames_iff a c x y g).1 h
  simp only [createChecks, ho, Bool.not_false, require_true, Checked.andThen_ok, h1, h2, h3]

/-- They fail on an open session and on operands that name no size. -/
theorem createChecks_err {a c x y : Byte} {s : State} (h : s.regs.isOpen = true ∨ ¬ ∃ g, ConfigNames a c x y g) :
    createChecks a c x y s = .err .invalidArgument := by
  unfold createChecks
  cases ho : s.regs.isOpen with
  | true => rfl
  | false =>
    cases h1 : cfgReservedZero a c x y with
    | false => rfl
    | true =>
      simp only [Bool.not_false, require_true, Checked.andThen_ok]
      cases h2 : cfgGeometry c x y with
      | none => rfl
      | some g =>
        dsimp only
        cases h3 : geometryWf g with
        | false => rfl
        | true =>
          rcases h with h | h
          · rw [ho] at h; cases h
          · exact absurd ⟨g, (configNames_iff a c x y g).2 ⟨h1, h2, h3⟩⟩ h

/-! ## Command bytes and characters -/

theorem setDdramCommand_eq (a : Addr) : setDdramCommand a = (0b1#1 ++ a : BitVec 8) := by revert a; decide +kernel

theorem setCgramCommand_eq : ∀ slot : Byte, slot.toNat ≤ 7 →
    setCgramCommand slot = (0b01#2 ++ slot.extractLsb' 0 3 ++ 0b000#3 : BitVec 8) := by decide +kernel

theorem displayCommand_eq (d : BitVec 3) : displayCommand d = (0b00001#5 ++ d : BitVec 8) := by revert d; decide

/-- The characters of a line: the string cut to the line's length, then spaces (spec/44_text_ops.md R193). -/
theorem lineChars_eq (n : Nat) (text : List Byte) :
    lineChars n text = text.take n ++ List.replicate (n - text.length) 0x20 := by
  apply List.ext_getElem?
  intro k
  simp only [lineChars, List.getElem?_map]
  by_cases hk : k < n
  · rw [List.getElem?_range hk]
    by_cases h2 : k < text.length
    · rw [List.getElem?_append_left (by simp; omega)]
      simp [hk, h2]
    · rw [List.getElem?_append_right (by simp; omega)]
      simp [h2, List.getElem?_replicate, Config.CH_SPACE]
      omega
  · rw [List.getElem?_eq_none (by simp; omega), List.getElem?_eq_none (by simp; omega)]
    rfl

end Sys2Proof
end

