-- ==== Sys2Proof/Laws/PerInstr.lean ====
section
/-! SUPPORT. What holds of every instruction as syntax, one lemma a constructor. -/

namespace Sys2Proof.Laws.EncodedLength

open Sys2Proof

/-- The encoded words are as many as the encoding says: a request's packet has the length R99 reads from its first bytes
(spec/30_encoding.md), a micro-operation is one byte, a nibble's pair of expander words two. -/
def Statement (i : Instr) : Prop :=
  WellFormed i = true → ∀ bl : Bool,
    match formatOf i with
    | .req => packetLength (encodeWith bl i) = some (encodeWith bl i).length
    | .xwPair => (encodeWith bl i).length = 2
    | .lcd | .lcdData | .nibble | .xw | .raw => (encodeWith bl i).length = 1

/-- The length of a string fits its length byte. -/
theorem lenByte_toNat {s : List Byte} (h : s.length ≤ 255) : (lenByte s).toNat = s.length := by
  simp only [lenByte, BitVec.toNat_ofNat]
  omega

/-- The cut text of a formatted write fits the length byte of its PUT_STRING. -/
theorem cutText_length (t : List Byte) : (cutText t).length ≤ 255 := by
  have := Config.fmtRoom.isLt
  simp only [cutText, List.length_take, Config.FMT_CAP]
  omega

theorem init (a c x y : Byte) : Statement (.init a c x y) := fun _ _ => rfl

theorem openSession (a c x y : Byte) : Statement (.openSession a c x y) := fun _ _ => rfl

theorem teardown : Statement .teardown := fun _ _ => rfl

theorem clear : Statement .clear := fun _ _ => rfl

theorem home : Statement .home := fun _ _ => rfl

theorem clearLine (l : Byte) : Statement (.clearLine l) := fun _ _ => rfl

theorem setCursor (c r : Byte) : Statement (.setCursor c r) := fun _ _ => rfl

theorem setLine (l : Byte) (t : List Byte) : Statement (.setLine l t) := by
  intro h bl
  show some (3 + (lenByte t).toNat) = some (encodeWith bl (.setLine l t)).length
  rw [lenByte_toNat (by simpa [WellFormed] using h)]
  simp only [encodeWith, List.length_cons]
  congr 1
  omega

theorem display (v : Bool) : Statement (.display v) := by cases v <;> exact fun _ _ => rfl

theorem cursor (v : Bool) : Statement (.cursor v) := by cases v <;> exact fun _ _ => rfl

theorem blink (v : Bool) : Statement (.blink v) := by cases v <;> exact fun _ _ => rfl

theorem backlightSet (v : Bool) : Statement (.backlightSet v) := by cases v <;> exact fun _ _ => rfl

theorem backlightGet : Statement .backlightGet := fun _ _ => rfl

theorem getDimensions : Statement .getDimensions := fun _ _ => rfl

theorem putChar (ch : Byte) : Statement (.putChar ch) := fun _ _ => rfl

theorem putString (t : List Byte) : Statement (.putString t) := by
  intro h bl
  show some (2 + (lenByte t).toNat) = some (encodeWith bl (.putString t)).length
  rw [lenByte_toNat (by simpa [WellFormed] using h)]
  simp only [encodeWith, List.length_cons]
  congr 1
  omega

theorem createCustomChar (n : Byte) (p : List Byte) : Statement (.createCustomChar n p) := by
  intro h bl
  have hp : p.length = 8 := by simpa [WellFormed] using h
  show some 10 = some (encodeWith bl (.createCustomChar n p)).length
  simp only [encodeWith, List.length_cons, hp]

theorem formattedWrite (t : List Byte) : Statement (.formattedWrite t) := by
  intro _ bl
  show some (2 + (lenByte (cutText t)).toNat) = some (encodeWith bl (.formattedWrite t)).length
  rw [lenByte_toNat (cutText_length t)]
  simp only [encodeWith, List.length_cons]
  congr 1
  omega

theorem cmdClear : Statement .cmdClear := fun _ _ => rfl

theorem cmdHome : Statement .cmdHome := fun _ _ => rfl

theorem cmdEntry (i s : Bool) : Statement (.cmdEntry i s) := fun _ _ => rfl

theorem cmdDisplay (d c b : Bool) : Statement (.cmdDisplay d c b) := fun _ _ => rfl

theorem cmdFunction (d n f : Bool) : Statement (.cmdFunction d n f) := fun _ _ => rfl

theorem cmdSetCgram (n : BitVec 3) : Statement (.cmdSetCgram n) := fun _ _ => rfl

theorem cmdSetDdram (a : Addr) : Statement (.cmdSetDdram a) := fun _ _ => rfl

theorem nib8Bit : Statement .nib8Bit := fun _ _ => rfl

theorem nib4Bit : Statement .nib4Bit := fun _ _ => rfl

theorem data (v : Byte) : Statement (.data v) := fun _ _ => rfl

theorem xw (n : Nibble) (b e r : Bool) : Statement (.xw n b e r) := fun _ _ => rfl

theorem raw : Statement .raw := fun _ _ => rfl

theorem nib (n : Nibble) (r : Bool) : Statement (.nib n r) := fun _ _ => rfl

end Sys2Proof.Laws.EncodedLength
end

