-- ==== Sys2Proof/Laws/Requests.lean ====
section
/-! SUPPORT. The laws of exec: which micro-program a request is, which micro-operation a row is, and how a request or a
micro-operation ends when the bus answers `ok` and when it fails. -/

namespace Sys2Proof

open Machine

/-! ## Micro-operations, with the whole next state -/

theorem sent_sent (s : State) (a b : List Event) : sent (sent s a) b = sent s (a ++ b) := by
  have hd : minDelay (a ++ b) = minDelay a + minDelay b := minDelay_append a b
  simp only [sent, replay_append, drawCount_append, List.append_assoc, List.length_append, Nat.add_assoc]
  by_cases ha : minDelay a = 0 <;> by_cases hb : minDelay b = 0 <;> simp [hd, ha, hb]

@[simp] theorem sent_regs (s : State) (evs : List Event) : (sent s evs).regs = s.regs := rfl
@[simp] theorem sent_resetAt (s : State) (evs : List Event) : (sent s evs).seq.resetAt = s.seq.resetAt := rfl
@[simp] theorem sent_request (s : State) (evs : List Event) : (sent s evs).seq.request = s.seq.request := rfl

theorem progress_sent (s : State) (evs : List Event) : Progress s (sent s evs) s.regs evs :=
  ⟨rfl, rfl, rfl, rfl, rfl, rfl⟩

theorem busWrite_sent {s : State} (w : Byte) (hr : s.seq.resetAt = none) (ha : s.answer = .ok) :
    busWrite w s = .go (sent s [.wr w true]) := by
  simp only [busWrite, unlessReset_none _ hr, ha]
  rfl

theorem delay_sent {s : State} (n : Nat) (hn : n ≠ 0) (hr : s.seq.resetAt = none) :
    delay n s = .go (sent s [.dl n]) := by
  have hm : minDelay [.dl n] = n := by simp [minDelay, Event.delay]
  simp only [delay, Machine.loadDelay, Machine.waitDelay, unlessReset, hr, reduceCtorEq, if_false, Flow.andThen_go,
    sent, hm, hn]
  rfl

theorem nibOp_sent {s : State} (n : Nibble) (rs : Bool) (hr : s.seq.resetAt = none) (ha : AnswersOk s 2) :
    nibOp n rs s = .go (sent s (nibEvents s.regs.backlightOn n rs)) := by
  have h1 : AnswersOk (sent s [.wr (xword n rs true s.regs.backlightOn) true, .dl Config.T_EN]) 1 :=
    (progress_sent s _).answersOk (ha.mono (Nat.le_refl 2))
  simp only [nibOp, xword_or_en, busWrite_sent _ hr (ha.first (by omega)), Flow.andThen_go,
    delay_sent Config.T_EN (by decide) (show (sent s _).seq.resetAt = none from hr), sent_sent, List.cons_append,
    List.nil_append, busWrite_sent _ (show (sent s _).seq.resetAt = none from hr) (h1.first (by omega)),
    delay_sent Config.T_CMD (by decide) (show (sent s _).seq.resetAt = none from hr)]
  rfl

theorem byteOp_sent {s : State} (v : Byte) (rs : Bool) (hr : s.seq.resetAt = none) (ha : AnswersOk s 4) :
    byteOp v rs s = .go (sent s (byteEvents s.regs.backlightOn v rs)) := by
  have h1 : AnswersOk (sent s (nibEvents s.regs.backlightOn (highNibble v) rs)) 2 :=
    (progress_sent s _).answersOk (ha.mono (Nat.le_refl 4))
  simp only [byteOp, nibOp_sent _ rs hr (ha.mono (by omega)), Flow.andThen_go,
    nibOp_sent _ rs (show (sent s _).seq.resetAt = none from hr) h1, sent_sent, sent_regs]
  rfl

/-- The row of a micro-operation runs that micro-operation. -/
theorem exec_micro {i : Instr} {m : Micro} (h : microOf i = some m) (s : State) : exec i s = .next (m.run s).state := by
  cases i <;> simp only [microOf, Option.some.injEq, reduceCtorEq] at h <;> subst h <;> rfl

/-- A row's micro-operation that is one write, a nibble or a byte. -/
theorem micro_sent {i : Instr} {m : Micro} (h : microOf i = some m) {s : State} (hr : s.seq.resetAt = none)
    (ha : AnswersOk s (drawCount (microEvents s.regs.backlightOn m))) :
    exec i s = .next (sent s (microEvents s.regs.backlightOn m)) := by
  rw [exec_micro h]
  cases i <;> simp only [microOf, Option.some.injEq, reduceCtorEq] at h <;> subst h
  case xw => simp only [Micro.run, busWrite_sent _ hr (ha.first (by show 0 < 1; omega)), Flow.state_go, microEvents]
  case raw => simp only [Micro.run, rawOp, busWrite_sent _ hr (ha.first (by show 0 < 1; omega)), Flow.state_go, microEvents]
  case nib8Bit => simp only [Micro.run, nibOp_sent _ _ hr ha, Flow.state_go, microEvents]
  case nib4Bit => simp only [Micro.run, nibOp_sent _ _ hr ha, Flow.state_go, microEvents]
  case nib => simp only [Micro.run, nibOp_sent _ _ hr ha, Flow.state_go, microEvents]
  all_goals simp only [Micro.run, cmdOp, dataOp, byteOp_sent _ _ hr ha, Flow.state_go, microEvents]

/-- A row of the table that is a micro-operation, whatever the bus answers. -/
theorem micro_runsAs {i : Instr} {m : Micro} (h : microOf i = some m) {s : State} (hr : s.seq.resetAt = none) :
    MicroRunsAs i s (microEvents s.regs.backlightOn m) := by
  refine ⟨micro_sent h hr, ?_⟩
  intro before w rest landed he hf
  obtain ⟨t, h1, b⟩ := micro_fail m hr he hf
  rw [exec_micro h, h1, Flow.state_done]
  cases hh : holdsInit s with
  | true => simp [raise_broken_init b hh]
  | false => simp [raise_broken b hh]

/-! ## Requests -/

/-- A request is served by its micro-program. -/
theorem exec_request {i : Instr} (h : isRequest i = true) (s : State) :
    exec i s = if s.seq.busy then .refused .requestWhileBusy
      else .next (runAll (requestProgram i s) (accept (some (heldRequest i)) (requestProgram i s) s)).state := by
  cases i <;> first | rfl | simp [isRequest, formatOf] at h

/-- A request whose micro-program goes on to its response, whatever the bus answers. -/
theorem serve_runsAs {i : Instr} {held : Option Instr} {ms : List Micro} {d : List Byte} {s : State} {after onFail : Session}
    (h : Ready s) (he : exec i s = serve held (.ok (ms ++ [.respond d])) s)
    (hi : ∀ a c x y, held ≠ some (.init a c x y)) (hm : ∀ m ∈ ms, Micro.goesOn m = true)
    (ha : regsAfterAll ms s.regs = after)
    (hf : ∀ pre m post b w c, ms = pre ++ m :: post →
      microEvents (regsAfterAll pre s.regs).backlightOn m = b ++ .wr w true :: c → regsAfterAll pre s.regs = onFail) :
    RunsAs i s (eventsFrom s.regs ms) after onFail d := by
  refine ⟨?_, ?_⟩
  · intro hok
    rw [he, serve_ok held ms d h hm hok, ha]
  · intro before w rest landed hs hfl
    obtain ⟨pre, m, post, b, c, h1, h2, h3⟩ := serve_fail held ms d h hi hm hs hfl
    rw [he, h3, hf pre m post b w c h1 h2]

/-- The same for a micro-program that writes no register. -/
theorem serve_runsAs_pure {i : Instr} {held : Option Instr} {ms : List Micro} {d : List Byte} {s : State}
    (h : Ready s) (he : exec i s = serve held (.ok (ms ++ [.respond d])) s)
    (hi : ∀ a c x y, held ≠ some (.init a c x y)) (hm : ∀ m ∈ ms, Micro.goesOn m = true)
    (hp : ∀ m ∈ ms, ∀ r, Micro.regsAfter m r = r) :
    RunsAs i s (programEvents s.regs.backlightOn ms) s.regs s.regs d := by
  have hreg : ∀ l : List Micro, (∀ m ∈ l, ∀ r, Micro.regsAfter m r = r) → ∀ r, regsAfterAll l r = r := by
    intro l hl r
    induction l with
    | nil => rfl
    | cons m l ih =>
      have := hl m (List.mem_cons_self ..)
      simp only [regsAfterAll, List.foldl_cons, this]
      exact ih fun k hk => hl k (List.mem_cons_of_mem _ hk)
  have hev : ∀ l : List Micro, (∀ m ∈ l, ∀ r, Micro.regsAfter m r = r) → ∀ r : Session,
      eventsFrom r l = programEvents r.backlightOn l := by
    intro l hl r
    induction l with
    | nil => rfl
    | cons m l ih =>
      simp only [eventsFrom, programEvents, List.flatMap_cons, hl m (List.mem_cons_self ..)]
      rw [ih fun k hk => hl k (List.mem_cons_of_mem _ hk)]
      rfl
  rw [← hev ms hp]
  exact serve_runsAs h he hi hm (hreg ms hp _) fun pre m post b w c h1 _ =>
    hreg pre (fun k hk => hp k (by rw [h1]; exact List.mem_append_left _ hk)) _

theorem programEvents_append (bl : Bool) (a b : List Micro) :
    programEvents bl (a ++ b) = programEvents bl a ++ programEvents bl b := by
  simp [programEvents]

theorem programEvents_data (bl : Bool) (vs : List Byte) :
    programEvents bl (vs.map Micro.data) = bytesEvents bl vs true := by
  simp [programEvents, bytesEvents, List.flatMap_map, microEvents]

/-- Data transfers go on and write no register. -/
theorem data_pure {vs : List Byte} {m : Micro} (h : m ∈ vs.map Micro.data) :
    Micro.goesOn m = true ∧ ∀ r, Micro.regsAfter m r = r := by
  obtain ⟨v, -, rfl⟩ := List.mem_map.1 h
  exact ⟨rfl, fun _ => rfl⟩

end Sys2Proof
end

