-- ==== Sys2Proof/Laws/Programs.lean ====
section
/-! SUPPORT. The laws of the shapes a request's micro-program has, and of the observer while it is in step. -/

namespace Sys2Proof

open Machine

/-! ## Micro-programs by shape -/

/-- A lone command. -/
theorem serve_cmd {i held : Instr} {s : State} {v : Byte} (hr : Ready s)
    (he : exec i s = serve (some held) (.ok ([.cmd v] ++ [.respond []])) s) (hi : ∀ a c x y, held ≠ .init a c x y) :
    RunsAs i s (byteEvents s.regs.backlightOn v false) s.regs s.regs [] := by
  have := serve_runsAs_pure hr he (by intro a c x y h; exact hi a c x y (by simpa using h)) (by simp [Micro.goesOn])
    (by simp [Micro.regsAfter])
  simpa [programEvents, microEvents] using this

/-- A command and a long delay. -/
theorem serve_cmdDelay {i held : Instr} {s : State} {v : Byte} {n : Nat} (hr : Ready s)
    (he : exec i s = serve (some held) (.ok (([.cmd v] ++ delaySteps n) ++ [.respond []])) s)
    (hi : ∀ a c x y, held ≠ .init a c x y) :
    RunsAs i s (byteEvents s.regs.backlightOn v false ++ [.dl n]) s.regs s.regs [] := by
  have := serve_runsAs_pure hr he (by intro a c x y h; exact hi a c x y (by simpa using h))
    (by simp [Micro.goesOn, delaySteps]) (by simp [Micro.regsAfter, delaySteps])
  simpa [programEvents, microEvents, delaySteps] using this

/-- Data transfers. -/
theorem serve_data {i held : Instr} {s : State} {text : List Byte} (hr : Ready s)
    (he : exec i s = serve (some held) (.ok (text.map Micro.data ++ [.respond []])) s)
    (hi : ∀ a c x y, held ≠ .init a c x y) :
    RunsAs i s (bytesEvents s.regs.backlightOn text true) s.regs s.regs [] := by
  have := serve_runsAs_pure hr he (by intro a c x y h; exact hi a c x y (by simpa using h)) (fun m hm => (data_pure hm).1)
    (fun m hm => (data_pure hm).2)
  rwa [programEvents_data] at this

/-- A command and data transfers behind it. -/
theorem serve_cmdData {i held : Instr} {s : State} {v : Byte} {text : List Byte} (hr : Ready s)
    (he : exec i s = serve (some held) (.ok (([.cmd v] ++ text.map Micro.data) ++ [.respond []])) s)
    (hi : ∀ a c x y, held ≠ .init a c x y) :
    RunsAs i s (byteEvents s.regs.backlightOn v false ++ bytesEvents s.regs.backlightOn text true) s.regs s.regs [] := by
  have pure : ∀ m ∈ [Micro.cmd v] ++ text.map Micro.data, Micro.goesOn m = true ∧ ∀ r, Micro.regsAfter m r = r := by
    intro m hm
    rcases List.mem_append.1 hm with h | h
    · simp at h; subst h; exact ⟨rfl, fun _ => rfl⟩
    · exact data_pure h
  have := serve_runsAs_pure hr he (by intro a c x y h; exact hi a c x y (by simpa using h)) (fun m hm => (pure m hm).1)
    (fun m hm => (pure m hm).2)
  rw [programEvents_append, programEvents_data] at this
  simpa [programEvents, microEvents] using this

/-! ## Events and registers of a micro-program, in parts -/

theorem eventsFrom_append (a b : List Micro) (r : Session) :
    eventsFrom r (a ++ b) = eventsFrom r a ++ eventsFrom (regsAfterAll a r) b := by
  induction a generalizing r with
  | nil => rfl
  | cons m a ih => simp [eventsFrom, ih, regsAfterAll]

theorem regsAfterAll_append (a b : List Micro) (r : Session) :
    regsAfterAll (a ++ b) r = regsAfterAll b (regsAfterAll a r) := by simp [regsAfterAll]

theorem createSteps_goesOn (a c : Byte) (g : Geometry) : ∀ m ∈ createSteps a c g, Micro.goesOn m = true := by
  simp [createSteps, Micro.goesOn]

theorem createSteps_events (a c : Byte) (g : Geometry) (r : Session) :
    eventsFrom r (createSteps a c g) = [.busOpen (cfgAddr a) true] := by
  simp [createSteps, eventsFrom, microEvents]

theorem createSteps_regs (a c : Byte) (g : Geometry) (r : Session) :
    regsAfterAll (createSteps a c g) r = createdSession a c g r.isOpen := by
  simp [createSteps, regsAfterAll, Micro.regsAfter, createdSession]
  decide

theorem initSteps_goesOn : ∀ m ∈ initSteps, Micro.goesOn m = true := by decide

theorem initSteps_events (r : Session) : eventsFrom r initSteps = initEvents r.backlightOn := by cases r; rfl

theorem initSteps_regs (r : Session) : regsAfterAll initSteps r = { r with dcf := 0b100, emf := 0b10 } := rfl

theorem drawCount_initEvents (bl : Bool) : drawCount (initEvents bl) = 25 := by cases bl <;> rfl

/-- The answers left behind a completed request. -/
theorem completed_answersOk {s : State} {r : Session} {evs : List Event} {d : List Byte} {n : Nat}
    (h : AnswersOk s (drawCount evs + n)) : AnswersOk (completed s r evs d) n := by
  intro j hj
  have := h (drawCount evs + j) (by omega)
  simpa [State.answerAt, completed, Nat.add_assoc] using this

/-! ## The observer in step -/

theorem InStep.replay_byte {o : Observer} {bl : Bool} {v : Byte} {rs : Bool} (h : InStep o) :
    replay (byteEvents bl v rs) o = { o.execByte v rs with pins := some (xword (lowNibble v) rs false bl) } :=
  replay_byteEvents bl v rs o h.1 h.2.1

theorem inStep_of {o : Observer} {n : Nibble} {rs bl : Bool} (h4 : o.ifw = .w4) (hh : o.phase = some .hi) :
    InStep { o with pins := some (xword n rs false bl) } :=
  ⟨h4, hh, _, rfl, xword_en _ _ _ _⟩

/-- Data transfers keep the controller in step. -/
theorem InStep.data {o : Observer} {bl : Bool} {v : Byte} (h : InStep o) : InStep (replay (byteEvents bl v true) o) := by
  rw [h.replay_byte]
  exact inStep_of (o := o.execByte v true) ((Observer.execData_ifw o v).trans h.1) ((Observer.execData_phase o v).trans h.2.1)

theorem execCommand_setDdram (o : Observer) (a : Addr) :
    Observer.execCommand (0b1#1 ++ a : BitVec 8) o = { o with space := some .ddram, ac := some a } := by
  have : decodeLcd (0b1#1 ++ a : BitVec 8) = .setDdram a := by revert a; decide +kernel
  simp only [Observer.execCommand, this]

theorem execCommand_display (o : Observer) (d : BitVec 3) :
    Observer.execCommand (0b00001#5 ++ d : BitVec 8) o = { o with disp := some d } := by
  have : decodeLcd (0b00001#5 ++ d : BitVec 8) = .display d := by revert d; decide +kernel
  simp only [Observer.execCommand, this]

end Sys2Proof
end

