-- ==== Sys2Proof/Laws/Runs.lean ====
section
/-! SUPPORT. The induction over a run of micro-operations, packaged once: what the single steps keep, every run keeps,
whatever the bus answers and wherever a reset comes. -/

namespace Sys2Proof

open Machine

/-- `P` is kept while a run goes on and gives `Q` where it ends; `W` holds of every word it writes, `R` of every register
write it makes. -/
structure Stable (P Q : State → Prop) (W : Byte → Session → Prop) (R : RegWrite → Prop) : Prop where
  wrOk     : ∀ s w, W w s.regs → P s → P ((s.emit (.wr w true)).drawn.advance.observe (Observer.write w))
  wrFail   : ∀ s w landed, W w s.regs → P s →
    Q (raise .writeFailed ((s.emit (.wr w false)).drawn.observe (Observer.failedWrite w landed)))
  openOk   : ∀ s a, P s → P (s.emit (.busOpen a true)).drawn.advance
  openFail : ∀ s a, P s → Q (raise .peripheralUnreachable (s.emit (.busOpen a false)).drawn)
  close    : ∀ s, P s → P (s.emit .close).advance
  load     : ∀ s n, P s → P { s with seq := { s.seq with delayCtr := n } }
  wait     : ∀ s n, P s → P (({ s with seq := { s.seq with delayCtr := 0 } } : State).advance.emit (.dl n))
  set      : ∀ s w, R w → P s → P (s.setReg w).advance
  raise    : ∀ s e, P s → Q (Machine.raise e s)
  respond  : ∀ s d, P s → Q (Machine.respond .ok d s)
  reset    : ∀ s, P s → Q (abandon s)

/-- A flow in which `P` holds if it goes on, and `Q` if it is over. -/
def Flow.Holds (P Q : State → Prop) : Flow → Prop
  | .go s => P s
  | .done s => Q s

theorem Flow.Holds.andThen {P Q : State → Prop} {x : Flow} {f : State → Flow} (hx : Flow.Holds P Q x)
    (hf : ∀ s, P s → Flow.Holds P Q (f s)) : Flow.Holds P Q (x.andThen f) := by
  cases x with
  | go s => exact hf s hx
  | done s => exact hx

theorem Flow.Holds.unlessReset {P Q : State → Prop} {s : State} {f : State → Flow} (hr : Q (abandon s))
    (hf : Flow.Holds P Q (f s)) : Flow.Holds P Q (Machine.unlessReset s f) := by
  unfold Machine.unlessReset
  split
  · exact hr
  · exact hf

/-- The same for a step that goes on. -/
theorem Flow.Holds.goUnlessReset {P Q : State → Prop} {s : State} (f : State → State) (hr : Q (abandon s)) (hf : P (f s)) :
    Flow.Holds P Q (Machine.unlessReset s fun s => .go (f s)) :=
  Flow.Holds.unlessReset hr hf

/-- The same for a step that ends the request. -/
theorem Flow.Holds.doneUnlessReset {P Q : State → Prop} {s : State} (f : State → State) (hr : Q (abandon s))
    (hf : Q (f s)) : Flow.Holds P Q (Machine.unlessReset s fun s => .done (f s)) :=
  Flow.Holds.unlessReset hr hf

section

variable {P Q : State → Prop} {W : Byte → Session → Prop} {R : RegWrite → Prop}

theorem Stable.busWrite (h : Stable P Q W R) {s : State} (w : Byte) (hw : W w s.regs) (hs : P s) :
    Flow.Holds P Q (Machine.busWrite w s) := by
  rcases busWrite_cases w s with ⟨-, e⟩ | ⟨-, e⟩ | ⟨landed, -, e⟩ <;> rw [e]
  · exact h.reset s hs
  · exact h.wrOk s w hw hs
  · exact h.wrFail s w landed hw hs

theorem Stable.delay (h : Stable P Q W R) {s : State} (n : Nat) (hs : P s) : Flow.Holds P Q (Machine.delay n s) := by
  unfold Machine.delay Machine.loadDelay
  refine Flow.Holds.andThen (Flow.Holds.goUnlessReset _ (h.reset s hs) (h.load s _ hs)) fun t ht => ?_
  exact Flow.Holds.goUnlessReset _ (h.reset t ht) (h.wait t n ht)

/-- A word made in a state of `P` is as `W` asks in every other state of `P`: so where `P` fixes the backlight bit, or where
`W` asks nothing. -/
def WordsFit (P : State → Prop) (W : Byte → Session → Prop) : Prop :=
  ∀ s t, P s → P t → ∀ n rs en, W (xword n rs en s.regs.backlightOn) t.regs

/-- A nibble transfer. -/
theorem Stable.nibOp (h : Stable P Q W R) (hb : WordsFit P W) {s : State} (n : Nibble) (rs : Bool) (hs : P s) :
    Flow.Holds P Q (Machine.nibOp n rs s) := by
  simp only [Machine.nibOp, xword_or_en]
  refine (h.busWrite _ (hb s s hs hs n rs true) hs).andThen fun t ht => (h.delay _ ht).andThen fun u hu => ?_
  exact (h.busWrite _ (hb s u hs hu n rs false) hu).andThen fun v hv => h.delay _ hv

theorem Stable.byteOp (h : Stable P Q W R) (hb : WordsFit P W) {s : State} (v : Byte) (rs : Bool) (hs : P s) : Flow.Holds P Q (Machine.byteOp v rs s) :=
  (h.nibOp hb _ rs hs).andThen fun _ ht => h.nibOp hb _ rs ht

/-- One micro-operation. -/
theorem Stable.micro (h : Stable P Q W R) (hb : WordsFit P W) (m : Micro) {s : State}
    (hw : ∀ w, m = .word w → W w s.regs) (hr : ∀ w, m = .set w → R w) (hs : P s) : Flow.Holds P Q (m.run s) := by
  cases m with
  | busOpen a =>
    simp only [Micro.run]
    rcases busOpen_cases a s with ⟨-, e⟩ | ⟨-, e⟩ | ⟨landed, -, e⟩ <;> rw [e]
    · exact h.reset s hs
    · exact h.openOk s a hs
    · exact h.openFail s a hs
  | busClose => exact Flow.Holds.goUnlessReset (fun s => (s.emit .close).advance) (h.reset s hs) (h.close s hs)
  | word w => exact h.busWrite w (hw w rfl) hs
  | raw => exact h.busWrite _ (hb s s hs hs 0 false false) hs
  | nib n rs => exact h.nibOp hb n rs hs
  | cmd v => exact h.byteOp hb v false hs
  | data v => exact h.byteOp hb v true hs
  | loadDelay n => exact Flow.Holds.goUnlessReset (fun s => { s with seq := { s.seq with delayCtr := Config.delayCycles n } }) (h.reset s hs) (h.load s _ hs)
  | waitDelay n => exact Flow.Holds.goUnlessReset (fun s => (({ s with seq := { s.seq with delayCtr := 0 } } : State).advance.emit (.dl n))) (h.reset s hs) (h.wait s n hs)
  | set w => exact Flow.Holds.goUnlessReset (fun s => (s.setReg w).advance) (h.reset s hs) (h.set s w (hr w rfl) hs)
  | raise e => exact Flow.Holds.doneUnlessReset _ (h.reset s hs) (h.raise s e hs)
  | respond d => exact Flow.Holds.doneUnlessReset _ (h.reset s hs) (h.respond s d hs)

/-- A micro-program. -/
theorem Stable.runAll (h : Stable P Q W R) (hb : WordsFit P W) (ms : List Micro)
    (hw : ∀ w, Micro.word w ∉ ms) (hr : ∀ w, Micro.set w ∈ ms → R w) {s : State} (hs : P s) :
    Flow.Holds P Q (Machine.runAll ms s) := by
  induction ms generalizing s with
  | nil => exact hs
  | cons m ms ih =>
    refine Flow.Holds.andThen ?_ fun t ht => ih (fun w hm => hw w (List.mem_cons_of_mem _ hm))
      (fun w hm => hr w (List.mem_cons_of_mem _ hm)) ht
    exact h.micro hb m (fun w e => absurd (by rw [e]; exact List.mem_cons_self ..) (hw w))
      (fun w e => hr w (by rw [e]; exact List.mem_cons_self ..)) hs

end

/-- A run of a micro-program that ends in a raise or a response is over when the program is. -/
theorem runAll_done (ms : List Micro) (m : Micro) (hm : Micro.goesOn m = false) (s : State) :
    ∃ t, Machine.runAll (ms ++ [m]) s = .done t := by
  induction ms generalizing s with
  | nil =>
    cases m <;> simp [Micro.goesOn] at hm
    all_goals
      simp only [List.nil_append, Machine.runAll, Micro.run, Machine.unlessReset]
      split <;> exact ⟨_, rfl⟩
  | cons k ms ih =>
    simp only [List.cons_append, Machine.runAll]
    cases k.run s with
    | go t => exact ih t
    | done t => exact ⟨t, rfl⟩

/-- Every request's micro-program ends in its response, and no bus write of a bare word is in it. -/
theorem requestProgram_shape (i : Instr) (h : isRequest i = true) (s : State) :
    (∃ ms m, requestProgram i s = ms ++ [m] ∧ Micro.goesOn m = false ∧ ∀ k ∈ ms, Micro.goesOn k = true) ∧
    ∀ w, Micro.word w ∉ requestProgram i s := by
  have raise : ∀ e : Status, (∃ ms m, [Micro.raise e] = ms ++ [m] ∧ Micro.goesOn m = false ∧ ∀ k ∈ ms, Micro.goesOn k = true) ∧
      ∀ w, Micro.word w ∉ [Micro.raise e] := fun e => ⟨⟨[], _, rfl, rfl, by simp⟩, by simp⟩
  have resp : ∀ (ms : List Micro) (d : List Byte), (∀ k ∈ ms, Micro.goesOn k = true) → (∀ w, Micro.word w ∉ ms) →
      (∃ ns m, ms ++ [Micro.respond d] = ns ++ [m] ∧ Micro.goesOn m = false ∧ ∀ k ∈ ns, Micro.goesOn k = true) ∧
      ∀ w, Micro.word w ∉ ms ++ [Micro.respond d] :=
    fun ms d h1 h2 => ⟨⟨ms, _, rfl, rfl, h1⟩, by simpa using h2⟩
  have chk : ∀ (c : Checked (List Micro)),
      (∀ ms, c = .ok ms → ∃ ns d, ms = ns ++ [Micro.respond d] ∧ (∀ k ∈ ns, Micro.goesOn k = true) ∧ ∀ w, Micro.word w ∉ ns) →
      (∃ ms m, c.program = ms ++ [m] ∧ Micro.goesOn m = false ∧ ∀ k ∈ ms, Micro.goesOn k = true) ∧
        ∀ w, Micro.word w ∉ c.program := by
    intro c hc
    cases c with
    | err e => exact raise e
    | ok ms =>
      obtain ⟨ns, d, rfl, h1, h2⟩ := hc ms rfl
      exact resp ns d h1 h2
  have opened : ∀ (f : Unit → Checked (List Micro)) (ms : List Micro), (requireOpen s).andThen f = .ok ms → f () = .ok ms := by
    intro f ms
    cases ho : s.regs.isOpen <;> simp [requireOpen, ho]
  have go : ∀ (vs : List Byte), (∀ k ∈ vs.map Micro.data, Micro.goesOn k = true) ∧ ∀ w, Micro.word w ∉ vs.map Micro.data :=
    fun vs => ⟨fun k hk => (data_pure hk).1, by simp⟩
  cases i <;> simp only [requestProgram] <;> first
    | (simp [isRequest, formatOf] at h; done)
    | refine chk _ ?_
  case init a c x y =>
    intro ms hm
    simp only [initProgram] at hm
    cases hc : createChecks a c x y s with
    | err e => simp [hc] at hm
    | ok g =>
      simp only [hc, Checked.andThen_ok, Checked.ok.injEq] at hm
      refine ⟨createSteps a c g ++ initSteps ++ [.set (.isOpen true)], [], by simp [← hm], ?_, ?_⟩
      · simp [createSteps, initSteps, delaySteps, Micro.goesOn]
      · simp [createSteps, initSteps, delaySteps]
  case openSession a c x y =>
    intro ms hm
    simp only [openProgram] at hm
    cases hc : createChecks a c x y s with
    | err e => simp [hc] at hm
    | ok g =>
      simp only [hc, Checked.andThen_ok, Checked.ok.injEq] at hm
      refine ⟨createSteps a c g ++ [.set (.isOpen true)], [], by simp [← hm], ?_, ?_⟩
      · simp [createSteps, Micro.goesOn]
      · simp [createSteps]
  case teardown =>
    intro ms hm
    simp only [teardownProgram, Checked.ok.injEq] at hm
    subst hm
    split
    · exact ⟨[.busClose, .set (.isOpen false)], [], rfl, by simp [Micro.goesOn], by simp⟩
    · exact ⟨[], [], rfl, by simp, by simp⟩
  case clear =>
    intro ms hm
    have := opened _ ms hm
    simp only [Checked.ok.injEq] at this
    exact ⟨[.cmd Config.CMD_CLEAR] ++ delaySteps Config.T_HOME, [], by simp [← this], by simp [delaySteps, Micro.goesOn], by simp [delaySteps]⟩
  case home =>
    intro ms hm
    have := opened _ ms hm
    simp only [Checked.ok.injEq] at this
    exact ⟨[.cmd Config.CMD_HOME] ++ delaySteps Config.T_HOME, [], by simp [← this], by simp [delaySteps, Micro.goesOn], by simp [delaySteps]⟩
  case setCursor c r =>
    intro ms hm
    have := opened _ ms hm
    cases ha : addr s c r with
    | err e => simp [ha] at this
    | ok a =>
      simp only [ha, Checked.andThen_ok, Checked.ok.injEq] at this
      exact ⟨[.cmd (setDdramCommand a)], [], by simp [← this], by simp [Micro.goesOn], by simp⟩
  case clearLine l =>
    intro ms hm
    have := opened _ ms hm
    cases ha : addr s 0 l with
    | err e => simp only [ha, Checked.andThen_err, reduceCtorEq] at this
    | ok a =>
      simp only [ha, Checked.andThen_ok, Checked.ok.injEq] at this
      refine ⟨[.cmd (setDdramCommand a)] ++ (lineChars s.regs.columns.toNat []).map Micro.data, [], by simp [← this], ?_, by simp⟩
      intro k hk
      rcases List.mem_append.1 hk with hk | hk
      · simp at hk; subst hk; rfl
      · exact (go _).1 k hk
  case setLine l text =>
    intro ms hm
    have := opened _ ms hm
    cases ha : addr s 0 l with
    | err e => simp only [ha, Checked.andThen_err, reduceCtorEq] at this
    | ok a =>
      simp only [ha, Checked.andThen_ok, Checked.ok.injEq] at this
      refine ⟨[.cmd (setDdramCommand a)] ++ (lineChars s.regs.columns.toNat text).map Micro.data, [], by simp [← this], ?_, by simp⟩
      intro k hk
      rcases List.mem_append.1 hk with hk | hk
      · simp at hk; subst hk; rfl
      · exact (go _).1 k hk
  case backlightGet =>
    intro ms hm
    have := opened _ ms hm
    simp only [Checked.ok.injEq] at this
    exact ⟨[], _, by rw [← this]; rfl, by simp, by simp⟩
  case getDimensions =>
    intro ms hm
    have := opened _ ms hm
    simp only [Checked.ok.injEq] at this
    exact ⟨[], _, by rw [← this]; rfl, by simp, by simp⟩
  case putChar ch =>
    intro ms hm
    have := opened _ ms hm
    simp only [Checked.ok.injEq] at this
    exact ⟨[.data ch], [], by simp [← this], by simp [Micro.goesOn], by simp⟩
  case putString t =>
    intro ms hm
    have := opened _ ms hm
    simp only [Checked.ok.injEq] at this
    exact ⟨t.map Micro.data, [], by simp [← this], (go t).1, (go t).2⟩
  case formattedWrite t =>
    intro ms hm
    have := opened _ ms hm
    simp only [Checked.ok.injEq] at this
    exact ⟨(cutText t).map Micro.data, [], by simp [← this], (go _).1, (go _).2⟩
  case createCustomChar slot pat =>
    intro ms hm
    have := opened _ ms hm
    cases hs : require (decide (slot.toNat ≤ 7)) Status.outOfRange with
    | err e => simp [hs] at this
    | ok u =>
      simp only [hs, Checked.andThen_ok, Checked.ok.injEq] at this
      refine ⟨[.cmd (setCgramCommand slot)] ++ pat.map Micro.data ++ [.cmd (setDdramCommand 0)], [], by simp [← this], ?_, by simp⟩
      intro k hk
      rcases List.mem_append.1 hk with hk | hk
      · rcases List.mem_append.1 hk with hk | hk
        · simp at hk; subst hk; rfl
        · exact (go _).1 k hk
      · simp at hk; subst hk; rfl
  case backlightSet v =>
    intro ms hm
    have := opened _ ms hm
    simp only [Checked.ok.injEq] at this
    exact ⟨[.set (.backlightOn v), .raw], [], by simp [← this], by simp [Micro.goesOn], by simp⟩
  all_goals
    intro ms hm
    have := opened _ ms hm
    simp only [Checked.ok.injEq] at this
    exact ⟨[.cmd _, .set (.dcf _)], [], by rw [← this]; rfl, by simp [Micro.goesOn], by simp⟩

end Sys2Proof
end

