-- ==== Sys2Proof/Tests/Slice0.lean ====
section
/-! SUPPORT. Tests with results from outside the model (spec/95_test_vectors.md, or a word written out from the spec's
encoding), and a witness for the hypotheses of each obligation. -/

namespace Sys2Proof.Tests

set_option Elab.async false

open Sys2Proof Sys2Proof.Machine

/-! ## Small states -/

/-- A session on a P16X2 display, as the spec's vectors take it, with `dcf` and the backlight given. -/
def session (dcf : BitVec 3) (bl : Bool) : Session :=
  { isOpen := true, periphAddr := 0x27, columns := 16, rows := 2, rowBase := ⟨0x00, 0x40, 0x10, 0x50⟩,
    dcf := dcf, emf := 0b10, backlightOn := bl }

/-- A session on a custom 20x4 display without backlight. -/
def session20x4 : Session :=
  { isOpen := true, periphAddr := 0x3F, columns := 20, rows := 4, rowBase := ⟨0x00, 0x40, 0x14, 0x54⟩,
    dcf := 0b100, emf := 0b10, backlightOn := false }

/-- A small session of two columns and one row. -/
def session2x1 : Session := { session 0b100 true with columns := 2, rows := 1 }

/-- A controller as INIT leaves it, at display address 0. -/
def display : Observer :=
  { Observer.unknown with
    pins := some 0xC8, ifw := .w4, phase := some .hi, space := some .ddram, ac := some 0
    disp := some 0b100, entryId := some true, entryS := some false, func := some 0b010 }

/-- An idle machine in this session, the bus answering `ok` to the first `n` draws and then as given. -/
def machine (r : Session) (n : Nat) (next : List BusAnswer) : State :=
  { State.reset with
    regs := r, env := { moves := [], answers := List.replicate n .ok ++ next, draws := 0 }, obs := display }

/-- The same machine with a closed session. -/
def closed (n : Nat) (next : List BusAnswer) : State := machine Session.reset n next

/-- A machine in the middle of a request. -/
def inRequest (held : Instr) (prog : List Micro) (n : Nat) (next : List BusAnswer) : State :=
  let s := machine (session 0b100 true) n next
  { s with seq := { s.seq with busy := true, request := some held, prog := prog } }

/-- A machine with these moves of the host waiting. -/
def waiting (moves : List HostMove) (s : State) : State := { s with env := { s.env with moves := moves } }

/-- The next state of an outcome. -/
def nextOf : Host.Outcome State Fault Refusal → Option State
  | .next t => some t
  | .fault _ => none
  | .refused _ => none

/-- The history behind an outcome, and the registers. -/
def seen (o : Host.Outcome State Fault Refusal) : Option (List Event) := (nextOf o).map (·.history)
def regsOf (o : Host.Outcome State Fault Refusal) : Option Session := (nextOf o).map (·.regs)
def obsOf (o : Host.Outcome State Fault Refusal) : Option Observer := (nextOf o).map (·.obs)

/-- The host presents a packet. -/
def present (p : List Byte) (s : State) : Host.Outcome State Fault Refusal := step (waiting [.request p none] s)

/-- `Wr(w)`, and the end of a request. -/
def wr (w : Byte) : Event := .wr w true
def done : Event := .rsp .ok []

/-! ## WellFormed refuses an ill-formed term at each check -/

theorem test_wf_set_line_too_long : WellFormed (.setLine 0 (List.replicate 256 0x20)) = false := by decide +kernel
theorem test_wf_put_string_too_long : WellFormed (.putString (List.replicate 256 0x20)) = false := by decide +kernel
theorem test_wf_glyph_of_seven_rows : WellFormed (.createCustomChar 0 (List.replicate 7 0)) = false := by decide
theorem test_wf_glyph_of_nine_rows : WellFormed (.createCustomChar 0 (List.replicate 9 0)) = false := by decide
theorem test_wf_string_at_the_limit : WellFormed (.putString (List.replicate 255 0x20)) = true := by decide +kernel

/-! ## Decoding, constructor by constructor: words written out from the encodings of spec/30_encoding.md -/

theorem test_decode_init :
    decode [0b00000001, 0b00100111, 0b10000000, 0, 0] = .ok (.init 0x27 0x80 0 0) := by decide
theorem test_decode_open :
    decode [0b00000010, 0b00111111, 0b01000000, 0b00010100, 0b00000100] = .ok (.openSession 0x3F 0x40 20 4) := by decide
theorem test_decode_teardown : decode [0b00000011] = .ok .teardown := by decide
theorem test_decode_clear : decode [0b00010000] = .ok .clear := by decide
theorem test_decode_home : decode [0b00010001] = .ok .home := by decide
theorem test_decode_clear_line : decode [0b00010010, 0b00000001] = .ok (.clearLine 1) := by decide
theorem test_decode_set_cursor : decode [0b00010011, 0b00000101, 0b00000001] = .ok (.setCursor 5 1) := by decide
theorem test_decode_set_line :
    decode [0b00010100, 0b00000010, 0b00000011, 0x41, 0x42, 0x43] = .ok (.setLine 2 [0x41, 0x42, 0x43]) := by decide
theorem test_decode_display : decode [0b00100001] = .ok (.display true) := by decide
theorem test_decode_cursor : decode [0b00100010] = .ok (.cursor false) := by decide
theorem test_decode_blink : decode [0b00100101] = .ok (.blink true) := by decide
theorem test_decode_backlight_set : decode [0b00100110] = .ok (.backlightSet false) := by decide
theorem test_decode_backlight_get : decode [0b00101000] = .ok .backlightGet := by decide
theorem test_decode_get_dimensions : decode [0b00101001] = .ok .getDimensions := by decide
theorem test_decode_put_char : decode [0b00110000, 0b01000001] = .ok (.putChar 0x41) := by decide
theorem test_decode_put_string :
    decode [0b00110001, 0b00000010, 0x48, 0x69] = .ok (.putString [0x48, 0x69]) := by decide
theorem test_decode_create_custom_char :
    decode [0b01000000, 0b00000111, 1, 2, 3, 4, 5, 6, 7, 8] = .ok (.createCustomChar 7 [1, 2, 3, 4, 5, 6, 7, 8]) := by decide
theorem test_encode_formatted_write_empty : encode (.formattedWrite []) = [0b00110001, 0b00000000] := by
  simp [encode, encodeWith, cutText, lenByte]
theorem test_decode_cmd_clear : decodeAs .lcd [0b00000001] = some .cmdClear := by decide
theorem test_decode_cmd_home : decodeAs .lcd [0b00000010] = some .cmdHome := by decide
theorem test_decode_cmd_entry : decodeAs .lcd [0b00000110] = some (.cmdEntry true false) := by decide
theorem test_decode_cmd_display : decodeAs .lcd [0b00001101] = some (.cmdDisplay true false true) := by decide
theorem test_decode_cmd_function : decodeAs .lcd [0b00101000] = some (.cmdFunction false true false) := by decide
theorem test_decode_cmd_set_cgram : decodeAs .lcd [0b01011000] = some (.cmdSetCgram 3) := by decide
theorem test_decode_cmd_set_ddram : decodeAs .lcd [0b11000101] = some (.cmdSetDdram 0x45) := by decide
theorem test_decode_nib_8bit : decodeAs .nibble [0b0011] = some .nib8Bit := by decide
theorem test_decode_nib_4bit : decodeAs .nibble [0b0010] = some .nib4Bit := by decide
theorem test_decode_data : decodeAs .lcdData [0b01000001] = some (.data 0x41) := by decide
theorem test_decode_xw : decodeAs .xw [0b10101101] = some (.xw 0xA true true true) := by decide
theorem test_decode_raw : decodeAs .raw [0b00001000] = some .raw := by decide
theorem test_decode_nib : decodeAs .xwPair [0b10101101, 0b10101001] = some (.nib 0xA true) := by decide
theorem test_decode_refuses_read_write_bit : decodeAs .xw [0b10101111] = none := by decide

/-- T70, T72 to T75, T80: undecodable packets. -/
theorem test_decode_rejects :
    decode [0x05] = .reject (.reservedOpcode 0x05) ∧ decode [0x00] = .reject (.reservedOpcode 0x00) ∧
    decode [0x13, 0x05] = .reject .wrongLength ∧ decode [0x10, 0x00] = .reject .wrongLength ∧
    decode [0x31, 0x03, 0x61, 0x62] = .reject .wrongLength ∧ decode [0x40, 0x00, 0x01, 0x02] = .reject .wrongLength ∧
    decode [] = .reject .emptyPacket := by decide

/-- The ends of the reserved ranges of R106, and the opcodes beside them. -/
theorem test_reserved_ranges :
    (∀ b ∈ [0x00#8, 0x04#8, 0x0F#8, 0x15#8, 0x1F#8, 0x2A#8, 0x2F#8, 0x32#8, 0x3F#8, 0x41#8, 0xFF#8], opcodeOf b = none) ∧
    ∀ b ∈ [0x01#8, 0x03#8, 0x10#8, 0x14#8, 0x20#8, 0x29#8, 0x30#8, 0x31#8, 0x40#8], opcodeOf b ≠ none := by decide

/-! ## Micro-operations (T1 to T15) -/

/-- T3, T14: NIB(0x3, 0), and its second write failing. -/
theorem test_nib_8bit : seen (exec .nib8Bit (machine (session 0 true) 2 [])) =
    some [wr 0x3C, .dl 1, wr 0x38, .dl 50] := by decide +kernel
theorem test_nib_8bit_fails : seen (exec .nib8Bit (machine (session 0 true) 1 [.fail true])) =
    some [wr 0x3C, .dl 1, .wr 0x38 false, .rsp .writeFailed []] := by decide +kernel

theorem test_nib_4bit : seen (exec .nib4Bit (machine (session 0 true) 2 [])) =
    some [wr 0x2C, .dl 1, wr 0x28, .dl 50] := by decide +kernel

/-- T6: NIB(0xF, 1). -/
theorem test_nib : seen (exec (.nib 0xF true) (machine (session 0 true) 2 [])) =
    some [wr 0xFD, .dl 1, wr 0xF9, .dl 50] := by decide +kernel

/-- T1, T2: RAW. -/
theorem test_raw_on : seen (exec .raw (machine (session 0 true) 1 [])) = some [wr 0x08] := by decide +kernel
theorem test_raw_off : seen (exec .raw (machine (session 0 false) 1 [])) = some [wr 0x00] := by decide +kernel

/-- A1: the word of nibble 0xA with every flag set. -/
theorem test_xw : seen (exec (.xw 0xA true true true) (machine (session 0 false) 1 [])) = some [wr 0xAD] := by decide +kernel

/-- T7, T15: CMD(0x28), and its third write failing. -/
theorem test_cmd_function : seen (exec (.cmdFunction false true false) (machine (session 0 true) 4 [])) =
    some [wr 0x2C, .dl 1, wr 0x28, .dl 50, wr 0x8C, .dl 1, wr 0x88, .dl 50] := by decide +kernel
theorem test_cmd_function_fails : seen (exec (.cmdFunction false true false) (machine (session 0 true) 2 [.fail false])) =
    some [wr 0x2C, .dl 1, wr 0x28, .dl 50, .wr 0x8C false, .rsp .writeFailed []] := by decide +kernel

/-- T9: DATA(0x41), stored by the controller at its address counter. -/
theorem test_data : seen (exec (.data 0x41) (machine (session 0 true) 4 [])) =
    some [wr 0x4D, .dl 1, wr 0x49, .dl 50, wr 0x1D, .dl 1, wr 0x19, .dl 50] := by decide +kernel
theorem test_data_stored : (obsOf (exec (.data 0x41) (machine (session 0 true) 4 []))).map (fun o => (o.ddram, o.ac)) =
    some ([(0, 0x41)], some 1) := by decide +kernel

/-- The low-nibble words of T35 and T43, and of commands 0x01, 0x02, 0x06, 0xC5, 0x58 (R85 to R91). -/
theorem test_cmd_clear : seen (exec .cmdClear (machine (session 0 true) 4 [])) =
    some [wr 0x0C, .dl 1, wr 0x08, .dl 50, wr 0x1C, .dl 1, wr 0x18, .dl 50] := by decide +kernel
theorem test_cmd_home : seen (exec .cmdHome (machine (session 0 true) 4 [])) =
    some [wr 0x0C, .dl 1, wr 0x08, .dl 50, wr 0x2C, .dl 1, wr 0x28, .dl 50] := by decide +kernel
theorem test_cmd_entry : seen (exec (.cmdEntry true false) (machine (session 0 true) 4 [])) =
    some [wr 0x0C, .dl 1, wr 0x08, .dl 50, wr 0x6C, .dl 1, wr 0x68, .dl 50] := by decide +kernel
theorem test_cmd_display : seen (exec (.cmdDisplay true false true) (machine (session 0 true) 4 [])) =
    some [wr 0x0C, .dl 1, wr 0x08, .dl 50, wr 0xDC, .dl 1, wr 0xD8, .dl 50] := by decide +kernel
theorem test_cmd_set_ddram : seen (exec (.cmdSetDdram 0x45) (machine (session 0 true) 4 [])) =
    some [wr 0xCC, .dl 1, wr 0xC8, .dl 50, wr 0x5C, .dl 1, wr 0x58, .dl 50] := by decide +kernel
theorem test_cmd_set_cgram : seen (exec (.cmdSetCgram 3) (machine (session 0 true) 4 [])) =
    some [wr 0x5C, .dl 1, wr 0x58, .dl 50, wr 0x8C, .dl 1, wr 0x88, .dl 50] := by decide +kernel

/-- T62: the slots 0 and 7. -/
theorem test_set_cgram_commands : setCgramCommand 0 = 0x40 ∧ setCgramCommand 7 = 0x78 := by decide

/-! ## Lifecycle (T20 to T27) -/

/-- T20: the whole history of INIT. -/
theorem test_init : seen (exec (.init 0x27 0x80 0 0) (closed 26 [])) = some (
    [.busOpen 0x27 true, .dl 50000, wr 0x08,
     wr 0x3C, .dl 1, wr 0x38, .dl 50, .dl 5000, wr 0x3C, .dl 1, wr 0x38, .dl 50, .dl 150,
     wr 0x3C, .dl 1, wr 0x38, .dl 50, .dl 150, wr 0x2C, .dl 1, wr 0x28, .dl 50] ++
    [wr 0x2C, .dl 1, wr 0x28, .dl 50, wr 0x8C, .dl 1, wr 0x88, .dl 50,
     wr 0x0C, .dl 1, wr 0x08, .dl 50, wr 0x8C, .dl 1, wr 0x88, .dl 50] ++
    [wr 0x0C, .dl 1, wr 0x08, .dl 50, wr 0x6C, .dl 1, wr 0x68, .dl 50,
     wr 0x0C, .dl 1, wr 0x08, .dl 50, wr 0xCC, .dl 1, wr 0xC8, .dl 50, done]) := by decide +kernel

/-- T20's registers. -/
theorem test_init_registers : regsOf (exec (.init 0x27 0x80 0 0) (closed 26 [])) = some (session 0b100 true) := by
  decide +kernel

/-- T23: the tenth write fails. -/
theorem test_init_fails : (nextOf (exec (.init 0x27 0x80 0 0) (closed 10 [.fail false]))).map
    (fun t => (t.history.drop 21, t.regs.isOpen)) =
    some ([.dl 50, .wr 0x2C false, .close, .rsp .writeFailed []], false) := by decide +kernel

/-- T22: the peripheral does not answer. -/
theorem test_open_unreachable : seen (exec (.openSession 0x27 0x80 0 0) (closed 0 [.fail false])) =
    some [.busOpen 0x27 false, .rsp .peripheralUnreachable []] := by decide +kernel

/-- T24: OPEN with a custom size. -/
theorem test_open : (nextOf (exec (.openSession 0x3F 0x40 20 4) (closed 1 []))).map (fun t => (t.history, t.regs)) =
    some ([.busOpen 0x3F true, done], session20x4) := by decide +kernel

/-- T25: what the creation checks refuse, and the nearest accepted inputs. -/
theorem test_creation_refusals :
    [(0x27#8, 0x40#8, 0#8, 2#8), (0x27, 0x40, 0x10, 0), (0x27, 0x40, 0x10, 5), (0x27, 0x40, 0x41, 2),
     (0x27, 0x40, 0x81, 1), (0x27, 0x04, 0, 0), (0xA7, 0, 0, 0), (0x27, 0x10, 0, 0), (0x27, 0, 0x10, 2),
     (0x27, 0x41, 0x10, 2)].map (fun p => createChecks p.1 p.2.1 p.2.2.1 p.2.2.2 (closed 0 [])) =
    List.replicate 10 (.err .invalidArgument) := by decide +kernel
theorem test_creation_accepts :
    [(0x40#8, 0x40#8, 2#8), (0x40, 0x80, 1), (0x03, 0, 0)].map (fun p => createChecks 0x27 p.1 p.2.1 p.2.2 (closed 0 [])) =
    [.ok ⟨64, 2, ⟨0x00, 0x40, 0x40, 0x00⟩⟩, .ok ⟨128, 1, ⟨0x00, 0x40, 0x00, 0x40⟩⟩, .ok ⟨20, 4, ⟨0x00, 0x40, 0x14, 0x54⟩⟩] := by
  decide +kernel

/-- T26: creation on an open session. -/
theorem test_init_open_session : seen (exec (.init 0x27 0x80 0 0) (machine (session 0b100 true) 26 [])) =
    some [.rsp .invalidArgument []] := by decide +kernel

/-- T27, T79: TEARDOWN of an open session, and of a closed one. -/
theorem test_teardown : (nextOf (exec .teardown (machine (session 0b100 true) 0 []))).map
    (fun t => (t.history, t.regs.isOpen)) = some ([.close, done], false) := by decide +kernel
theorem test_teardown_closed : seen (exec .teardown (closed 0 [])) = some [done] := by decide +kernel

/-! ## Addressing, display and text (T30 to T61) -/

/-- The decoder's table for P16X2. -/
theorem test_addr : [(0#8, 0#8), (15, 0), (0, 1), (15, 1), (16, 0), (0, 2), (255, 255)].map
    (fun p => addr (machine (session 0 true) 0 []) p.1 p.2) =
    [.ok 0x00, .ok 0x0F, .ok 0x40, .ok 0x4F, .err .outOfRange, .err .outOfRange, .err .outOfRange] := by decide

/-- T30, T34, T77. -/
theorem test_set_cursor : seen (exec (.setCursor 5 1) (machine (session 0 true) 4 [])) =
    some [wr 0xCC, .dl 1, wr 0xC8, .dl 50, wr 0x5C, .dl 1, wr 0x58, .dl 50, done] := by decide +kernel
theorem test_set_cursor_refused : seen (exec (.setCursor 16 0) (machine (session 0 true) 4 [])) = some [.rsp .outOfRange []] ∧
    seen (exec (.setCursor 255 255) (closed 4 [])) = some [.rsp .notInitialized []] := by decide +kernel

/-- T40, T42: CLEAR, and its fourth write failing. -/
theorem test_clear : seen (exec .clear (machine (session 0 true) 4 [])) =
    some [wr 0x0C, .dl 1, wr 0x08, .dl 50, wr 0x1C, .dl 1, wr 0x18, .dl 50, .dl 1600, done] := by decide +kernel
theorem test_clear_fails : seen (exec .clear (machine (session 0 true) 3 [.fail true])) =
    some [wr 0x0C, .dl 1, wr 0x08, .dl 50, wr 0x1C, .dl 1, .wr 0x18 false, .rsp .writeFailed []] := by decide +kernel

/-- T41: HOME. -/
theorem test_home : seen (exec .home (machine (session 0 true) 4 [])) =
    some [wr 0x0C, .dl 1, wr 0x08, .dl 50, wr 0x2C, .dl 1, wr 0x28, .dl 50, .dl 1600, done] := by decide +kernel

/-- T44: BLINK 1 from 0b100, CURSOR 0 from 0b111 with its third write failing, DISPLAY 0 from 0b110. -/
theorem test_blink : (nextOf (exec (.blink true) (machine (session 0b100 true) 4 []))).map
    (fun t => (t.history.drop 4, t.regs.dcf)) = some ([wr 0xDC, .dl 1, wr 0xD8, .dl 50, done], 0b101) := by decide +kernel
theorem test_cursor_fails : (nextOf (exec (.cursor false) (machine (session 0b111 true) 2 [.fail false]))).map
    (fun t => (t.history, t.regs.dcf)) =
    some ([wr 0x0C, .dl 1, wr 0x08, .dl 50, .wr 0xDC false, .rsp .writeFailed []], 0b111) := by decide +kernel
theorem test_display : (nextOf (exec (.display false) (machine (session 0b110 true) 4 []))).map
    (fun t => (t.history.drop 4, t.regs.dcf, t.obs.disp)) =
    some ([wr 0xAC, .dl 1, wr 0xA8, .dl 50, done], 0b010, some 0b010) := by decide +kernel

/-- T45, T46: BACKLIGHT_SET, and its write failing. -/
theorem test_backlight_set : (nextOf (exec (.backlightSet false) (machine (session 0 true) 1 []))).map
    (fun t => (t.history, t.regs.backlightOn)) = some ([wr 0x00, done], false) := by decide +kernel
theorem test_backlight_set_fails : (nextOf (exec (.backlightSet true) (machine (session 0 false) 0 [.fail false]))).map
    (fun t => (t.history, t.regs.backlightOn)) = some ([.wr 0x08 false, .rsp .writeFailed []], true) := by decide +kernel

/-- T47: the getters. -/
theorem test_backlight_get : seen (exec .backlightGet (machine (session 0 false) 0 [])) = some [.rsp .ok [0x00]] := by
  decide +kernel
theorem test_get_dimensions : seen (exec .getDimensions (machine session20x4 0 [])) = some [.rsp .ok [0x14, 0x04]] := by
  decide +kernel

/-- T47, A3's refusal and T46: the response packets the host receives. -/
theorem test_response_packets :
    (nextOf (exec .getDimensions (machine session20x4 0 []))).map (fun t => responses t.history) = some [[0x00, 0x14, 0x04]] ∧
    (nextOf (exec (.setCursor 16 0) (machine (session 0 true) 4 []))).map (fun t => responses t.history) = some [[0x05]] ∧
    (nextOf (exec (.backlightSet true) (machine (session 0 false) 0 [.fail false]))).map (fun t => responses t.history) =
      some [[0x02]] := by decide +kernel

/-- T50: PUT_CHAR. -/
theorem test_put_char : seen (exec (.putChar 0x41) (machine (session 0 true) 4 [])) =
    some [wr 0x4D, .dl 1, wr 0x49, .dl 50, wr 0x1D, .dl 1, wr 0x19, .dl 50, done] := by decide +kernel

/-- T53, T52: PUT_STRING with its seventh write failing, and the empty string. -/
theorem test_put_string_fails : seen (exec (.putString [0x61, 0x62, 0x63]) (machine (session 0 true) 6 [.fail true])) =
    some [wr 0x6D, .dl 1, wr 0x69, .dl 50, wr 0x1D, .dl 1, wr 0x19, .dl 50, wr 0x6D, .dl 1, wr 0x69, .dl 50,
      .wr 0x2D false, .rsp .writeFailed []] := by decide +kernel
theorem test_put_string_empty : seen (exec (.putString []) (machine (session 0 true) 0 [])) = some [done] := by
  decide +kernel

/-- The counts of T55 and of A5, and the line A5 leaves. -/
theorem test_clear_line : (seen (exec (.clearLine 1) (machine (session 0 true) 68 []))).map
    (fun h => (h.take 5, writeCount h, minDelay h)) =
    some ([wr 0xCC, .dl 1, wr 0xC8, .dl 50, wr 0x0C], 68, 1734) := by decide +kernel
theorem test_clear_line_refused : seen (exec (.clearLine 2) (machine (session 0 true) 68 [])) =
    some [.rsp .outOfRange []] := by decide +kernel
theorem test_set_line : (nextOf (exec (.setLine 0 [0x41, 0x42, 0x43]) (machine (session 0 true) 68 []))).map
    (fun t => (writeCount t.history, minDelay t.history, t.obs.ddram)) =
    some (68, 1734, [(0, 0x41), (1, 0x42), (2, 0x43)] ++ (List.range 13).map fun k => (3 + k, 0x20)) := by decide +kernel

/-- T58: the string is longer than the line. -/
theorem test_set_line_cut : (nextOf (exec (.setLine 0 [0x41, 0x42, 0x43]) (machine session2x1 12 []))).map
    (fun t => (writeCount t.history, t.obs.ddram)) = some (12, [(0, 0x41), (1, 0x42)]) := by decide +kernel

/-- T60, T61: the slot out of range, and the glyph the observer holds. -/
theorem test_create_custom_char_refused : seen (exec (.createCustomChar 8 [0, 0, 0, 0, 0, 0, 0, 0])
    (machine (session 0 true) 40 [])) = some [.rsp .outOfRange []] := by decide +kernel
theorem test_create_custom_char : (nextOf (exec (.createCustomChar 0 [0x0E, 0x1B, 0x11, 0x11, 0x11, 0x11, 0x1F, 0x00])
    (machine (session 0 true) 40 []))).map (fun t => (writeCount t.history, minDelay t.history, t.obs.cgram, t.obs.ac)) =
    some (40, 1020, [(0, 0x0E), (1, 0x1B), (2, 0x11), (3, 0x11), (4, 0x11), (5, 0x11), (6, 0x1F), (7, 0x00)], some 0) := by
  decide +kernel

/-- R194: no text, whatever FMT_CAP. -/
theorem test_formatted_write_empty : seen (exec (.formattedWrite []) (machine (session 0 true) 0 [])) = some [done] := by
  rw [show exec (.formattedWrite []) (machine (session 0 true) 0 []) =
    exec (.putString []) (machine (session 0 true) 0 []) by simp [exec, execFormattedWrite, execPutString, cutText]]
  exact test_put_string_empty

/-! ## Steps -/

/-- T71, T80: an undecodable packet, a session closed. -/
theorem test_step_undecodable : seen (present [0x05] (closed 0 [])) = some [.rsp .invalidArgument []] ∧
    seen (present [] (closed 0 [])) = some [.rsp .invalidArgument []] := by decide +kernel

/-- T76: a request on a closed session, through its packet. -/
theorem test_step_request : seen (present [0x13, 0x05, 0x01] (closed 0 [])) = some [.rsp .notInitialized []] := by decide +kernel

/-- R242: a reset behind the first word of a byte: that word, nothing more, no response. -/
theorem test_step_reset_in_request : (nextOf (step (waiting [.request [0x30, 0x41] (some 1)] (machine (session 0 true) 4 [])))).map
    (fun t => (t.history, t.regs.isOpen, t.obs.pins)) = some ([wr 0x4D], false, none) := by decide +kernel

/-- Words of the opcode table placed on the reset machine: CLEAR, and the two readings of log 24. -/
theorem test_fetch_request : seen (step (State.reset.withFetchWord 8 0x10)) = some [.rsp .notInitialized []] := by decide +kernel
theorem test_fetch_decodes : decodeTableWord 8 0x10 = some .clear ∧ decodeTableWord 8 0x08 = some (.cmdDisplay false false false) ∧
    decodeTableWord 8 0x80 = some (.cmdSetDdram 0) ∧ decodeTableWord 8 0x00 = some (.xw 0 false false false) := by
  decide +kernel
theorem test_fetch_micro : seen (step ((machine (session 0 true) 4 []).withFetchWord 8 0x0D)) =
    some [wr 0x0C, .dl 1, wr 0x08, .dl 50, wr 0xDC, .dl 1, wr 0xD8, .dl 50] := by decide +kernel

/-! ## Witnesses: states and operands that meet the hypotheses of each obligation, clause by clause -/

theorem answersOk_of {s : State} {n k : Nat} {next : List BusAnswer}
    (he : s.env.answers = List.replicate n .ok ++ next) (hd : s.env.draws = 0) (h : k ≤ n) : AnswersOk s k := by
  intro j hj
  have : j < n := by omega
  simp [State.answerAt, he, hd, List.getElem?_append, this]

theorem failsFirstAt_of {s : State} {n : Nat} {b : Bool}
    (he : s.env.answers = List.replicate n .ok ++ [.fail b]) (hd : s.env.draws = 0) : FailsFirstAt s n b := by
  refine ⟨answersOk_of he hd (Nat.le_refl n), ?_⟩
  simp [State.answerAt, he, hd]

theorem of_seen {o : Host.Outcome State Fault Refusal} {h : List Event} (e : seen o = some h) :
    ∃ t, o = .next t ∧ t.history = h := by
  cases o with
  | next t => exact ⟨t, rfl, by simpa [seen, nextOf] using e⟩
  | fault f => simp [seen, nextOf] at e
  | refused r => simp [seen, nextOf] at e

theorem inStep_display : InStep display := ⟨rfl, rfl, 0xC8, rfl, by decide⟩

/-- The P16X2 machine with the first `n` answers `ok`, and with the first failure behind them. -/
abbrev open16 (n : Nat) : State := machine (session 0b100 true) n []
abbrev open16Fails (n : Nat) (landed : Bool) : State := machine (session 0b100 true) n [.fail landed]

/-- The hypotheses of `MicroRunsAs` and of `RunsAs` at the first and at the last write of a byte transfer. -/
theorem witness_runs_byte (bl : Bool) (v : Byte) (rs : Bool) :
    AnswersOk (open16 4) (drawCount (byteEvents bl v rs)) ∧
    (∃ before w rest, byteEvents bl v rs = before ++ .wr w true :: rest ∧ drawCount before = 0 ∧
      FailsFirstAt (open16Fails 0 false) (drawCount before) false) ∧
    ∃ before w rest, byteEvents bl v rs = before ++ .wr w true :: rest ∧ drawCount before = 3 ∧
      FailsFirstAt (open16Fails 3 true) (drawCount before) true :=
  ⟨answersOk_of (n := 4) rfl rfl (Nat.le_refl 4), ⟨[], _, _, rfl, rfl, failsFirstAt_of rfl rfl⟩,
    ⟨_ :: _ :: _ :: _ :: _ :: _ :: [], _, _, rfl, rfl, failsFirstAt_of rfl rfl⟩⟩

theorem witness_ResetClosesAndIdles :
    (waiting [.reset] (open16 0)).seq.busy = false ∧ (waiting [.reset] (open16 0)).env.moves = .reset :: [] := ⟨rfl, rfl⟩

theorem witness_IdleStepServesTheDecodedRequest :
    ((waiting [.request [0x10] none] (open16 4)).seq.busy = false ∧
      (waiting [.request [0x10] none] (open16 4)).env.moves = [.request [0x10] none] ∧ decode [0x10] = .ok .clear) ∧
    State.reset.seq.busy = false ∧ State.reset.env.moves = [] := ⟨⟨rfl, rfl, by decide⟩, rfl, rfl⟩

theorem witness_BusyStepRunsTheNextMicroOperation :
    (inRequest .clear [.cmd 0x01, .respond []] 4 []).seq.busy = true ∧ NoReset (inRequest .clear [.cmd 0x01, .respond []] 4 []) ∧
    (inRequest .clear [.cmd 0x01, .respond []] 4 []).seq.prog = [.cmd 0x01, .respond []] ∧
    microOf .cmdClear = some (.cmd 0x01) := ⟨rfl, fun _ h => by simp [inRequest, machine, State.reset] at h, rfl, rfl⟩

theorem witness_PlacedWordRunsNext :
    decodeTableWord 8 0x10 = some .clear ∧ decode (tablePacket 8 0x10) = .ok .clear ∧
    decodeTableWord 8 0x80 = some (.cmdSetDdram 0) ∧ decode (tablePacket 8 0x80) = .reject (.reservedOpcode 0x80) := by
  decide +kernel

theorem witness_UndecodablePacketsDoNothing :
    Ready (waiting [.request [0x13, 0x05] none] (open16 0)) ∧
    (waiting [.request [0x13, 0x05] none] (open16 0)).env.moves = [.request [0x13, 0x05] none] ∧
    decode [0x13, 0x05] = .reject .wrongLength := ⟨rfl, rfl, by decide⟩

theorem witness_OpcodeMapAsTheSpecGivesIt :
    (List.replicate 255 (0x41 : Byte)).length ≤ 255 ∧ ([] : List Byte).length ≤ 255 ∧
    ([0, 1, 2, 3, 4, 5, 6, 7] : List Byte).length = 8 :=
  ⟨Nat.le_of_eq (List.length_replicate ..), Nat.zero_le _, rfl⟩

theorem witness_DecodeInvertsEncode :
    WellFormed (.setLine 1 [0x41]) = true ∧ isRequest (.setLine 1 [0x41]) = true ∧
    (∀ t, Instr.setLine 1 [0x41] ≠ .formattedWrite t) ∧ decode [0x14, 1, 1, 0x41] = .ok (.setLine 1 [0x41]) := by
  refine ⟨by decide, by decide, fun t => by simp, by decide⟩

theorem witness_MicroRowsDecodeInTheirFormat :
    isRequest .raw = false ∧ isRequest (.nib 0xF true) = false ∧ isRequest (.cmdSetDdram 0x7F) = false := by decide

theorem witness_WordsAreWriteOnlyAndCarryTheBacklight :
    ∃ t, exec (.putChar 0x41) (open16 4) = .next t ∧ Event.wr 0x4D true ∈ t.history := by
  obtain ⟨t, h, e⟩ := of_seen (o := exec (.putChar 0x41) (open16 4))
    (h := [wr 0x4D, .dl 1, wr 0x49, .dl 50, wr 0x1D, .dl 1, wr 0x19, .dl 50, done]) (by decide +kernel)
  exact ⟨t, h, by simp [e, wr]⟩

/-- `NibbleTransfer`, `RawWord`, `DataTransfer`, `CommandRowsSendTheirByte`, `XwRowIsOneBusWrite`: a machine that no reset
reaches, in a request and between two, an INIT among them. -/
theorem witness_MicroRows :
    (open16 4).seq.resetAt = none ∧ (inRequest (.init 0x27 0x80 0 0) [] 4 []).seq.resetAt = none ∧
    holdsInit (inRequest (.init 0x27 0x80 0 0) [] 4 []) = true ∧ holdsInit (open16 4) = false ∧
    (open16 4).obs.pins = some 0xC8 := by decide

theorem witness_NibbleTransfer :
    AnswersOk (open16 2) (drawCount (nibEvents true 0x3 false)) ∧
    nibEvents true 0x3 false = [.wr 0x3C true, .dl 1] ++ .wr 0x38 true :: [.dl 50] ∧
    FailsFirstAt (open16Fails 1 true) (drawCount [.wr 0x3C true, .dl 1]) true :=
  ⟨answersOk_of (n := 2) rfl rfl (Nat.le_refl 2), by decide, failsFirstAt_of (n := 1) rfl rfl⟩

theorem witness_RawWord :
    AnswersOk (open16 1) (drawCount [.wr 0x08 true]) ∧ FailsFirstAt (open16Fails 0 false) (drawCount []) false ∧
    AnswersOk (open16 1) 1 :=
  ⟨answersOk_of (n := 1) rfl rfl (Nat.le_refl 1), failsFirstAt_of (n := 0) rfl rfl, answersOk_of (n := 1) rfl rfl (Nat.le_refl 1)⟩

/-- The operands of INIT and OPEN: a preset, and a custom size at the edge of WF_CFG (T25's nearest accepted inputs). -/
theorem configNames_preset : ConfigNames 0x27 0x80 0 0 ⟨16, 2, ⟨0x00, 0x40, 0x10, 0x50⟩⟩ where
  addrReserved := by decide
  cfgReserved := by decide
  preset := fun _ => by decide
  custom := by decide
  wf := ⟨by decide, by decide, by decide, by decide⟩

theorem configNames_custom : ConfigNames 0x27 0x40 0x40 2 ⟨64, 2, ⟨0x00, 0x40, 0x40, 0x00⟩⟩ where
  addrReserved := by decide
  cfgReserved := by decide
  preset := by decide
  custom := fun _ => by decide
  wf := ⟨by decide, by decide, by decide, by decide⟩

theorem not_configNames : ¬ ∃ g, ConfigNames 0x27 0x04 0 0 g := by
  rintro ⟨g, h⟩
  exact absurd (h.preset (by decide)).2.2 (by simp [Config.PRESETS])

/-- `InitRuns`, `InitConverges`, `OpenRuns`: a closed machine with 26 answers `ok`, with `BusOpen` failing, with the first
and with the last write failing, with refused operands; an open one. -/
theorem witness_InitRuns :
    Ready (closed 26 []) ∧ (closed 26 []).regs.isOpen = false ∧ AnswersOk (closed 26 []) 26 ∧
    (closed 0 [.fail false]).answer = .fail false ∧ (closed 1 []).answer = .ok ∧
    (open16 0).regs.isOpen = true ∧ Ready (open16 0) ∧
    initEvents true = [.dl 50000] ++ .wr 0x08 true :: (initEvents true).drop 2 ∧
    FailsFirstAt (closed 1 [.fail true]) (1 + drawCount [.dl 50000]) true ∧
    initEvents true = (initEvents true).take 51 ++ .wr 0xC8 true :: [.dl 50] ∧
    FailsFirstAt (closed 25 [.fail true]) (1 + drawCount ((initEvents true).take 51)) true := by
  refine ⟨rfl, rfl, answersOk_of (n := 26) rfl rfl (Nat.le_refl _), rfl, rfl, rfl, rfl, by decide, failsFirstAt_of (n := 1) rfl rfl,
    by decide, ?_⟩
  have : drawCount ((initEvents true).take 51) = 24 := by decide
  rw [this]
  exact failsFirstAt_of (n := 25) rfl rfl

theorem witness_TeardownRuns : Ready (open16 0) ∧ (open16 0).regs.isOpen = true ∧ Ready (closed 0 []) ∧
    (closed 0 []).regs.isOpen = false := ⟨rfl, rfl, rfl, rfl⟩

theorem witness_OnlyCreationIsUnreachable :
    isRequest (.openSession 0x27 0x80 0 0) = true ∧ Ready (closed 0 [.fail false]) ∧
    ∃ t evs, exec (.openSession 0x27 0x80 0 0) (closed 0 [.fail false]) = .next t ∧
      t.history = (closed 0 [.fail false]).history ++ evs ∧ .rsp .peripheralUnreachable [] ∈ evs := by
  obtain ⟨t, h, e⟩ := of_seen test_open_unreachable
  exact ⟨by decide, rfl, t, _, h, e, by simp⟩

/-- `ModesOfTheSession`, `ExactlyOneResponse`, `ClosedSessionRefuses`: requests of each kind, on either side. -/
theorem witness_ModesOfTheSession :
    isRequest .clear = true ∧ needsOpen .clear = true ∧ createsSession (.init 0x27 0x80 0 0) = true ∧
    isRequest (.init 0x27 0x80 0 0) = true ∧ isRequest .teardown = true ∧
    Ready (open16 4) ∧ (open16 4).regs.isOpen = true ∧ Ready (closed 4 []) ∧ (closed 4 []).regs.isOpen = false := by
  refine ⟨by decide, by decide, by decide, by decide, by decide, rfl, rfl, rfl, rfl⟩

/-- `OutOfRangeRefuses`, `SetCursorRuns`, `ClearLineRuns`, `SetLineRuns`: the bounds of a P16X2 display, from both sides. -/
theorem witness_bounds :
    Ready (open16 4) ∧ (open16 4).regs.isOpen = true ∧
    (open16 4).regs.rows.toNat ≤ (2 : Byte).toNat ∧ (open16 4).regs.columns.toNat ≤ (16 : Byte).toNat ∧
    (1 : Byte).toNat < (open16 4).regs.rows.toNat ∧ (15 : Byte).toNat < (open16 4).regs.columns.toNat ∧
    0 < (open16 4).regs.columns.toNat ∧ 7 < (8 : Byte).toNat ∧ (7 : Byte).toNat ≤ 7 ∧
    (machine Session.reset 0 []).regs.columns.toNat = 0 := by
  refine ⟨rfl, rfl, by decide, by decide, by decide, by decide, by decide, by decide, by decide, by decide⟩

theorem witness_InvalidArgumentCases :
    Ready (open16 26) ∧ (open16 26).regs.isOpen = true ∧
    ∃ t evs, exec (.init 0x27 0x80 0 0) (open16 26) = .next t ∧ t.history = (open16 26).history ++ evs ∧
      .rsp .invalidArgument [] ∈ evs := by
  obtain ⟨t, h, e⟩ := of_seen test_init_open_session
  exact ⟨rfl, rfl, t, _, h, e, by simp⟩

/-- `StateAfterEachError`: each of the five errors. -/
theorem witness_StateAfterEachError :
    (∃ t, exec (.init 0x27 0x80 0 0) (open16 26) = .next t ∧ t.history = [] ++ [] ++ [.rsp .invalidArgument []]) ∧
    (∃ t, exec (.setCursor 255 255) (closed 4 []) = .next t ∧ t.history = [] ++ [] ++ [.rsp .notInitialized []]) ∧
    (∃ t, exec (.setCursor 16 0) (machine (session 0 true) 4 []) = .next t ∧ t.history = [] ++ [] ++ [.rsp .outOfRange []]) ∧
    (∃ t, exec (.openSession 0x27 0x80 0 0) (closed 0 [.fail false]) = .next t ∧
      t.history = [] ++ [.busOpen 0x27 false] ++ [.rsp .peripheralUnreachable []]) ∧
    (machine (session 0 false) 0 [.fail false]).regs.isOpen = true ∧
    ∃ t, exec (.backlightSet true) (machine (session 0 false) 0 [.fail false]) = .next t ∧
      t.history = [] ++ [.wr 0x08 false] ++ [.rsp .writeFailed []] :=
  ⟨of_seen test_init_open_session, of_seen test_set_cursor_refused.2, of_seen test_set_cursor_refused.1,
    of_seen test_open_unreachable, rfl, of_seen (by decide +kernel)⟩

theorem witness_BusyPortAcceptsNothing :
    (waiting [.request [0x10] none] (inRequest .home [.cmd 0x02, .respond []] 4 [])).seq.busy = true ∧
    (waiting [.request [0x10] none] (inRequest .home [.cmd 0x02, .respond []] 4 [])).env.moves = [.request [0x10] none] ∧
    (∃ t, step (waiting [.request [0x10] none] (inRequest .home [.cmd 0x02, .respond []] 4 [])) = .next t) ∧
    isRequest .clear = true := ⟨rfl, rfl, ⟨_, rfl⟩, by decide⟩

theorem witness_RowAddressDecoder :
    (1 : Byte).toNat < (open16 0).regs.rows.toNat ∧ (15 : Byte).toNat < (open16 0).regs.columns.toNat ∧
    wfCfg (open16 0).regs.columns.toNat (open16 0).regs.rows.toNat (open16 0).regs.rowBase = true ∧
    addr (open16 0) 15 1 = .ok 0x4F ∧ (open16 0).regs.rows.toNat ≤ (2 : Byte).toNat := by decide

/-- `SetCursorRuns`, `ClearRuns`, `HomeRuns`, `FlagRequestsRun`, `BacklightSetRuns`, `GettersRead`, `PutCharRuns`,
`PutStringRuns`, `FormattedWriteRuns`, `CreateCustomCharRuns`: both modes, a controller in step, a low enable pin. -/
theorem witness_requests :
    Ready (open16 4) ∧ (open16 4).regs.isOpen = true ∧ InStep (open16 4).obs ∧ AnswersOk (open16 4) 4 ∧
    AnswersOk (open16 4) 1 ∧ (open16 4).obs.pins = some 0xC8 ∧ (0xC8 : Byte).getLsbD 2 = false ∧
    Ready (closed 4 []) ∧ (closed 4 []).regs.isOpen = false :=
  ⟨rfl, rfl, inStep_display, answersOk_of (n := 4) rfl rfl (by decide), answersOk_of (n := 4) rfl rfl (by decide), rfl, by decide, rfl, rfl⟩

theorem witness_FlagRequestsRun :
    (Instr.cursor true = .cursor true ∧ (0b010 : BitVec 3) = 0b010) ∧
    (0b110 : BitVec 3) = (if true then (open16 4).regs.dcf ||| 0b010 else (open16 4).regs.dcf &&& ~~~0b010) := by decide

theorem witness_LatchingAndAssembly :
    display.pins = some 0xC8 ∧ display.ifw = .w4 ∧ display.phase = some .hi ∧
    ({ display with phase := some (.lo 0xA) } : Observer).phase = some (.lo 0xA) := by decide

/-- One command byte at each end of each clause of R73's table. -/
theorem witness_CommandsActByHighestBit :
    InStep display ∧ (0x80 : Byte).getLsbD 7 = true ∧ (0xFF : Byte).getLsbD 7 = true ∧
    (0x40 : Byte).extractLsb' 6 2 = 0b01#2 ∧ (0x7F : Byte).extractLsb' 6 2 = 0b01#2 ∧
    (0x20 : Byte).extractLsb' 5 3 = 0b001#3 ∧ (0x3F : Byte).extractLsb' 5 3 = 0b001#3 ∧
    (0x08 : Byte).extractLsb' 3 5 = 0b00001#5 ∧ (0x0F : Byte).extractLsb' 3 5 = 0b00001#5 ∧
    (0x04 : Byte).extractLsb' 2 6 = 0b000001#6 ∧ (0x07 : Byte).extractLsb' 2 6 = 0b000001#6 ∧
    (0x02 : Byte).extractLsb' 1 7 = 0b0000001#7 ∧ (0x03 : Byte).extractLsb' 1 7 = 0b0000001#7 :=
  ⟨inStep_display, by decide, by decide, by decide, by decide, by decide, by decide, by decide, by decide, by decide, by decide,
    by decide, by decide⟩

/-- The same display with the address counter elsewhere. -/
def at_ (sp : Space) (a : Addr) (n : Nat) : State :=
  { open16 n with obs := { display with space := some sp, ac := some a } }

/-- `DataIsStoredAtTheCounter`: a cell at each end of both lines, an address outside, glyph memory. -/
theorem witness_DataIsStoredAtTheCounter :
    ∀ a ∈ [0x00#7, 0x27#7, 0x40#7, 0x67#7, 0x28#7, 0x7F#7], ∀ sp ∈ [Space.ddram, Space.cgram],
      (at_ sp a 4).seq.resetAt = none ∧ AnswersOk (at_ sp a 4) 4 ∧ InStep (at_ sp a 4).obs ∧ (at_ sp a 4).obs.ac = some a ∧
      (at_ sp a 4).obs.entryId = some true ∧ (at_ sp a 4).obs.space = some sp ∧ (at_ sp a 4).obs.func = some 0b010 :=
  fun a _ sp _ => ⟨rfl, answersOk_of (n := 4) rfl rfl (by decide), ⟨rfl, rfl, 0xC8, rfl, by decide⟩, rfl, rfl, rfl, rfl⟩

theorem sessionInv_open16 (n : Nat) : SessionInv (open16 n).regs :=
  fun _ => ⟨show wfCfg 16 2 ⟨0x00, 0x40, 0x10, 0x50⟩ = true by decide, rfl⟩

theorem witness_CharacterLandsAtTheCursor :
    Ready (open16 8) ∧ (open16 8).regs.isOpen = true ∧ SessionInv (open16 8).regs ∧ InStep (open16 8).obs ∧
    (open16 8).obs.entryId = some true ∧ AnswersOk (open16 8) 8 ∧ (1 : Byte).toNat < (open16 8).regs.rows.toNat ∧
    (15 : Byte).toNat < (open16 8).regs.columns.toNat ∧
    (0x4F : Addr).toNat = (rowBaseAt (open16 8).regs.rowBase (1 : Byte).toNat).toNat + (15 : Byte).toNat :=
  ⟨rfl, rfl, sessionInv_open16 8, inStep_display, rfl, answersOk_of (n := 8) rfl rfl (by decide), by decide, by decide, by decide⟩

/-- A string that ends with each of the three stretches, and one that begins with the second and the third. -/
theorem witness_StringRunsOnFromTheCounter : ∀ a ∈ [0x26#7, 0x28#7, 0x66#7, 0x68#7, 0x7E#7],
    Ready (at_ .ddram a 8) ∧ (at_ .ddram a 8).regs.isOpen = true ∧ AtDisplay (at_ .ddram a 8).obs a ∧
    AnswersOk (at_ .ddram a 8) (4 * ([0x48, 0x69] : List Byte).length) ∧
    (a.toNat + ([0x48, 0x69] : List Byte).length ≤ 0x28 ∨
      (0x28 ≤ a.toNat ∧ a.toNat + ([0x48, 0x69] : List Byte).length ≤ 0x68) ∨
      (0x68 ≤ a.toNat ∧ a.toNat + ([0x48, 0x69] : List Byte).length ≤ 0x80)) := by
  intro a ha
  refine ⟨rfl, rfl, ⟨⟨rfl, rfl, 0xC8, rfl, by decide⟩, rfl, rfl, rfl⟩, answersOk_of (n := 8) rfl rfl (by decide), ?_⟩
  revert a; decide

/-- A line of each stretch: `row_base` 0x00 and 0x40, and 0x70. -/
theorem witness_LineIsOverwritten :
    (∀ line ∈ [0x00#8, 0x01#8],
    Ready (open16 68) ∧ (open16 68).regs.isOpen = true ∧ InStep (open16 68).obs ∧ (open16 68).obs.entryId = some true ∧
    AnswersOk (open16 68) (4 * (1 + (open16 68).regs.columns.toNat)) ∧ line.toNat < (open16 68).regs.rows.toNat ∧
    0 < (open16 68).regs.columns.toNat ∧
    ((rowBaseAt (open16 68).regs.rowBase line.toNat).toNat + (open16 68).regs.columns.toNat ≤ 0x28 ∨
      (0x28 ≤ (rowBaseAt (open16 68).regs.rowBase line.toNat).toNat ∧
        (rowBaseAt (open16 68).regs.rowBase line.toNat).toNat + (open16 68).regs.columns.toNat ≤ 0x68))) ∧
    0x68 ≤ (rowBaseAt ⟨0x70, 0, 0, 0⟩ 0).toNat ∧ (rowBaseAt ⟨0x70, 0, 0, 0⟩ 0).toNat + (open16 68).regs.columns.toNat ≤ 0x80 := by
  refine ⟨?_, by decide⟩
  intro line hl
  have h : line.toNat < (open16 68).regs.rows.toNat := by revert line; decide
  refine ⟨rfl, rfl, inStep_display, rfl, answersOk_of (n := 68) rfl rfl (by decide), h, by decide, ?_⟩
  revert line; decide

theorem witness_GlyphIsStored :
    Ready (open16 40) ∧ (open16 40).regs.isOpen = true ∧ InStep (open16 40).obs ∧ (open16 40).obs.entryId = some true ∧
    AnswersOk (open16 40) 40 ∧ (7 : Byte).toNat ≤ 7 ∧ ([1, 2, 3, 4, 5, 6, 7, 8] : List Byte).length = 8 :=
  ⟨rfl, rfl, inStep_display, rfl, answersOk_of (n := 40) rfl rfl (by decide), by decide, rfl⟩

theorem witness_FailedWriteLosesThePosition :
    Ready (machine (session 0 false) 0 [.fail false]) ∧
    ∃ t, exec (.backlightSet true) (machine (session 0 false) 0 [.fail false]) = .next t ∧
      t.history = [] ++ [.wr 0x08 false, .rsp .writeFailed []] :=
  ⟨rfl, of_seen (by decide +kernel)⟩

/-- A machine whose display has lost its phase. -/
def lost (w : IfWidth) : State := { open16 4 with obs := { display with phase := none, ifw := w } }

theorem witness_LostPhaseStaysLost : ∀ w ∈ [IfWidth.w4, .unknown 0, .unknown 1],
    needsOpen (.setCursor 3 0) = true ∧ Ready (lost w) ∧ (lost w).regs.isOpen = true ∧ PhaseLost (lost w).obs ∧
    ∃ t, exec (.setCursor 3 0) (lost w) = .next t := by
  intro w hw
  refine ⟨by decide, rfl, rfl, ⟨rfl, ?_⟩, ⟨_, rfl⟩⟩
  simpa [lost] using hw

/-- The observer of the tests is in order. -/
theorem observerInv_display : ObserverInv display :=
  ⟨by simp [display, Observer.unknown, Memory.wf], by simp [display, Observer.unknown],
    by simp [display, Observer.unknown, Memory.wf], by simp [display, Observer.unknown],
    fun p h => by simp only [display, Option.some.injEq] at h; subst h; decide⟩

theorem witness_StepKeepsTheInvariant :
    Inv (waiting [.request [0x10] (some 3)] (open16 4)) ∧
    ∃ t, step (waiting [.request [0x10] (some 3)] (open16 4)) = .next t :=
  ⟨⟨rfl, sessionInv_open16 4, observerInv_display⟩, ⟨_, rfl⟩⟩

theorem witness_StepKeepsTheBusInOrder :
    BusInv (inRequest .home [.word 0x28, .respond []] 4 []) ∧
    ∃ t, step (inRequest .home [.word 0x28, .respond []] 4 []) = .next t := by
  refine ⟨⟨observerInv_display, fun w hw => ?_⟩, ⟨_, rfl⟩⟩
  simp only [inRequest, List.mem_cons, Micro.word.injEq, reduceCtorEq, List.not_mem_nil, or_false] at hw
  subst hw
  decide

theorem witness_OnlyOwnersWriteRegisters :
    Ready (open16 4) ∧ ∃ t, exec (.display false) (open16 4) = .next t := ⟨rfl, _, rfl⟩

theorem witness_ClosedRegistersCannotBeSeen :
    SameButHidden (waiting [.request [0x10] none] (closed 4 []))
      { waiting [.request [0x10] none] (closed 4 []) with regs := { session 0b101 true with isOpen := false } } ∧
    (waiting [.request [0x10] none] (closed 4 [])).seq.busy = false ∧
    ∃ t, step (waiting [.request [0x10] none] (closed 4 [])) = .next t :=
  ⟨.inr ⟨rfl, _, rfl, rfl⟩, rfl, ⟨_, rfl⟩⟩

theorem witness_ResetAbandonsTheRequest :
    (waiting [.reset] (inRequest .home [.cmd 0x02, .respond []] 4 [])).seq.busy = true ∧
    (waiting [.reset] (inRequest .home [.cmd 0x02, .respond []] 4 [])).env.moves = .reset :: [] ∧
    isRequest .home = true ∧ Ready (open16 4) := ⟨rfl, rfl, by decide, rfl⟩

theorem witness_SteppingServesTheWholeRequest :
    isRequest .home = true ∧ (open16 4).seq.busy = false ∧ NoReset (open16 4) ∧ ∃ t, exec .home (open16 4) = .next t :=
  ⟨by decide, rfl, fun _ h => by simp [machine, State.reset] at h, ⟨_, rfl⟩⟩

theorem witness_WriteCountsAndMinimumDelays :
    isRequest .home = true ∧ WellFormed .home = true ∧ Ready (machine (session 0 true) 4 []) ∧
    (∃ t, exec .home (machine (session 0 true) 4 []) = .next t ∧ t.history = (machine (session 0 true) 4 []).history ++
      [wr 0x0C, .dl 1, wr 0x08, .dl 50, wr 0x2C, .dl 1, wr 0x28, .dl 50, .dl 1600] ++ [.rsp .ok []]) ∧
    isRequest .raw = false ∧ (open16 1).seq.resetAt = none ∧ AnswersOk (open16 1) (costOf .raw (open16 1)).1 :=
  ⟨by decide, by decide, rfl, of_seen test_home, by decide, rfl, answersOk_of (n := 1) rfl rfl (by decide)⟩

theorem witness_DelayLastsItsCycles :
    (inRequest .home [.loadDelay 1600, .waitDelay 1600, .respond []] 0 []).seq.busy = true ∧
    NoReset (inRequest .home [.loadDelay 1600, .waitDelay 1600, .respond []] 0 []) ∧
    (inRequest .home [.loadDelay 1600, .waitDelay 1600, .respond []] 0 []).seq.resetAt = none ∧
    (inRequest .home [.loadDelay 1600, .waitDelay 1600, .respond []] 0 []).seq.prog =
      .loadDelay 1600 :: .waitDelay 1600 :: [.respond []] ∧
    0 ≤ Config.delayCycles 1600 ∧ Config.delayCycles 1600 ≤ Config.delayCycles 1600 :=
  ⟨rfl, fun _ h => by simp [inRequest, machine, State.reset] at h, rfl, rfl, Nat.zero_le _, Nat.le_refl _⟩

theorem witness_ControllerBytesEverSent :
    Micro.cmd 0x28 ∈ requestProgram (.init 0x27 0x80 0 0) (closed 26 []) ∧
    Micro.nib 0x2 false ∈ requestProgram (.init 0x27 0x80 0 0) (closed 26 []) ∧
    Micro.cmd 0x78 ∈ requestProgram (.createCustomChar 7 []) (open16 0) ∧
    Micro.cmd 0xCF ∈ requestProgram (.setCursor 15 1) (open16 0) := by decide +kernel

end Sys2Proof.Tests
end

/-! SUPPORT. What a step takes and what serving it can do: the equations of the idle and the busy step, and the one
inversion of a micro-operation and of a micro-program that the proofs about the state cite. -/

namespace Sys2Proof

open Machine

/-! ## The idle step, move by move (spec/10_state.md R32) -/

theorem step_idle {s : State} (hb : s.seq.busy = false) : step s = stepIdle s := by simp [step, hb]

theorem step_idle_nil {s : State} (hb : s.seq.busy = false) (hm : s.env.moves = []) : step s = .next s := by
  simp [step_idle hb, stepIdle, hm]

theorem step_idle_reset {s : State} {rest : List HostMove} (hb : s.seq.busy = false) (hm : s.env.moves = .reset :: rest) :
    step s = .next (hardwareReset { s with env := { s.env with moves := rest } }) := by
  simp [step_idle hb, stepIdle, hm]

/-- The state with a packet taken from the request port, with the reset position `r` that comes with it. -/
def takePacket (r : Option Nat) (rest : List HostMove) (s : State) : State :=
  { s with env := { s.env with moves := rest }, seq := { s.seq with resetAt := r } }

/-- The request a packet puts into the sequencer; none for an undecodable one (spec/30_encoding.md R106). -/
def packetRequest (p : List Byte) : Option Instr :=
  match decode p with
  | .ok i => some (heldRequest i)
  | .reject _ => none

/-- The micro-program of a packet. -/
def packetProgram (p : List Byte) (s : State) : List Micro :=
  match decode p with
  | .ok i => requestProgram i s
  | .reject _ => [.raise .invalidArgument]

/-- The state in which a micro-program that is run for a request ends. -/
def served (held : Option Instr) (ms : List Micro) (s : State) : State := (runAll ms (accept held ms s)).state

/-- The operands of an opcode make a request, never a micro-operation row (spec/30_encoding.md R99, R100). -/
theorem readOperands_isRequest (op : Opcode) (v : Bool) (rest : List Byte) :
    (readOperands op v rest).all isRequest = true := by
  cases op
  case setLine =>
    rcases rest with _ | ⟨line, _ | ⟨len, s⟩⟩
    · rfl
    · rfl
    · show (if s.length = len.toNat then some (Instr.setLine line s) else none).all isRequest = true
      split <;> rfl
  case putString =>
    rcases rest with _ | ⟨len, s⟩
    · rfl
    · show (if s.length = len.toNat then some (Instr.putString s) else none).all isRequest = true
      split <;> rfl
  case createCustomChar =>
    rcases rest with _ | ⟨slot, pat⟩
    · rfl
    · show (if pat.length = 8 then some (Instr.createCustomChar slot pat) else none).all isRequest = true
      split <;> rfl
  all_goals rcases rest with _ | ⟨a, _ | ⟨b, _ | ⟨c, _ | ⟨d, _ | ⟨e, l⟩⟩⟩⟩⟩ <;> rfl

theorem decode_isRequest {p : List Byte} {i : Instr} (h : decode p = .ok i) : isRequest i = true := by
  cases p with
  | nil => cases h
  | cons b rest =>
    simp only [decode] at h
    cases ho : opcodeOf b with
    | none => simp [ho] at h
    | some op =>
      have hr := readOperands_isRequest op (b.getLsbD 0) rest
      cases hi : readOperands op (b.getLsbD 0) rest with
      | none => simp only [ho, hi, reduceCtorEq] at h
      | some j =>
        simp only [ho, hi, Decoded.ok.injEq] at h
        rwa [hi, h] at hr

theorem exec_eq_served {i : Instr} {s : State} (hi : isRequest i = true) (hb : s.seq.busy = false) :
    exec i s = .next (served (some (heldRequest i)) (requestProgram i s) s) := by
  simp [exec_request hi, hb, served]

/-- A request that is not refused found the sequencer idle. -/
theorem eq_served_of_exec {i : Instr} {s t : State} (hi : isRequest i = true) (h : exec i s = .next t) :
    t = served (some (heldRequest i)) (requestProgram i s) s := by
  rw [exec_request hi] at h
  split at h
  · cases h
  · cases h; rfl

theorem servePacket_eq_served (p : List Byte) {s : State} (hb : s.seq.busy = false) :
    servePacket p s = .next (served (packetRequest p) (packetProgram p s) s) := by
  unfold servePacket packetRequest packetProgram
  cases hd : decode p with
  | ok i => exact exec_eq_served (decode_isRequest hd) hb
  | reject e => simp [serveUndecodable, serve, hb, served]

theorem step_idle_request {s : State} {p : List Byte} {r : Option Nat} {rest : List HostMove} (hb : s.seq.busy = false)
    (hm : s.env.moves = .request p r :: rest) :
    step s = .next (served (packetRequest p) (packetProgram p s) (takePacket r rest s)) := by
  have hp : packetProgram p (takePacket r rest s) = packetProgram p s := by
    unfold packetProgram
    cases decode p with
    | ok i => cases i <;> rfl
    | reject e => rfl
  rw [← hp, ← servePacket_eq_served p (s := takePacket r rest s) hb]
  simp [step_idle hb, stepIdle, hm, takePacket]

/-- Every packet's micro-program is a request's or the raise of R106. -/
theorem packetProgram_cases (p : List Byte) (s : State) :
    (∃ i, isRequest i = true ∧ packetRequest p = some (heldRequest i) ∧ packetProgram p s = requestProgram i s) ∨
    (packetRequest p = none ∧ packetProgram p s = [.raise .invalidArgument]) := by
  unfold packetRequest packetProgram
  cases hd : decode p with
  | ok i => exact .inl ⟨i, decode_isRequest hd, rfl, rfl⟩
  | reject e => exact .inr ⟨rfl, rfl⟩

/-! ## The busy step (R33) -/

/-- The state with `p` left of the micro-program. -/
def withProg (p : List Micro) (s : State) : State := { s with seq := { s.seq with prog := p } }

/-- A `Delay` whose counter has not run down and that no reset drops. -/
def Waiting (s : State) : Prop := s.seq.delayCtr ≠ 0 ∧ s.seq.resetAt ≠ some s.seq.upc

/-- One cycle less on the delay counter. -/
def tick (s : State) : State := { s with seq := { s.seq with delayCtr := s.seq.delayCtr - 1 } }

theorem stepMicro_waiting {s : State} (n : Nat) (ms : List Micro) (h : Waiting s) :
    stepMicro (.waitDelay n) ms s = tick s := if_pos h

theorem stepMicro_waited {s : State} (n : Nat) (ms : List Micro) (h : ¬ Waiting s) :
    stepMicro (.waitDelay n) ms s = ((Micro.waitDelay n).run (withProg ms s)).state := if_neg h

theorem stepMicro_run {m : Micro} (hm : ∀ n, m ≠ .waitDelay n) (ms : List Micro) (s : State) :
    stepMicro m ms s = (m.run (withProg ms s)).state := by
  cases m
  case waitDelay n => exact absurd rfl (hm n)
  all_goals rfl

/-- All the next micro-operation can do in one step: a cycle of a `Delay`, or the whole of it. -/
theorem stepMicro_cases (m : Micro) (ms : List Micro) (s : State) :
    stepMicro m ms s = tick s ∨ stepMicro m ms s = (m.run (withProg ms s)).state := by
  by_cases hm : ∃ n, m = .waitDelay n
  · obtain ⟨n, rfl⟩ := hm
    by_cases h : Waiting s
    · exact .inl (stepMicro_waiting n ms h)
    · exact .inr (stepMicro_waited n ms h)
  · exact .inr (stepMicro_run (fun n e => hm ⟨n, e⟩) ms s)

theorem step_busy {s : State} {m : Micro} {ms : List Micro} (hb : s.seq.busy = true) (hn : NoReset s)
    (hp : s.seq.prog = m :: ms) : step s = .next (stepMicro m ms s) := by
  simp only [step, hb, if_true, stepBusy]
  split
  · rename_i rest hm
    exact absurd hm (hn rest)
  all_goals simp only [hp]

theorem step_busy_underrun {s : State} (hb : s.seq.busy = true) (hn : NoReset s) (hp : s.seq.prog = []) :
    step s = .fault .sequencerUnderrun := by
  simp only [step, hb, if_true, stepBusy]
  split
  · rename_i rest hm
    exact absurd hm (hn rest)
  all_goals simp only [hp]

/-! ## All a micro-operation can do -/

/-- `t` is a state of the request in progress in `s`, with the same registers. -/
structure GoneOn (s t : State) : Prop where
  regs    : t.regs = s.regs
  busy    : t.seq.busy = s.seq.busy
  request : t.seq.request = s.seq.request
  resetAt : t.seq.resetAt = s.seq.resetAt
  moves   : t.env.moves = s.env.moves

theorem GoneOn.refl (s : State) : GoneOn s s := ⟨rfl, rfl, rfl, rfl, rfl⟩

theorem GoneOn.trans {s t u : State} (h : GoneOn s t) (k : GoneOn t u) : GoneOn s u :=
  ⟨k.regs.trans h.regs, k.busy.trans h.busy, k.request.trans h.request, k.resetAt.trans h.resetAt, k.moves.trans h.moves⟩

/-- The end of the request in progress in `s`: by a reset, by a raise or by its response (R33, spec/60_exceptions.md R214). -/
inductive Ended (s : State) : State → Prop where
  | reset {t : State} (hr : s.seq.resetAt ≠ none) (h : GoneOn s t) : Ended s (abandon t)
  | raise {t : State} (e : Status) (h : GoneOn s t) : Ended s (raise e t)
  | respond {t : State} (d : List Byte) (h : GoneOn s t) : Ended s (respond .ok d t)

theorem Ended.of_goneOn {s t u : State} (h : GoneOn s t) (k : Ended t u) : Ended s u := by
  cases k with
  | reset hr k => exact .reset (h.resetAt ▸ hr) (h.trans k)
  | raise e k => exact .raise e (h.trans k)
  | respond d k => exact .respond d (h.trans k)

theorem Ended.seq {s u : State} (h : Ended s u) : u.seq = Sequencer.idle := by
  cases h <;> simp

theorem Ended.moves {s u : State} (h : Ended s u) : u.env.moves = s.env.moves := by
  cases h with
  | reset _ k => simp [k.moves]
  | raise e k => simp [k.moves]
  | respond d k => simp [k.moves]

/-- The registers a raise leaves: only a failed write inside INIT closes the session (spec/41_init_lifecycle.md R145). -/
theorem raise_regs (e : Status) (s : State) :
    (raise e s).regs = s.regs ∨ (holdsInit s = true ∧ (raise e s).regs = { s.regs with isOpen := false }) := by
  by_cases he : e = .writeFailed
  · subst he
    simp only [raise, State.onWriteFailed, respond_regs]
    split
    · rename_i hq
      exact .inr ⟨by simp only [holdsInit, hq], rfl⟩
    · exact .inl rfl
  · exact .inl (by rw [raise_eq_respond e he]; rfl)

theorem GoneOn.holdsInit {s t : State} (h : GoneOn s t) : holdsInit t = holdsInit s := by
  simp only [Sys2Proof.holdsInit, h.request]

/-- The registers the end of a request leaves. -/
theorem Ended.regs {s u : State} (h : Ended s u) :
    (s.seq.resetAt ≠ none ∧ u.regs = Session.reset) ∨ u.regs = s.regs ∨
      (holdsInit s = true ∧ u.regs = { s.regs with isOpen := false }) := by
  cases h with
  | reset hr k => exact .inl ⟨hr, rfl⟩
  | respond d k => exact .inr (.inl k.regs)
  | @raise t e k => exact .inr (by rw [← k.regs, ← k.holdsInit]; exact raise_regs e t)

/-- A step of the sequencer goes on from `s` or ends the request of `s`. -/
abbrev OnOrEnded (s : State) (x : Flow) : Prop := Flow.Holds (GoneOn s) (Ended s) x

theorem holds_unlessReset {P : State → Prop} {s t : State} {f : State → Flow} (h : GoneOn s t)
    (hf : Flow.Holds P (Ended s) (f t)) : Flow.Holds P (Ended s) (unlessReset t f) := by
  unfold unlessReset
  split
  · rename_i hr
    exact .reset (by simp [← h.resetAt, hr]) h
  · exact hf

theorem onOrEnded_busWrite {s t : State} (w : Byte) (h : GoneOn s t) : OnOrEnded s (busWrite w t) := by
  refine holds_unlessReset h ?_
  cases t.answer with
  | ok => exact h.trans ⟨rfl, rfl, rfl, rfl, rfl⟩
  | fail landed => exact .raise _ (h.trans ⟨rfl, rfl, rfl, rfl, rfl⟩)

theorem onOrEnded_loadDelay {s t : State} (n : Nat) (h : GoneOn s t) : OnOrEnded s (Machine.loadDelay n t) :=
  holds_unlessReset h (h.trans ⟨rfl, rfl, rfl, rfl, rfl⟩)

theorem onOrEnded_waitDelay {s t : State} (n : Nat) (h : GoneOn s t) : OnOrEnded s (Machine.waitDelay n t) :=
  holds_unlessReset h (h.trans ⟨rfl, rfl, rfl, rfl, rfl⟩)

theorem onOrEnded_delay {s t : State} (n : Nat) (h : GoneOn s t) : OnOrEnded s (delay n t) :=
  (onOrEnded_loadDelay n h).andThen fun _ hu => onOrEnded_waitDelay n hu

theorem onOrEnded_nibOp {s t : State} (n : Nibble) (rs : Bool) (h : GoneOn s t) : OnOrEnded s (nibOp n rs t) :=
  (onOrEnded_busWrite _ h).andThen fun _ h1 => (onOrEnded_delay _ h1).andThen fun _ h2 =>
    (onOrEnded_busWrite _ h2).andThen fun _ h3 => onOrEnded_delay _ h3

theorem onOrEnded_byteOp {s t : State} (v : Byte) (rs : Bool) (h : GoneOn s t) : OnOrEnded s (byteOp v rs t) :=
  (onOrEnded_nibOp _ rs h).andThen fun _ hu => onOrEnded_nibOp _ rs hu

/-- One micro-operation: it goes on with its own register write and nothing else of the block changed, or the request is over. -/
theorem micro_onOrEnded (m : Micro) (s : State) :
    Flow.Holds (GoneOn { s with regs := Micro.regsAfter m s.regs }) (Ended s) (m.run s) := by
  have h := GoneOn.refl s
  cases m with
  | busOpen a =>
    show Flow.Holds _ _ (Machine.busOpen a s)
    refine holds_unlessReset h ?_
    cases s.answer with
    | ok => exact ⟨rfl, rfl, rfl, rfl, rfl⟩
    | fail landed => exact Ended.raise _ ⟨rfl, rfl, rfl, rfl, rfl⟩
  | busClose =>
    show Flow.Holds _ _ (Machine.busClose s)
    exact holds_unlessReset h ⟨rfl, rfl, rfl, rfl, rfl⟩
  | word w => exact onOrEnded_busWrite w h
  | raw => exact onOrEnded_busWrite _ h
  | nib n rs => exact onOrEnded_nibOp n rs h
  | cmd v => exact onOrEnded_byteOp v false h
  | data v => exact onOrEnded_byteOp v true h
  | loadDelay n => exact onOrEnded_loadDelay n h
  | waitDelay n => exact onOrEnded_waitDelay n h
  | set w =>
    show Flow.Holds _ _ (setOp w s)
    exact holds_unlessReset h ⟨rfl, rfl, rfl, rfl, rfl⟩
  | raise e => exact holds_unlessReset (f := fun s => .done (Machine.raise e s)) h (Ended.raise e h)
  | respond d => exact holds_unlessReset (f := fun s => .done (Machine.respond .ok d s)) h (Ended.respond d h)

/-- A micro-program: it goes on with its register writes made, or the request ends behind a beginning `pre` of it. -/
theorem runAll_onOrEnded (ms : List Micro) (s : State) :
    Flow.Holds (GoneOn { s with regs := regsAfterAll ms s.regs })
      (fun u => ∃ pre, pre <+: ms ∧ Ended { s with regs := regsAfterAll pre s.regs } u) (runAll ms s) := by
  induction ms generalizing s with
  | nil => exact GoneOn.refl s
  | cons m ms ih =>
    have hm := micro_onOrEnded m s
    rw [runAll]
    cases hx : m.run s with
    | done u => exact ⟨[], List.nil_prefix, by rwa [hx] at hm⟩
    | go t =>
      rw [hx] at hm
      have on : ∀ l, GoneOn { s with regs := regsAfterAll (m :: l) s.regs } { t with regs := regsAfterAll l t.regs } :=
        fun l => ⟨congrArg (regsAfterAll l) hm.regs, hm.busy, hm.request, hm.resetAt, hm.moves⟩
      have := ih t
      rw [Flow.andThen_go]
      cases hy : runAll ms t with
      | go u => rw [hy] at this; exact (on ms).trans this
      | done u =>
        rw [hy] at this
        obtain ⟨pre, hpre, he⟩ := this
        exact ⟨m :: pre, by simpa using hpre, he.of_goneOn (on pre)⟩

/-- A request's micro-program runs to the end of the request. -/
theorem runAll_requestProgram_done {i : Instr} (hi : isRequest i = true) (s t : State) :
    ∃ u, runAll (requestProgram i s) t = .done u := by
  obtain ⟨⟨ms, m, hms, hm, -⟩, -⟩ := requestProgram_shape i hi s
  rw [hms]
  exact runAll_done ms m hm t

theorem runAll_packetProgram_done (p : List Byte) (s t : State) : ∃ u, runAll (packetProgram p s) t = .done u := by
  rcases packetProgram_cases p s with ⟨i, hi, -, h⟩ | ⟨-, h⟩ <;> rw [h]
  · exact runAll_requestProgram_done hi s t
  · exact runAll_done [] _ rfl t

/-- Where a micro-program that runs to its end leaves the block: the request over behind a beginning `pre` of it. -/
theorem served_ended {held : Option Instr} {ms : List Micro} {s : State}
    (hd : ∃ u, runAll ms (accept held ms s) = .done u) :
    ∃ pre, pre <+: ms ∧ Ended { accept held ms s with regs := regsAfterAll pre s.regs } (served held ms s) := by
  obtain ⟨u, hu⟩ := hd
  have := runAll_onOrEnded ms (accept held ms s)
  rw [hu] at this
  rw [served, hu]
  exact this

end Sys2Proof

/-! SUPPORT. Which register writes stand in which micro-program, and what a micro-program's writes keep. -/

namespace Sys2Proof

open Machine

/-! ## The register writes of the requests (spec/10_state.md R20) -/

/-- What every register write of a micro-program keeps, the micro-program keeps. -/
theorem regsAfterAll_keeps {I : Session → Prop} {ms : List Micro}
    (hw : ∀ w, Micro.set w ∈ ms → ∀ r, I r → I (r.write w)) {r : Session} (hr : I r) : I (regsAfterAll ms r) := by
  induction ms generalizing r with
  | nil => exact hr
  | cons m ms ih =>
    refine ih (fun w h => hw w (List.mem_cons_of_mem _ h)) ?_
    cases m with
    | set w => exact hw w (List.mem_cons_self ..) r hr
    | _ => exact hr

/-- A register write of a checked micro-program stands behind a check that passed: an error raises and writes nothing. -/
theorem set_mem_andThen {α : Type} {c : Checked α} {f : α → Checked (List Micro)} {w : RegWrite}
    (h : .set w ∈ (c.andThen f).program) : ∃ a, .set w ∈ (f a).program := by
  cases c with
  | ok a => exact ⟨a, h⟩
  | err e => simp at h

/-- The checks of session creation: they let through the size the operands name on a closed session, or raise
INVALID_ARGUMENT (spec/41_init_lifecycle.md R140). -/
theorem createChecks_cases (a c x y : Byte) (s : State) :
    (∃ g, s.regs.isOpen = false ∧ ConfigNames a c x y g ∧ createChecks a c x y s = .ok g) ∨
    createChecks a c x y s = .err .invalidArgument := by
  by_cases hbad : s.regs.isOpen = true ∨ ¬ ∃ g, ConfigNames a c x y g
  · exact .inr (createChecks_err hbad)
  · obtain ⟨ho, g, hg⟩ := not_or.1 hbad |>.imp Bool.eq_false_iff.2 not_not.1
    exact .inl ⟨g, ho, hg, createChecks_ok ho hg⟩

/-- The micro-program of a request that creates a session of the size `g`: `CREATE`, for INIT the initialization, and at the
end the session opened (spec/41_init_lifecycle.md R141, R142). -/
def creationProgram (a c : Byte) (g : Geometry) (mid : List Micro) : List Micro :=
  createSteps a c g ++ mid ++ [.set (.isOpen true), .respond []]

/-- INIT and OPEN refuse, or create a session on a closed one. -/
theorem requestProgram_creates {i : Instr} (hi : createsSession i = true) (s : State) :
    requestProgram i s = [.raise .invalidArgument] ∨
    ∃ a c x y g mid, s.regs.isOpen = false ∧ ConfigNames a c x y g ∧ (mid = [] ∨ mid = initSteps) ∧
      requestProgram i s = creationProgram a c g mid := by
  have hprogram : ∃ a c x y mid, (mid = [] ∨ mid = initSteps) ∧ requestProgram i s =
      ((createChecks a c x y s).andThen fun g => .ok (creationProgram a c g mid)).program := by
    cases i
    case init a c x y => exact ⟨a, c, x, y, initSteps, .inr rfl, rfl⟩
    case openSession a c x y => exact ⟨a, c, x, y, [], .inl rfl, by simp [requestProgram, openProgram, creationProgram]⟩
    all_goals cases hi
  obtain ⟨a, c, x, y, mid, hmid, hp⟩ := hprogram
  rcases createChecks_cases a c x y s with ⟨g, ho, hg, hc⟩ | hc <;> rw [hc] at hp
  · exact .inr ⟨a, c, x, y, g, mid, ho, hg, hmid, hp⟩
  · exact .inl hp

/-- R20's table of writers, as the register writes that stand in the micro-programs. -/
theorem set_mem_requestProgram {i : Instr} {w : RegWrite} {s : State} (h : .set w ∈ requestProgram i s) :
    (createsSession i = true ∧ s.regs.isOpen = false) ∨ (i = .teardown ∧ w = .isOpen false) ∨
    (∃ v d, (i = .display v ∨ i = .cursor v ∨ i = .blink v) ∧ w = .dcf d) ∨
    ∃ v, i = .backlightSet v ∧ w = .backlightOn v := by
  by_cases hc : createsSession i = true
  · rcases requestProgram_creates hc s with hp | ⟨-, -, -, -, -, -, ho, -⟩
    · simp [hp] at h
    · exact .inl ⟨hc, ho⟩
  cases i
  case init | openSession => exact absurd rfl hc
  case teardown =>
    cases ho : s.regs.isOpen with
    | false => simp [requestProgram, teardownProgram, ho] at h
    | true => exact .inr (.inl ⟨rfl, by simpa [requestProgram, teardownProgram, ho] using h⟩)
  case display v =>
    obtain ⟨_, h⟩ := set_mem_andThen h
    exact .inr (.inr (.inl ⟨v, _, .inl rfl, by simpa using h⟩))
  case cursor v =>
    obtain ⟨_, h⟩ := set_mem_andThen h
    exact .inr (.inr (.inl ⟨v, _, .inr (.inl rfl), by simpa using h⟩))
  case blink v =>
    obtain ⟨_, h⟩ := set_mem_andThen h
    exact .inr (.inr (.inl ⟨v, _, .inr (.inr rfl), by simpa using h⟩))
  case backlightSet v =>
    obtain ⟨_, h⟩ := set_mem_andThen h
    exact .inr (.inr (.inr ⟨v, rfl, by simpa using h⟩))
  case clear | home =>
    obtain ⟨_, h⟩ := set_mem_andThen h
    simp [delaySteps] at h
  case backlightGet | getDimensions | putChar | putString | formattedWrite =>
    obtain ⟨_, h⟩ := set_mem_andThen h
    simp at h
  case setCursor | setLine | clearLine | createCustomChar =>
    obtain ⟨_, h⟩ := set_mem_andThen h
    obtain ⟨_, h⟩ := set_mem_andThen h
    simp at h
  all_goals simp [requestProgram] at h

end Sys2Proof

/-! SUPPORT. The registers' owners, the busy block and the reset state. -/

namespace Sys2Proof

open Machine

/-! ## The registers a request leaves -/

/-- Where a request leaves the block: its registers are those behind a beginning of its micro-program, with the session
closed where an INIT failed, unless a reset cut it off. -/
theorem exec_request_regs {i : Instr} {s t : State} (hi : isRequest i = true) (h : exec i s = .next t) :
    (s.seq.resetAt ≠ none ∧ t.regs = Session.reset) ∨
    ∃ pre, pre <+: requestProgram i s ∧
      (t.regs = regsAfterAll pre s.regs ∨
        createsSession i = true ∧ t.regs = { regsAfterAll pre s.regs with isOpen := false }) := by
  obtain ⟨pre, hpre, he⟩ :=
    served_ended (held := some (heldRequest i)) (runAll_requestProgram_done hi s (accept (some (heldRequest i)) _ s))
  rw [← eq_served_of_exec hi h] at he
  rcases he.regs with hr | hr | ⟨hinit, hr⟩
  · exact .inl hr
  · exact .inr ⟨pre, hpre, .inl hr⟩
  · refine .inr ⟨pre, hpre, .inr ⟨?_, hr⟩⟩
    cases i
    case init => rfl
    all_goals cases hinit

/-- What every register write of a request keeps, and for INIT and OPEN the closing of the session, the request keeps when
no reset comes. -/
theorem exec_request_keeps {I : Session → Prop} {i : Instr} {s t : State} (hi : isRequest i = true) (hr : Ready s)
    (h : exec i s = .next t) (hw : ∀ w, Micro.set w ∈ requestProgram i s → ∀ r, I r → I (r.write w))
    (hc : createsSession i = true → ∀ r, I r → I { r with isOpen := false }) (hs : I s.regs) : I t.regs := by
  rcases exec_request_regs hi h with ⟨hreset, -⟩ | ⟨pre, hpre, ht⟩
  · exact absurd (by rw [hr]; rfl) hreset
  · have hp : I (regsAfterAll pre s.regs) := regsAfterAll_keeps (fun w hm => hw w (hpre.subset hm)) hs
    rcases ht with ht | ⟨hcr, ht⟩ <;> rw [ht]
    · exact hp
    · exact hc hcr _ hp

theorem isRequest_or_microOf (i : Instr) : isRequest i = true ∨ ∃ m, microOf i = some m := by
  cases i <;> simp [isRequest, formatOf, microOf]

/-- A micro-operation row writes no register. -/
theorem regsAfter_of_microOf {i : Instr} {m : Micro} (h : microOf i = some m) (r : Session) : Micro.regsAfter m r = r := by
  cases i <;> simp only [microOf, Option.some.injEq, reduceCtorEq] at h <;> subst h <;> rfl

/-- On an idle block without a reset a micro-operation row leaves the registers as they are. -/
theorem exec_micro_regs {i : Instr} {m : Micro} {s t : State} (hm : microOf i = some m) (hr : Ready s)
    (h : exec i s = .next t) : t.regs = s.regs := by
  have hon := micro_onOrEnded m s
  rw [exec_micro hm] at h
  cases h
  cases hx : m.run s with
  | go u =>
    rw [hx] at hon
    exact hon.regs.trans (regsAfter_of_microOf hm _)
  | done u =>
    rw [hx] at hon
    rcases Ended.regs hon with ⟨hreset, -⟩ | hu | ⟨hinit, -⟩
    · exact absurd (by rw [hr]; rfl) hreset
    · exact hu
    · simp [holdsInit, show s.seq = Sequencer.idle from hr] at hinit

/-! ## The owners of the registers -/

/-- Any instruction that does not create a session, on an idle block without a reset, keeps what the writes of R20's table
keep. -/
theorem exec_keeps {I : Session → Prop} {i : Instr} {s t : State} (hr : Ready s) (h : exec i s = .next t)
    (hcreate : ¬ (createsSession i = true ∧ s.regs.isOpen = false))
    (hclose : createsSession i = true ∨ i = .teardown → ∀ r, I r → I { r with isOpen := false })
    (hdcf : (∃ v, i = .display v ∨ i = .cursor v ∨ i = .blink v) → ∀ d r, I r → I { r with dcf := d })
    (hbl : ∀ v, i = .backlightSet v → ∀ r, I r → I { r with backlightOn := v }) (hs : I s.regs) : I t.regs := by
  rcases isRequest_or_microOf i with hi | ⟨m, hm⟩
  · refine exec_request_keeps hi hr h (fun w hw r => ?_) (fun hc => hclose (.inl hc)) hs
    rcases set_mem_requestProgram hw with hc | ⟨hi, rfl⟩ | ⟨v, d, hi, rfl⟩ | ⟨v, hi, rfl⟩
    · exact absurd hc hcreate
    · exact hclose (.inr hi) r
    · exact hdcf ⟨v, hi⟩ d r
    · exact hbl v hi r
  · rwa [exec_micro_regs hm hr h]

/-- Settles O54: a register keeps its value under every write that is not its owner's. -/
theorem onlyOwnersWriteRegisters : Obligations.OnlyOwnersWriteRegisters := by
  unfold Obligations.OnlyOwnersWriteRegisters
  intro i s t hr h
  have kept := @exec_keeps (i := i) (s := s) (t := t) (hr := hr) (h := h)
  refine ⟨fun hne => ?_, fun hne => ?_, fun hne => ?_, fun hne => ?_⟩ <;> by_contra hno
  · exact hne (kept (I := fun r => r.isOpen = s.regs.isOpen) (fun hc => hno (.inl hc.1)) (fun hc => absurd hc hno)
      (fun _ _ _ hr => hr) (fun _ _ _ hr => hr) rfl)
  · have := kept (I := fun r => r.periphAddr = s.regs.periphAddr ∧ r.columns = s.regs.columns ∧ r.rows = s.regs.rows ∧
      r.rowBase = s.regs.rowBase ∧ r.emf = s.regs.emf) hno (fun _ _ hr => hr) (fun _ _ _ hr => hr) (fun _ _ _ hr => hr)
      ⟨rfl, rfl, rfl, rfl, rfl⟩
    tauto
  · exact hne (kept (I := fun r => r.dcf = s.regs.dcf) (fun hc => hno (.inl hc)) (fun _ _ hr => hr)
      (fun hi => absurd (.inr hi) hno) (fun _ _ _ hr => hr) rfl)
  · have := kept (I := fun r => r.backlightOn = s.regs.backlightOn ∨ ∃ v, i = .backlightSet v ∧ r.backlightOn = v)
      (fun hc => hno (.inl hc)) (fun _ _ hr => hr) (fun _ _ _ hr => hr) (fun v hi _ _ => .inr ⟨v, hi, rfl⟩) (.inl rfl)
    exact this.elim hne fun hset => hno (.inr hset)

/-! ## The busy block -/

theorem microOf_ne_waitDelay {i : Instr} {m : Micro} (h : microOf i = some m) (n : Nat) : m ≠ .waitDelay n := by
  cases i <;> simp only [microOf, Option.some.injEq, reduceCtorEq] at h <;> subst h <;> simp

/-- Settles O3: a row's micro-operation is no wait, so the busy step runs the whole of it. -/
theorem busyStepRunsTheNextMicroOperation : Obligations.BusyStepRunsTheNextMicroOperation := by
  unfold Obligations.BusyStepRunsTheNextMicroOperation
  intro s i m ms hb hn hp hm
  rw [step_busy hb hn hp, stepMicro_run (microOf_ne_waitDelay hm), exec_micro hm]
  rfl

/-- A micro-operation leaves the waiting moves of the host. -/
theorem micro_moves (m : Micro) (s : State) : (m.run s).state.env.moves = s.env.moves := by
  have hon := micro_onOrEnded m s
  cases hx : m.run s with
  | go t => rw [hx] at hon; exact hon.moves
  | done t => rw [hx] at hon; exact Ended.moves hon

/-- Settles O28: no micro-operation touches the host's moves, and a busy block refuses a request. -/
theorem busyPortAcceptsNothing : Obligations.BusyPortAcceptsNothing := by
  unfold Obligations.BusyPortAcceptsNothing
  refine ⟨fun s t p r rest hb hm h => ?_, fun i s hi hb => ?_⟩
  · have hn : NoReset s := fun rest' e => by simp [hm] at e
    cases hp : s.seq.prog with
    | nil => simp [step_busy_underrun hb hn hp] at h
    | cons m ms =>
      rw [step_busy hb hn hp] at h
      cases h
      rcases stepMicro_cases m ms s with e | e <;> rw [e]
      · rfl
      · exact micro_moves m _
  · rw [exec_request hi, if_pos hb]

/-! ## The reset state -/

/-- Settles O52: the reset session is closed, the reset observer knows nothing, no word is ready to be sent. -/
theorem resetMeetsTheInvariant : Obligations.ResetMeetsTheInvariant := by
  unfold Obligations.ResetMeetsTheInvariant
  refine ⟨⟨rfl, fun h => ?_, observerInv_unknown⟩, observerInv_unknown, fun w hw => ?_⟩
  · cases h
  · cases hw

end Sys2Proof

/-! SUPPORT. The invariant between requests, kept by every step of an idle block. -/

namespace Sys2Proof

open Machine

/-! ## The invariant between requests (spec/10_state.md R35, spec/20_memory.md R70, spec/30_encoding.md R81) -/

/-- A session that is closed is in order whatever its registers hold. -/
theorem sessionInv_closed {r : Session} (h : r.isOpen = false) : SessionInv r := by
  intro ho
  rw [h] at ho
  cases ho

/-- The session that INIT and OPEN leave open is in order: the checks on the operands were WF_CFG. -/
theorem sessionInv_created {a c x y : Byte} {g : Geometry} (h : ConfigNames a c x y g) (o : Bool) :
    SessionInv (createdSession a c g o) := by
  intro _
  refine ⟨?_, rfl⟩
  have hwf : geometryWf g = true := (geometryWf_iff g).2 h.wf
  have hrows : (g.rows.setWidth 3).toNat = g.rows.toNat := by
    have := h.wf.2.2.1
    simp only [BitVec.toNat_setWidth]
    omega
  show wfCfg g.columns.toNat (g.rows.setWidth 3).toNat g.rowBase = true
  rw [hrows]
  exact hwf

/-- No register write of CREATE and of the initialization touches `open`. -/
theorem creation_write_isOpen {a c : Byte} {g : Geometry} {w : RegWrite} (h : .set w ∈ createSteps a c g ++ initSteps)
    (r : Session) : (r.write w).isOpen = r.isOpen := by
  simp only [createSteps, initSteps, delaySteps, List.cons_append, List.nil_append, List.mem_cons, reduceCtorEq,
    Micro.set.injEq, List.not_mem_nil, or_false, false_or] at h
  rcases h with rfl | rfl | rfl | rfl | rfl | rfl | rfl | rfl | rfl | rfl <;> rfl

/-- Session creation before its last register write leaves the session closed. -/
theorem creation_keeps_closed {a c : Byte} {g : Geometry} {mid pre : List Micro} (hmid : mid = [] ∨ mid = initSteps)
    (hpre : pre <+: createSteps a c g ++ mid) {r : Session} (hr : r.isOpen = false) :
    (regsAfterAll pre r).isOpen = false := by
  refine regsAfterAll_keeps (I := fun r => r.isOpen = false) (fun w hw r h => ?_) hr
  have hmem : .set w ∈ createSteps a c g ++ initSteps := by
    rcases hmid with rfl | rfl
    · exact List.mem_append_left _ (by simpa using hpre.subset hw)
    · exact hpre.subset hw
  exact (creation_write_isOpen hmem r).trans h

/-- Session creation with its last register write leaves the session the operands name. -/
theorem creation_regs {a c : Byte} {g : Geometry} {mid : List Micro} (hmid : mid = [] ∨ mid = initSteps) (r : Session) :
    regsAfterAll (createSteps a c g ++ mid ++ [.set (.isOpen true)]) r = createdSession a c g true := by
  rw [regsAfterAll_append, regsAfterAll_append, createSteps_regs]
  rcases hmid with rfl | rfl <;> rfl

/-- Wherever a session creation ends, the registers are in order. -/
theorem sessionInv_creation {a c x y : Byte} {g : Geometry} {mid pre : List Micro} {r : Session}
    (hg : ConfigNames a c x y g) (hmid : mid = [] ∨ mid = initSteps) (hr : r.isOpen = false)
    (hpre : pre <+: creationProgram a c g mid) : SessionInv (regsAfterAll pre r) := by
  have hsplit : creationProgram a c g mid = createSteps a c g ++ mid ++ [.set (.isOpen true)] ++ [.respond []] := by
    simp [creationProgram]
  rw [hsplit] at hpre
  rcases List.prefix_concat_iff.1 hpre with rfl | hpre
  · rw [regsAfterAll_append, creation_regs hmid]
    exact sessionInv_created hg true
  rcases List.prefix_concat_iff.1 hpre with rfl | hpre
  · rw [creation_regs hmid]
    exact sessionInv_created hg true
  · exact sessionInv_closed (creation_keeps_closed hmid hpre hr)

/-- Wherever a request ends, the registers are in order if they were before it. -/
theorem sessionInv_requestProgram {i : Instr} {s : State} {pre : List Micro} (h : SessionInv s.regs)
    (hpre : pre <+: requestProgram i s) : SessionInv (regsAfterAll pre s.regs) := by
  by_cases hc : createsSession i = true ∧ s.regs.isOpen = false
  · rcases requestProgram_creates hc.1 s with hp | ⟨a, c, x, y, g, mid, ho, hg, hmid, hp⟩
    · exact regsAfterAll_keeps (I := SessionInv) (fun w hw => absurd (hpre.subset hw) (by simp [hp])) h
    · exact sessionInv_creation hg hmid ho (hp ▸ hpre)
  · refine regsAfterAll_keeps (I := SessionInv) (fun w hw r hr => ?_) h
    rcases set_mem_requestProgram (hpre.subset hw) with hno | ⟨-, rfl⟩ | ⟨v, d, -, rfl⟩ | ⟨v, -, rfl⟩
    · exact absurd hno hc
    · exact sessionInv_closed rfl
    · exact hr
    · exact hr

theorem sessionInv_packetProgram {p : List Byte} {s : State} {pre : List Micro} (h : SessionInv s.regs)
    (hpre : pre <+: packetProgram p s) : SessionInv (regsAfterAll pre s.regs) := by
  rcases packetProgram_cases p s with ⟨i, -, -, hp⟩ | ⟨-, hp⟩
  · exact sessionInv_requestProgram h (hp ▸ hpre)
  · exact regsAfterAll_keeps (I := SessionInv) (fun w hw => absurd (hpre.subset hw) (by simp [hp])) h

theorem word_not_mem_packetProgram (p : List Byte) (s : State) (w : Byte) : Micro.word w ∉ packetProgram p s := by
  rcases packetProgram_cases p s with ⟨i, hi, -, hp⟩ | ⟨-, hp⟩ <;> rw [hp]
  · exact (requestProgram_shape i hi s).2 w
  · simp

/-- The reactions of the observer to a run of micro-operations keep its invariant. -/
theorem stable_observerInv :
    Stable (fun s => ObserverInv s.obs) (fun s => ObserverInv s.obs) (fun w _ => w.getLsbD 1 = false) (fun _ => True) where
  wrOk _ w hw h := observerInv_write w hw h
  wrFail _ w landed hw h := by rw [raise_obs]; exact observerInv_failedWrite w landed hw h
  openOk _ _ h := h
  openFail _ _ h := h
  close _ h := h
  load _ _ h := h
  wait _ _ h := h
  set _ _ _ h := h
  raise _ _ h := by rw [raise_obs]; exact h
  respond _ _ h := h
  reset s _ := observerInv_abandoned s.obs

theorem Flow.Holds.state {P : State → Prop} {x : Flow} (h : Flow.Holds P P x) : P x.state := by
  cases x <;> exact h

theorem observerInv_served {held : Option Instr} {ms : List Micro} {s : State} (hms : ∀ w, Micro.word w ∉ ms)
    (h : ObserverInv s.obs) : ObserverInv (served held ms s).obs :=
  Flow.Holds.state (P := fun s => ObserverInv s.obs)
    (stable_observerInv.runAll (fun _ _ _ _ n rs en => xword_rw n rs en _) ms hms (fun _ _ => trivial) h)

/-- A packet taken from the port by a block in order is served to a block in order, wherever a reset cuts it off. -/
theorem inv_served_packet (p : List Byte) (r : Option Nat) (rest : List HostMove) {s : State} (h : Inv s) :
    Inv (served (packetRequest p) (packetProgram p s) (takePacket r rest s)) := by
  obtain ⟨-, hs, ho⟩ := h
  obtain ⟨pre, hpre, he⟩ :=
    served_ended (held := packetRequest p) (s := takePacket r rest s) (runAll_packetProgram_done p s _)
  refine ⟨he.seq, ?_, observerInv_served (word_not_mem_packetProgram p s) ho⟩
  rcases he.regs with ⟨-, hr⟩ | hr | ⟨-, hr⟩ <;> rw [hr]
  · exact sessionInv_closed rfl
  · exact sessionInv_packetProgram hs hpre
  · exact sessionInv_closed rfl

/-- Settles O51, by the move an idle block takes: none, a reset, or a packet. -/
theorem stepKeepsTheInvariant : Obligations.StepKeepsTheInvariant := by
  unfold Obligations.StepKeepsTheInvariant
  intro s t hinv h
  have hb : s.seq.busy = false := by rw [hinv.1]; rfl
  rcases hm : s.env.moves with _ | ⟨⟨p, r⟩ | _, rest⟩
  · rw [step_idle_nil hb hm] at h
    cases h
    exact hinv
  · rw [step_idle_request hb hm] at h
    cases h
    exact inv_served_packet p r rest hinv
  · rw [step_idle_reset hb hm] at h
    cases h
    exact ⟨rfl, sessionInv_closed rfl, hinv.2.2⟩

end Sys2Proof

/-! SUPPORT. What a closed session does not show: two runs side by side that differ in its registers. -/

namespace Sys2Proof

open Machine

/-! ## Closed registers (spec/10_state.md R37) -/

theorem SameButHidden.history_obs {t t' : State} (h : SameButHidden t t') : t'.history = t.history ∧ t'.obs = t.obs := by
  rcases h with rfl | ⟨-, r, -, rfl⟩ <;> exact ⟨rfl, rfl⟩

/-- On a closed session every request but INIT, OPEN and TEARDOWN is refused (spec/60_exceptions.md R215). -/
theorem requestProgram_needsOpen_closed {i : Instr} {s : State} (hi : needsOpen i = true) (hs : s.regs.isOpen = false) :
    requestProgram i s = [.raise .notInitialized] := by
  have hrefused : ∀ f : Unit → Checked (List Micro), ((requireOpen s).andThen f).program = [.raise .notInitialized] :=
    fun f => by rw [requireOpen_closed hs]; rfl
  cases i
  case clear | home | clearLine | setCursor | setLine | display | cursor | blink | backlightSet | backlightGet
      | getDimensions | putChar | putString | createCustomChar | formattedWrite => exact hrefused _
  all_goals cases hi

theorem request_kinds {i : Instr} (hi : isRequest i = true) :
    needsOpen i = true ∨ createsSession i = true ∨ i = .teardown := by
  by_cases hc : createsSession i = true
  · exact .inr (.inl hc)
  · by_cases ht : i = .teardown
    · exact .inr (.inr ht)
    · exact .inl (by simp [needsOpen, hi, hc, ht])

/-- The requests' micro-programs do not read the registers of a closed session behind `open`. -/
theorem requestProgram_closed_regs {i : Instr} (hi : isRequest i = true) {s : State} {r : Session}
    (hs : s.regs.isOpen = false) (hr : r.isOpen = false) :
    requestProgram i { s with regs := r } = requestProgram i s := by
  have hchecks : ∀ a c x y, createChecks a c x y { s with regs := r } = createChecks a c x y s := by
    simp [createChecks, hs, hr]
  rcases request_kinds hi with hn | hc | rfl
  · rw [requestProgram_needsOpen_closed hn hs, requestProgram_needsOpen_closed hn hr]
  · cases i
    case init => simp only [requestProgram, initProgram, hchecks]
    case openSession => simp only [requestProgram, openProgram, hchecks]
    all_goals cases hc
  · simp [requestProgram, teardownProgram, hs, hr]

theorem packetProgram_closed_regs (p : List Byte) {s : State} {r : Session} (hs : s.regs.isOpen = false)
    (hr : r.isOpen = false) : packetProgram p { s with regs := r } = packetProgram p s := by
  unfold packetProgram
  cases hd : decode p with
  | ok i => exact requestProgram_closed_regs (decode_isRequest hd) hs hr
  | reject e => rfl

/-- The micro-programs that run on a closed session: a refusal, the bare response of TEARDOWN, or a session creation. -/
inductive ClosedProgram : List Micro → Prop where
  | refuse {e : Status} (he : e ≠ .writeFailed) : ClosedProgram [.raise e]
  | respond : ClosedProgram [.respond []]
  | create (a c : Byte) (g : Geometry) (rest : List Micro) : ClosedProgram (createSteps a c g ++ rest)

theorem packetProgram_closed (p : List Byte) {s : State} (hs : s.regs.isOpen = false) : ClosedProgram (packetProgram p s) := by
  rcases packetProgram_cases p s with ⟨i, hi, -, hp⟩ | ⟨-, hp⟩ <;> rw [hp]
  · rcases request_kinds hi with hn | hc | rfl
    · rw [requestProgram_needsOpen_closed hn hs]
      exact .refuse (by decide)
    · rcases requestProgram_creates hc s with hq | ⟨a, c, x, y, g, mid, -, -, -, hq⟩ <;> rw [hq]
      · exact .refuse (by decide)
      · rw [creationProgram, List.append_assoc]
        exact .create a c g _
    · simp only [requestProgram, teardownProgram, hs, Bool.false_eq_true, if_false]
      exact .respond
  · exact .refuse (by decide)

/-- Two flows of which the host and the bus see the same: over in states that differ at most in hidden registers, or gone
on in one state. -/
inductive Flow.SameSeen : Flow → Flow → Prop where
  | done {t t' : State} (h : SameButHidden t t') : Flow.SameSeen (.done t) (.done t')
  | go (t : State) : Flow.SameSeen (.go t) (.go t)

theorem SameButHidden.refl (s : State) : SameButHidden s s := .inl rfl

theorem Flow.SameSeen.refl (x : Flow) : Flow.SameSeen x x := by
  cases x with
  | go t => exact .go t
  | done t => exact .done (.refl t)

theorem Flow.SameSeen.andThen {x x' : Flow} (h : Flow.SameSeen x x') (f : State → Flow) :
    Flow.SameSeen (x.andThen f) (x'.andThen f) := by
  cases h with
  | done h => exact .done h
  | go t => exact .refl _

theorem Flow.SameSeen.state {x x' : Flow} (h : Flow.SameSeen x x') : SameButHidden x.state x'.state := by
  cases h with
  | done h => exact h
  | go t => exact .refl t

/-- A reset drops the registers, hidden ones or not. -/
theorem Flow.SameSeen.unlessReset {s : State} {r : Session} {f : State → Flow}
    (h : Flow.SameSeen (f s) (f { s with regs := r })) :
    Flow.SameSeen (Machine.unlessReset s f) (Machine.unlessReset { s with regs := r } f) := by
  unfold Machine.unlessReset
  split
  · exact .refl _
  · exact h

/-- Register writes from two states that differ only in the registers: a reset drops the registers of both, or each has its
own writes made. -/
theorem runAll_sets_regs (ws : List RegWrite) (s : State) (r : Session) :
    (∃ t, runAll (ws.map .set) s = .done t ∧ runAll (ws.map .set) { s with regs := r } = .done t) ∨
    ∃ t : State, runAll (ws.map .set) s = .go { t with regs := regsAfterAll (ws.map .set) s.regs } ∧
      runAll (ws.map .set) { s with regs := r } = .go { t with regs := regsAfterAll (ws.map .set) r } := by
  induction ws generalizing s r with
  | nil => exact .inr ⟨s, rfl, rfl⟩
  | cons w ws ih =>
    by_cases h : s.seq.resetAt = some s.seq.upc
    · exact .inl ⟨abandon s, by simp [runAll, Micro.run, setOp, unlessReset, h],
        by simp [runAll, Micro.run, setOp, unlessReset, h]; rfl⟩
    · have hrun : ∀ q : Session, runAll ((w :: ws).map .set) { s with regs := q }
          = runAll (ws.map .set) { (s.setReg w).advance with regs := q.write w } := fun q => by
        simp [runAll, Micro.run, setOp, unlessReset, h]; rfl
      have hs := hrun s.regs
      rw [hrun r]
      rw [show runAll ((w :: ws).map .set) s = runAll (ws.map .set) (s.setReg w).advance from hs]
      exact ih (s.setReg w).advance (r.write w)

/-- The register writes of CREATE, in its order (spec/41_init_lifecycle.md R140). -/
def createWrites (a c : Byte) (g : Geometry) : List RegWrite :=
  [.periphAddr (cfgAddr a), .columns g.columns, .rows (g.rows.setWidth 3), .rowBase g.rowBase,
   .backlightOn (cfgBacklight c), .dcf Config.CREATION_DCF, .emf Config.CREATION_EMF]

theorem createSteps_eq (a c : Byte) (g : Geometry) :
    createSteps a c g = .busOpen (cfgAddr a) :: (createWrites a c g).map .set := rfl

/-- CREATE overwrites every register that a closed session hides, before a word is sent. -/
theorem createWrites_regs (a c : Byte) (g : Geometry) (r : Session) :
    regsAfterAll ((createWrites a c g).map .set) r = createdSession a c g r.isOpen := createSteps_regs a c g r

theorem createWrites_sameSeen (a c : Byte) (g : Geometry) {s : State} {r : Session} (hs : r.isOpen = s.regs.isOpen) :
    Flow.SameSeen (runAll ((createWrites a c g).map .set) s) (runAll ((createWrites a c g).map .set) { s with regs := r }) := by
  rcases runAll_sets_regs (createWrites a c g) s r with ⟨t, h, h'⟩ | ⟨t, h, h'⟩ <;> rw [h, h']
  · exact .refl _
  · rw [createWrites_regs, createWrites_regs, hs]
    exact .refl _

theorem createSteps_sameSeen (a c : Byte) (g : Geometry) {s : State} {r : Session} (hs : s.regs.isOpen = false)
    (hr : r.isOpen = false) :
    Flow.SameSeen (runAll (createSteps a c g) s) (runAll (createSteps a c g) { s with regs := r }) := by
  simp only [createSteps_eq, runAll, Micro.run, Machine.busOpen, unlessReset]
  split
  · exact .refl _
  · rw [show State.answer { s with regs := r } = s.answer from rfl]
    cases s.answer with
    | ok => exact createWrites_sameSeen a c g (hr.trans hs.symm)
    | fail landed => exact .done (.inr ⟨hs, r, hr, rfl⟩)

/-- A micro-program of a closed session does not show the registers behind `open`. -/
theorem ClosedProgram.sameSeen {ms : List Micro} (hms : ClosedProgram ms) {s : State} {r : Session}
    (hs : s.regs.isOpen = false) (hr : r.isOpen = false) :
    Flow.SameSeen (runAll ms s) (runAll ms { s with regs := r }) := by
  have hidden : ∀ st d, Flow.SameSeen (.done (Machine.respond st d s)) (.done (Machine.respond st d { s with regs := r })) :=
    fun st d => .done (.inr ⟨hs, r, hr, rfl⟩)
  cases hms with
  | @refuse e he =>
    refine (Flow.SameSeen.unlessReset (f := fun s => .done (Machine.raise e s)) ?_).andThen (runAll [])
    rw [raise_eq_respond e he, raise_eq_respond e he]
    exact hidden e []
  | respond => exact (Flow.SameSeen.unlessReset (f := fun s => .done (Machine.respond .ok [] s)) (hidden .ok [])).andThen (runAll [])
  | create a c g rest =>
    rw [runAll_append, runAll_append]
    exact (createSteps_sameSeen a c g hs hr).andThen (runAll rest)

/-- Settles O55, by the move an idle block takes; a packet's micro-program is the same in both states. -/
theorem closedRegistersCannotBeSeen : Obligations.ClosedRegistersCannotBeSeen := by
  unfold Obligations.ClosedRegistersCannotBeSeen
  suffices hstep : ∀ s s' t : State, SameButHidden s s' → s.seq.busy = false → step s = .next t →
      ∃ t', step s' = .next t' ∧ SameButHidden t t' from fun s s' t h hb ht =>
    have ⟨t', ht', hh⟩ := hstep s s' t h hb ht
    ⟨t', ht', hh, hh.history_obs⟩
  rintro s s' t (rfl | ⟨hs, r, hr, rfl⟩) hb ht
  · exact ⟨t, ht, .refl t⟩
  rcases hm : s.env.moves with _ | ⟨⟨p, q⟩ | _, rest⟩
  · rw [step_idle_nil hb hm] at ht
    cases ht
    exact ⟨_, step_idle_nil hb hm, .inr ⟨hs, r, hr, rfl⟩⟩
  · rw [step_idle_request hb hm] at ht
    cases ht
    refine ⟨_, step_idle_request hb hm, ?_⟩
    rw [packetProgram_closed_regs p hs hr]
    exact ((packetProgram_closed p hs).sameSeen (s := accept _ _ (takePacket q rest s)) hs hr).state
  · rw [step_idle_reset hb hm] at ht
    cases ht
    exact ⟨_, step_idle_reset hb hm, .refl _⟩

end Sys2Proof

/-! SUPPORT. A request stepped micro-operation by micro-operation, beside the same request served whole. -/

namespace Sys2Proof

open Machine

/-! ## No micro-operation reads what is left of the micro-program -/

/-- The flow with `p` left of the micro-program, where it goes on. -/
def Flow.withProg (p : List Micro) : Flow → Flow
  | .go s => .go (Sys2Proof.withProg p s)
  | .done s => .done s

/-- An operation that neither reads nor writes what is left of the micro-program. -/
def ProgBlind (f : State → Flow) : Prop := ∀ p s, f (withProg p s) = Flow.withProg p (f s)

theorem ProgBlind.andThen {f g : State → Flow} (hf : ProgBlind f) (hg : ProgBlind g) :
    ProgBlind fun s => (f s).andThen g := by
  intro p s
  show (f (withProg p s)).andThen g = Flow.withProg p ((f s).andThen g)
  rw [hf p s]
  cases f s with
  | go t => exact hg p t
  | done t => rfl

theorem ProgBlind.unlessReset {f : State → Flow} (hf : ProgBlind f) : ProgBlind fun s => Machine.unlessReset s f := by
  intro p s
  have hseq : (withProg p s).seq.resetAt = s.seq.resetAt ∧ (withProg p s).seq.upc = s.seq.upc := ⟨rfl, rfl⟩
  simp only [Machine.unlessReset, hseq]
  split
  · rfl
  · exact hf p s

/-- The end of a request drops what is left of it. -/
theorem raise_withProg (e : Status) (p : List Micro) (s : State) : raise e (withProg p s) = raise e s := by
  by_cases he : e = .writeFailed
  · subst he
    simp only [raise, State.onWriteFailed, show (withProg p s).seq.request = s.seq.request from rfl]
    split <;> rfl
  · rw [raise_eq_respond e he, raise_eq_respond e he]
    rfl

theorem progBlind_busWrite (w : Byte) : ProgBlind (busWrite w) := by
  refine ProgBlind.unlessReset fun p s => ?_
  show (match s.answer with | .ok => _ | .fail _ => _) = _
  cases s.answer with
  | ok => rfl
  | fail landed =>
    exact congrArg Flow.done (raise_withProg .writeFailed p ((s.emit (.wr w false)).drawn.observe (Observer.failedWrite w landed)))

theorem progBlind_busOpen (a : Addr) : ProgBlind (Machine.busOpen a) := by
  refine ProgBlind.unlessReset fun p s => ?_
  show (match s.answer with | .ok => _ | .fail _ => _) = _
  cases s.answer with
  | ok => rfl
  | fail landed => rfl

theorem progBlind_delay (n : Nat) : ProgBlind (delay n) :=
  ProgBlind.andThen (f := Machine.loadDelay n) (ProgBlind.unlessReset fun _ _ => rfl) (ProgBlind.unlessReset fun _ _ => rfl)

theorem progBlind_nibOp (n : Nibble) (rs : Bool) : ProgBlind (nibOp n rs) := fun p s =>
  (progBlind_busWrite _).andThen ((progBlind_delay _).andThen ((progBlind_busWrite _).andThen (progBlind_delay _))) p s

theorem progBlind_byteOp (v : Byte) (rs : Bool) : ProgBlind (byteOp v rs) :=
  (progBlind_nibOp _ rs).andThen (progBlind_nibOp _ rs)

theorem progBlind_micro (m : Micro) : ProgBlind m.run := by
  cases m with
  | busOpen a => exact progBlind_busOpen a
  | busClose => exact ProgBlind.unlessReset fun _ _ => rfl
  | word w => exact progBlind_busWrite w
  | raw => exact fun p s => progBlind_busWrite _ p s
  | nib n rs => exact progBlind_nibOp n rs
  | cmd v => exact progBlind_byteOp v false
  | data v => exact progBlind_byteOp v true
  | loadDelay n => exact ProgBlind.unlessReset fun _ _ => rfl
  | waitDelay n => exact ProgBlind.unlessReset fun _ _ => rfl
  | set w => exact ProgBlind.unlessReset fun _ _ => rfl
  | raise e => exact ProgBlind.unlessReset fun p s => congrArg Flow.done (raise_withProg e p s)
  | respond d => exact ProgBlind.unlessReset fun _ _ => rfl

/-! ## A request stepped to its end (spec/10_state.md R33) -/

theorem runSteps_add {k : Nat} {s t : State} (h : runSteps k s = .next t) (n : Nat) :
    runSteps (k + n) s = runSteps n t := by
  induction k generalizing s with
  | zero =>
    cases h
    rw [Nat.zero_add]
  | succ k ih =>
    rw [Nat.succ_add]
    simp only [runSteps] at h ⊢
    cases hs : step s with
    | next u =>
      rw [hs] at h
      exact ih h
    | fault f => simp [hs] at h
    | refused r => simp [hs] at h

theorem runSteps_one {s t : State} (h : step s = .next t) : runSteps 1 s = .next t := by
  simp only [runSteps, h]

/-- A `Delay` counted down cycle by cycle ends as the whole of it. -/
theorem runSteps_waitDelay (n : Nat) (ms : List Micro) {s : State} (hb : s.seq.busy = true) (hn : NoReset s)
    (hp : s.seq.prog = .waitDelay n :: ms) :
    ∃ k, runSteps k s = .next ((Micro.waitDelay n).run (withProg ms s)).state := by
  induction hd : s.seq.delayCtr generalizing s with
  | zero =>
    have hw : ¬ Waiting s := fun h => h.1 hd
    exact ⟨1, runSteps_one (by rw [step_busy hb hn hp, stepMicro_waited n ms hw])⟩
  | succ d ih =>
    by_cases hw : Waiting s
    · obtain ⟨k, hk⟩ := ih (s := tick s) hb hn hp (by simp [tick, hd])
      have h1 : runSteps 1 s = .next (tick s) := runSteps_one (by rw [step_busy hb hn hp, stepMicro_waiting n ms hw])
      exact ⟨1 + k, by rw [runSteps_add h1, hk]; rfl⟩
    · exact ⟨1, runSteps_one (by rw [step_busy hb hn hp, stepMicro_waited n ms hw])⟩

/-- Every micro-operation is stepped through to its end. -/
theorem runSteps_micro {m : Micro} {ms : List Micro} {s : State} (hb : s.seq.busy = true) (hn : NoReset s)
    (hp : s.seq.prog = m :: ms) : ∃ k, runSteps k s = .next (m.run (withProg ms s)).state := by
  by_cases hm : ∃ n, m = .waitDelay n
  · obtain ⟨n, rfl⟩ := hm
    exact runSteps_waitDelay n ms hb hn hp
  · exact ⟨1, runSteps_one (by rw [step_busy hb hn hp, stepMicro_run fun n e => hm ⟨n, e⟩])⟩

/-- A micro-program that runs to the end `t` of its request is stepped to the same `t`. -/
theorem runSteps_of_runAll {ms : List Micro} {s t : State} (hb : s.seq.busy = true) (hn : NoReset s)
    (h : runAll ms s = .done t) : ∃ k, runSteps k (withProg ms s) = .next t := by
  induction ms generalizing s with
  | nil => cases h
  | cons m ms ih =>
    obtain ⟨k, hk⟩ := runSteps_micro (s := withProg (m :: ms) s) hb hn rfl
    rw [show withProg ms (withProg (m :: ms) s) = withProg ms s from rfl, progBlind_micro m ms s] at hk
    have hon := micro_onOrEnded m s
    rw [runAll] at h
    cases hx : m.run s with
    | done u =>
      rw [hx] at h hk
      cases h
      exact ⟨k, hk⟩
    | go u =>
      rw [hx] at h hk hon
      obtain ⟨n, hsteps⟩ := ih (hon.busy.trans hb) (fun rest e => hn rest (hon.moves.symm.trans e)) h
      exact ⟨k + n, by rw [runSteps_add hk]; exact hsteps⟩

/-- Settles O57, by induction on the micro-program, of which no micro-operation reads the rest. -/
theorem steppingServesTheWholeRequest : Obligations.SteppingServesTheWholeRequest := by
  unfold Obligations.SteppingServesTheWholeRequest
  intro i s t hi _ hn h
  obtain ⟨u, hu⟩ := runAll_requestProgram_done hi s (accept (some (heldRequest i)) (requestProgram i s) s)
  have ht : t = u := by rw [eq_served_of_exec hi h, served, hu]; rfl
  rw [ht]
  exact runSteps_of_runAll (s := accept (some (heldRequest i)) (requestProgram i s) s) rfl hn hu

end Sys2Proof

/-! SUPPORT. The controller's latch, its commands and its data bytes; what it makes of INIT whatever its state before. -/

namespace Sys2Proof

open Machine

/-! ## The latch (spec/20_memory.md R71, R72) -/

/-- Settles O42: a word over known pins, and the two halves of a byte. -/
theorem latchingAndAssembly : Obligations.LatchingAndAssembly := by
  unfold Obligations.LatchingAndAssembly
  refine ⟨fun o w p hp => ?_, fun o n h rs h4 => ⟨fun hh => ?_, fun hl => ?_⟩⟩
  · simp only [Observer.write, hp]
    rfl
  · simp only [Observer.latch, h4, hh]
  · simp only [Observer.latch, h4, hl]

/-- All a word can do: nothing but to the pins, or with the enable pin low the nibble is latched, for certain or perhaps. -/
theorem Observer.write_cases (o : Observer) (w : Byte) :
    ∃ o', o.write w = { o' with pins := some w } ∧
      (o' = o ∨ w.getLsbD 2 = false ∧
        (o' = o.latch (highNibble w) (w.getLsbD 0) ∨ o' = o.mayLatch (highNibble w) (w.getLsbD 0))) := by
  refine ⟨_, rfl, ?_⟩
  cases hw : w.getLsbD 2
  case true => cases o.pins <;> simp
  case false =>
    rcases o.pins with _ | p
    · exact .inr ⟨rfl, .inr rfl⟩
    · cases hp : p.getLsbD 2
      · exact .inl (by simp only [hp, Bool.false_and, Bool.false_eq_true, if_false])
      · exact .inr ⟨rfl, .inl (by simp only [hp, Bool.not_false, Bool.and_self, if_true])⟩

/-! ## Commands (R73) -/

theorem decodeLcd_of_bit7 {b : Byte} (h : b.getLsbD 7 = true) : decodeLcd b = .setDdram (b.extractLsb' 0 7) := if_pos h

theorem decodeLcd_of_bit6 {b : Byte} (h : b.extractLsb' 6 2 = 0b01#2) : decodeLcd b = .setCgram (b.extractLsb' 0 6) := by
  revert b; decide +kernel

theorem decodeLcd_of_bit5 {b : Byte} (h : b.extractLsb' 5 3 = 0b001#3) : decodeLcd b = .function (b.extractLsb' 2 3) := by
  revert b; decide +kernel

theorem decodeLcd_of_bit3 {b : Byte} (h : b.extractLsb' 3 5 = 0b00001#5) : decodeLcd b = .display (b.extractLsb' 0 3) := by
  revert b; decide +kernel

theorem decodeLcd_of_bit2 {b : Byte} (h : b.extractLsb' 2 6 = 0b000001#6) :
    decodeLcd b = .entry (b.getLsbD 1) (b.getLsbD 0) := by
  revert b; decide +kernel

theorem decodeLcd_of_bit1 {b : Byte} (h : b.extractLsb' 1 7 = 0b0000001#7) : decodeLcd b = .home := by
  revert b; decide +kernel

/-- Settles O43: a byte transfer to a controller in step executes the command its highest set bit names. -/
theorem commandsActByHighestBit : Obligations.CommandsActByHighestBit := by
  unfold Obligations.CommandsActByHighestBit
  rintro bl b o ho u rfl
  have sent : replay (byteEvents bl b false) o =
      { o.execCommand b with pins := some (xword (lowNibble b) false false bl) } := ho.replay_byte
  rw [sent]
  refine ⟨fun h => ?_, fun h => ?_, fun h => ?_, fun h => ?_, fun h => ?_, fun h => ?_, fun h => ?_⟩
  · simp only [Observer.execCommand, decodeLcd_of_bit7 h, lowNibble]
  · have hzero : (b.extractLsb' 0 6).setWidth 7 = 0b0#1 ++ b.extractLsb' 0 6 :=
      BitVec.setWidth_eq_append (by omega)
    simp only [Observer.execCommand, decodeLcd_of_bit6 h, lowNibble, hzero]
  · have hdl : (b.extractLsb' 2 3).getLsbD 2 = b.getLsbD 4 := by simp
    simp only [Observer.execCommand, decodeLcd_of_bit5 h, lowNibble, hdl]
  · simp only [Observer.execCommand, decodeLcd_of_bit3 h, lowNibble]
  · simp only [Observer.execCommand, decodeLcd_of_bit2 h, lowNibble]
  · simp only [Observer.execCommand, decodeLcd_of_bit1 h, lowNibble]
  · subst h
    exact ⟨Memory.fill 128 Config.CH_SPACE, rfl, fun a ha => by rw [Memory.read_fill, if_pos ha]; rfl⟩

/-! ## Data bytes (R74) -/

theorem Observer.execData_space (o : Observer) (v : Byte) : (o.execData v).space = o.space := by
  simp only [Observer.execData]
  split <;> rfl

/-- The DATA row on a controller in step executes its byte (spec/40_signal_and_byte.md R124). -/
theorem exec_data_inStep {s : State} (v : Byte) (hr : s.seq.resetAt = none) (ha : AnswersOk s 4) (h : InStep s.obs) :
    ∃ t, exec (.data v) s = .next t ∧ InStep t.obs ∧
      t.obs = { s.obs.execData v with pins := some (xword (lowNibble v) true false s.regs.backlightOn) } :=
  ⟨_, micro_sent (m := .data v) rfl hr ha, h.data (v := v), h.replay_byte (v := v)⟩

theorem Observer.nextCgram_of_increment {o : Observer} (h : o.entryId = some true) (a : Addr) :
    o.nextCgram a = some (a + 1) := by simp [Observer.nextCgram, h]

theorem Observer.nextDdram_of_increment {o : Observer} (h : o.entryId = some true) {a : Addr} (h1 : a.toNat ≠ 0x27)
    (h2 : a.toNat ≠ 0x67) : o.nextDdram a = some (a + 1) := by simp [Observer.nextDdram, h, h1, h2]

/-- The two-line wrap of the address counter (R61; log 16). -/
theorem Observer.nextDdram_of_twoLine {o : Observer} (h : o.entryId = some true) (h2 : o.twoLine = true) {a : Addr} :
    (a.toNat = 0x27 → o.nextDdram a = some 0x40) ∧ (a.toNat = 0x67 → o.nextDdram a = some 0x00) := by
  constructor <;> intro ha <;> simp [Observer.nextDdram, h, h2, ha]

theorem cgramIndex_eq_mod (a : Addr) : cgramIndex a = a.toNat % 64 := by
  simp [cgramIndex]

/-- Settles O44, by the addressing mode: the rules of the two memories at the counter. -/
theorem dataIsStoredAtTheCounter : Obligations.DataIsStoredAtTheCounter := by
  unfold Obligations.DataIsStoredAtTheCounter
  intro v a s hr ha hin hac hinc
  obtain ⟨t, ht, hstep, hobs⟩ := exec_data_inStep v hr ha hin
  refine ⟨t, ht, hstep, by rw [hobs]; exact Observer.execData_space _ _, fun hs => ?_, fun hs => ?_⟩
  · rw [Observer.execData_ddram v hs hac] at hobs
    simp only [ddramAt, hobs]
    refine ⟨Memory.read_write_same .., fun k hk => Memory.read_write_of_ne _ v hk, trivial, Observer.nextDdram_of_increment hinc, fun f hf hn => ?_⟩
    exact Observer.nextDdram_of_twoLine hinc (by simp only [Observer.twoLine, hf, hn])
  · rw [Observer.execData_cgram v hs hac, cgramIndex_eq_mod, Observer.nextCgram_of_increment hinc] at hobs
    simp only [cgramAt, hobs]
    exact ⟨Memory.read_write_same .., fun k hk => Memory.read_write_of_ne _ v hk, trivial, trivial⟩

/-! ## INIT on any controller (R75) -/

/-- How many 8-bit-mode nibbles in a row bring the controller to 8-bit width (log 14). -/
def nibblesTo8Bit (o : Observer) : Nat :=
  match o.ifw, o.phase with
  | .w8, _ => 0
  | .w4, some (.lo h) => if h = Config.NIB_8BIT then 1 else 3
  | .w4, some .hi => 2
  | .w4, none => 3
  | .unknown k, _ => 3 - min k 2

/-- Three are always enough. -/
theorem nibblesTo8Bit_le (o : Observer) : nibblesTo8Bit o ≤ 3 := by
  unfold nibblesTo8Bit
  split
  case h_2 => split <;> omega
  all_goals omega

theorem nibblesTo8Bit_of_w8 {o : Observer} (h : o.ifw = .w8) : nibblesTo8Bit o = 0 := by simp only [nibblesTo8Bit, h]

theorem nibblesTo8Bit_of_hi {o : Observer} (h4 : o.ifw = .w4) (hh : o.phase = some .hi) : nibblesTo8Bit o = 2 := by
  simp only [nibblesTo8Bit, h4, hh]

theorem ifw_of_nibblesTo8Bit {o : Observer} (h : nibblesTo8Bit o = 0) : o.ifw = .w8 := by
  unfold nibblesTo8Bit at h
  split at h
  case h_1 hw => exact hw
  case h_2 => split at h <;> omega
  all_goals omega

theorem Observer.execCommand_phase (o : Observer) (b : Byte) : (o.execCommand b).phase = o.phase := by
  simp only [Observer.execCommand]
  cases decodeLcd b <;> rfl

theorem Observer.execCommand_ifw (o : Observer) (b : Byte) :
    (o.execCommand b).ifw = o.ifw ∨ (o.execCommand b).ifw = .w8 ∨ (o.execCommand b).ifw = .w4 := by
  simp only [Observer.execCommand]
  cases decodeLcd b
  case function f => cases hf : f.getLsbD 2 <;> simp
  all_goals exact .inl rfl

/-- Each 8-bit-mode nibble brings the controller nearer to 8-bit width: from 4-bit width two of them are the function-set
command 0x33. -/
theorem nibblesTo8Bit_latch (o : Observer) :
    nibblesTo8Bit (o.latch Config.NIB_8BIT false) ≤ nibblesTo8Bit o - 1 := by
  rcases hw : o.ifw with k | _ | _
  · simp only [Observer.latch, nibblesTo8Bit, hw, widthAfter, Bool.false_eq_true, if_false, if_true]
    by_cases hk : k + 1 ≥ 3 <;> simp only [hk, if_true, if_false] <;> omega
  · have h8 : (o.latch Config.NIB_8BIT false).ifw = .w8 := by simp only [Observer.latch, hw]; exact hw
    rw [nibblesTo8Bit_of_w8 h8]
    exact Nat.zero_le _
  · rcases hp : o.phase with _ | _ | h
    · simp [Observer.latch, nibblesTo8Bit, hw, hp, widthAfter]
    · simp [Observer.latch, nibblesTo8Bit, hw, hp]
    · have hl : o.latch Config.NIB_8BIT false = Observer.execCommand (h ++ Config.NIB_8BIT) { o with phase := some .hi } := by
        simp [Observer.latch, hw, hp, Observer.execByte]
      by_cases h3 : h = Config.NIB_8BIT
      · subst h3
        rw [hl, nibblesTo8Bit_of_w8 rfl]
        exact Nat.zero_le _
      · have hbefore : nibblesTo8Bit o = 3 := by simp only [nibblesTo8Bit, hw, hp, h3, if_false]
        rw [hl, hbefore]
        rcases Observer.execCommand_ifw { o with phase := some .hi } (h ++ Config.NIB_8BIT) with e | e | e
        · rw [nibblesTo8Bit_of_hi (e.trans hw) (Observer.execCommand_phase ..)]
        · rw [nibblesTo8Bit_of_w8 e]
          exact Nat.zero_le _
        · rw [nibblesTo8Bit_of_hi e (Observer.execCommand_phase ..)]

/-- An 8-bit-mode nibble and the long delay behind it (spec/41_init_lifecycle.md R141 step 3). -/
def threeEvents (bl : Bool) (d : Nat) : List Event := nibEvents bl Config.NIB_8BIT false ++ [Event.dl d]

/-- RAW's word behind the power-on delay (R141 steps 1 and 2). -/
def rawEvents (bl : Bool) : List Event := [Event.dl 50000, Event.wr (xword 0 false false bl) true]

theorem initEvents_eq (bl : Bool) :
    initEvents bl = rawEvents bl ++ threeEvents bl 5000 ++ threeEvents bl 150 ++ threeEvents bl 150 ++
      nibEvents bl Config.NIB_4BIT false ++ bytesEvents bl [0x28, 0x08, 0x06, 0x0C] false := rfl

theorem nibblesTo8Bit_threeEvents (bl : Bool) (d : Nat) (o : Observer) :
    nibblesTo8Bit (replay (threeEvents bl d) o) ≤ nibblesTo8Bit o - 1 := by
  rw [threeEvents, replay_append, replay_nibEvents]
  exact nibblesTo8Bit_latch o

/-- Three 8-bit-mode nibbles leave 8-bit width, whatever the controller's state before. -/
theorem replay_threes_ifw (bl : Bool) (d1 d2 d3 : Nat) (o : Observer) :
    (replay (threeEvents bl d3) (replay (threeEvents bl d2) (replay (threeEvents bl d1) o))).ifw = .w8 := by
  have h0 := nibblesTo8Bit_le o
  have h1 := nibblesTo8Bit_threeEvents bl d1 o
  have h2 := nibblesTo8Bit_threeEvents bl d2 (replay (threeEvents bl d1) o)
  have h3 := nibblesTo8Bit_threeEvents bl d3 (replay (threeEvents bl d2) (replay (threeEvents bl d1) o))
  exact ifw_of_nibblesTo8Bit (by omega)

/-- The 4-bit-mode-select nibble brings a controller in 8-bit width in step (R141 step 4). -/
theorem inStep_selectNibble (bl : Bool) {o : Observer} (h : o.ifw = .w8) :
    InStep (replay (nibEvents bl Config.NIB_4BIT false) o) := by
  rw [replay_nibEvents]
  have hl : o.latch Config.NIB_4BIT false = { o.blurCommand Config.NIB_4BIT with ifw := .w4, phase := some .hi } := by
    simp only [Observer.latch, h]
    rfl
  exact inStep_of (by rw [hl]) (by rw [hl])

/-- A command that leaves 4-bit width leaves the controller in step. -/
theorem InStep.command {o : Observer} (bl : Bool) (b : Byte) (h : InStep o) (h4 : (o.execCommand b).ifw = .w4) :
    InStep (replay (byteEvents bl b false) o) := by
  rw [h.replay_byte]
  exact inStep_of (o := o.execCommand b) h4 ((Observer.execCommand_phase o b).trans h.2.1)

theorem replay_bytesEvents_cons (bl : Bool) (v : Byte) (vs : List Byte) (rs : Bool) (o : Observer) :
    replay (bytesEvents bl (v :: vs) rs) o = replay (bytesEvents bl vs rs) (replay (byteEvents bl v rs) o) := by
  rw [bytesEvents_cons, replay_append]

/-- The four commands of INIT on a controller in step (R141 step 5). -/
theorem InStep.replay_initCommands {o : Observer} (bl : Bool) (h : InStep o) :
    replay (bytesEvents bl [0x28, 0x08, 0x06, 0x0C] false) o =
      { o with ifw := .w4, func := some 0b010, disp := some 0b100, entryId := some true, entryS := some false,
               pins := some (xword 0xC false false bl) } := by
  have e1 : ∀ o, Observer.execCommand 0x28 o = { o with func := some 0b010, ifw := .w4 } := fun _ => rfl
  have e2 : ∀ o, Observer.execCommand 0x08 o = { o with disp := some 0b000 } := fun _ => rfl
  have e3 : ∀ o, Observer.execCommand 0x06 o = { o with entryId := some true, entryS := some false } := fun _ => rfl
  have e4 : ∀ o, Observer.execCommand 0x0C o = { o with disp := some 0b100 } := fun _ => rfl
  have h1 := h.command bl 0x28 (by rw [e1])
  have h2 := h1.command bl 0x08 (by rw [e2]; exact h1.1)
  have h3 := h2.command bl 0x06 (by rw [e3]; exact h2.1)
  have hlow : lowNibble 0x0C = 0xC := rfl
  rw [replay_bytesEvents_cons, replay_bytesEvents_cons, replay_bytesEvents_cons, replay_bytesEvents_cons,
    bytesEvents_nil, replay_nil, h3.replay_byte, h2.replay_byte, h1.replay_byte, h.replay_byte]
  simp only [Observer.execByte, Bool.false_eq_true, if_false, e1, e2, e3, e4, hlow]

/-! ## What cannot write the controller's memories (R75; log 15) -/

/-- Both memories are the same. -/
def SameMemories (o o' : Observer) : Prop := o'.ddram = o.ddram ∧ o'.cgram = o.cgram

/-- A low half other than 1 ends no clear command. -/
theorem decodeLcd_ne_clear (h : Nibble) {n : Nibble} (hn : n ≠ 1) : decodeLcd (h ++ n) ≠ .clear := by
  revert h n; decide +kernel

theorem sameMemories_execCommand (o : Observer) {b : Byte} (h : decodeLcd b ≠ .clear) :
    SameMemories o (o.execCommand b) := by
  simp only [Observer.execCommand]
  cases hc : decodeLcd b
  case clear => exact absurd hc h
  all_goals exact ⟨rfl, rfl⟩

theorem sameMemories_blurCommand (o : Observer) {n : Nibble} (hn : n ≠ 1) : SameMemories o (o.blurCommand n) :=
  ⟨if_neg hn, rfl⟩

/-- A nibble with register-select 0 that ends no clear command writes no memory, whatever the controller's state. -/
theorem sameMemories_latch (o : Observer) {n : Nibble} (hn : n ≠ 1) : SameMemories o (o.latch n false) := by
  have hblur := sameMemories_blurCommand o hn
  rcases hw : o.ifw with k | _ | _
  · simp only [Observer.latch, hw]
    exact hblur
  · simp only [Observer.latch, hw, Bool.false_eq_true, if_false]
    split
    · exact hblur
    · split <;> exact hblur
  · rcases hp : o.phase with _ | _ | h
    · simp only [Observer.latch, hw, hp]
      exact hblur
    · simp only [Observer.latch, hw, hp]
      exact ⟨rfl, rfl⟩
    · have hl : o.latch n false = Observer.execCommand (h ++ n) { o with phase := some .hi } := by
        simp only [Observer.latch, hw, hp, Observer.execByte, Bool.false_eq_true, if_false]
      rw [hl]
      exact sameMemories_execCommand { o with phase := some .hi } (decodeLcd_ne_clear h hn)

/-- An event that writes no memory: a word with register-select 0 and no low half of a clear command, or no word. -/
def Event.keepsMemories : Event → Bool
  | .wr w _ => !w.getLsbD 0 && highNibble w != 1
  | .busOpen _ _ | .dl _ | .close | .rsp _ _ => true

theorem sameMemories_write (o : Observer) {w : Byte} (hrs : w.getLsbD 0 = false) (hn : highNibble w ≠ 1) :
    SameMemories o (o.write w) := by
  obtain ⟨o', e, h⟩ := Observer.write_cases o w
  rw [hrs] at h
  rw [e]
  rcases h with rfl | ⟨-, rfl | rfl⟩
  · exact ⟨rfl, rfl⟩
  · exact sameMemories_latch o hn
  · exact sameMemories_blurCommand o hn

theorem sameMemories_replay {evs : List Event} (h : ∀ e ∈ evs, Event.keepsMemories e = true) (o : Observer) :
    SameMemories o (replay evs o) := by
  induction evs generalizing o with
  | nil => exact ⟨rfl, rfl⟩
  | cons e evs ih =>
    have he : SameMemories o (observeEvent o e) := by
      cases e with
      | wr w ok =>
        have hw : w.getLsbD 0 = false ∧ highNibble w ≠ 1 := by simpa [Event.keepsMemories] using h (.wr w ok)
        exact sameMemories_write o hw.1 hw.2
      | busOpen | dl | close | rsp => exact ⟨rfl, rfl⟩
    have hr := ih (fun x hx => h x (List.mem_cons_of_mem _ hx)) (observeEvent o e)
    exact ⟨hr.1.trans he.1, hr.2.trans he.2⟩

theorem initEvents_keepsMemories (bl : Bool) : ∀ e ∈ initEvents bl, Event.keepsMemories e = true := by
  revert bl; decide

/-- INIT of a closed session when every answer is `ok` (spec/41_init_lifecycle.md R141). -/
theorem exec_init_ok {a c x y : Byte} {g : Geometry} {s : State} (hr : Ready s) (ho : s.regs.isOpen = false)
    (hg : ConfigNames a c x y g) (ha : AnswersOk s 26) :
    exec (.init a c x y) s = .next
      (completed s (createdSession a c g true) (.busOpen (cfgAddr a) true :: initEvents (c.getLsbD 7)) []) := by
  have hprogram : initProgram a c x y s =
      .ok ((createSteps a c g ++ initSteps ++ [.set (.isOpen true)]) ++ [.respond []]) := by
    simp only [initProgram, createChecks_ok ho hg, Checked.andThen_ok, List.append_assoc, List.cons_append, List.nil_append]
  have hregs := creation_regs (a := a) (c := c) (g := g) (.inr rfl) s.regs
  have hevents : eventsFrom s.regs (createSteps a c g ++ initSteps ++ [.set (.isOpen true)]) =
      .busOpen (cfgAddr a) true :: initEvents (c.getLsbD 7) := by
    rw [eventsFrom_append, eventsFrom_append, createSteps_events, createSteps_regs, initSteps_events]
    simp [eventsFrom, microEvents, createdSession, cfgBacklight]
  have hgo : ∀ m ∈ createSteps a c g ++ initSteps ++ [.set (.isOpen true)], Micro.goesOn m = true := by
    simp only [List.mem_append, List.mem_singleton]
    rintro m ((h | h) | rfl)
    · exact createSteps_goesOn a c g m h
    · exact initSteps_goesOn m h
    · rfl
  have hdraws : drawCount (.busOpen (cfgAddr a) true :: initEvents (c.getLsbD 7)) = 26 := by
    cases c.getLsbD 7 <;> rfl
  have hserve := serve_ok (some (.init a c x y)) _ [] hr hgo (by rwa [hevents, hdraws])
  rw [hregs, hevents, ← hprogram] at hserve
  exact hserve

/-- Settles O18: three 8-bit-mode nibbles settle the width, the next selects 4 bits, the commands do the rest; no word of
INIT can write a memory. -/
theorem initConverges : Obligations.InitConverges := by
  unfold Obligations.InitConverges
  intro a c x y g s hr ho hg ha
  refine ⟨_, exec_init_ok hr ho hg ha, ?_⟩
  have hobs : (completed s (createdSession a c g true) (.busOpen (cfgAddr a) true :: initEvents (c.getLsbD 7)) []).obs =
      replay (initEvents (c.getLsbD 7)) s.obs := rfl
  rw [hobs]
  obtain ⟨hd, hc⟩ := sameMemories_replay (initEvents_keepsMemories (c.getLsbD 7)) s.obs
  have hin := inStep_selectNibble (c.getLsbD 7)
    (replay_threes_ifw (c.getLsbD 7) 5000 150 150 (replay (rawEvents (c.getLsbD 7)) s.obs))
  have hend := hin.replay_initCommands (c.getLsbD 7)
  simp only [← replay_append] at hend
  simp only [hd, hc]
  rw [initEvents_eq, hend]
  exact ⟨rfl, hin.2.1, rfl, rfl, rfl, rfl, rfl, trivial, trivial⟩

end Sys2Proof

/-! SUPPORT. What a failed write leaves, what brings a lost phase back, what keeps the bus in order, and how long a delay
lasts. -/

namespace Sys2Proof

open Machine

/-! ## Histories with and without a failed write (spec/20_memory.md R76, spec/70_reset_and_hazards.md R248) -/

/-- No event is a failed write. -/
def NoFailure (evs : List Event) : Prop := ∀ w, Event.wr w false ∉ evs

/-- Behind the history `h`, no write has failed. -/
def Unbroken (h : List Event) (t : State) : Prop := ∃ evs, t.history = h ++ evs ∧ NoFailure evs

/-- The last events of a request that a failed write ends: the response, for an INIT behind the close
(spec/41_init_lifecycle.md R145). -/
def RaiseEvents (e : Status) (tail : List Event) : Prop := tail = [.rsp e []] ∨ tail = [.close, .rsp e []]

/-- Behind the history `h`, the first write that failed has ended the request and left nothing of the controller known. -/
def BrokenOff (h : List Event) (t : State) : Prop :=
  ∃ before w tail, t.history = h ++ (before ++ .wr w false :: tail) ∧ NoFailure before ∧
    RaiseEvents .writeFailed tail ∧
    ∃ o landed, t.obs = Observer.failedWrite w landed o

theorem RaiseEvents.noFailure {e : Status} {tail : List Event} (h : RaiseEvents e tail) : NoFailure tail := by
  intro w
  rcases h with rfl | rfl <;> simp

theorem Unbroken.append {h evs : List Event} {s t : State} (hs : Unbroken h s) (ht : t.history = s.history ++ evs)
    (he : NoFailure evs) : Unbroken h t := by
  obtain ⟨before, hb, hn⟩ := hs
  refine ⟨before ++ evs, by rw [ht, hb, List.append_assoc], fun w hw => ?_⟩
  exact (List.mem_append.1 hw).elim (hn w) (he w)

theorem raise_history (e : Status) (s : State) :
    ∃ tail, RaiseEvents e tail ∧ (raise e s).history = s.history ++ tail := by
  by_cases he : e = .writeFailed
  · subst he
    simp only [raise, State.onWriteFailed]
    split
    · exact ⟨[.close, .rsp .writeFailed []], .inr rfl, by simp⟩
    · exact ⟨_, .inl rfl, rfl⟩
  · exact ⟨_, .inl rfl, by rw [raise_eq_respond e he]; rfl⟩

theorem Unbroken.raise {h : List Event} {s t : State} (e : Status) (hs : Unbroken h s) (ht : t.history = s.history) :
    Unbroken h (Machine.raise e t) := by
  obtain ⟨tail, htail, hr⟩ := raise_history e t
  exact hs.append (by rw [hr, ht]) htail.noFailure

/-- A request goes on unbroken; where it ends, it is unbroken or its first failed write has ended it. -/
theorem stable_unbroken (h : List Event) :
    Stable (Unbroken h) (fun t => Unbroken h t ∨ BrokenOff h t) (fun _ _ => True) (fun _ => True) where
  wrOk _ w _ hs := hs.append (evs := [.wr w true]) rfl (by simp [NoFailure])
  wrFail s w landed _ hs := by
    obtain ⟨before, hb, hn⟩ := hs
    obtain ⟨tail, htail, hr⟩ := raise_history .writeFailed
      ((s.emit (.wr w false)).drawn.observe (Observer.failedWrite w landed))
    exact .inr ⟨before, w, tail, by rw [hr]; simp [hb], hn, htail, s.obs, landed, by rw [raise_obs]; rfl⟩
  openOk _ a hs := hs.append (evs := [.busOpen a true]) rfl (by simp [NoFailure])
  openFail s a hs := .inl ((hs.append (evs := [.busOpen a false]) (t := s.emit (.busOpen a false)) rfl
    (by simp [NoFailure])).raise _ rfl)
  close _ hs := hs.append (evs := [.close]) rfl (by simp [NoFailure])
  load _ _ hs := hs
  wait _ n hs := hs.append (evs := [.dl n]) rfl (by simp [NoFailure])
  set _ _ _ hs := hs
  raise _ e hs := .inl (hs.raise e rfl)
  respond _ d hs := .inl (hs.append (evs := [.rsp .ok d]) rfl (by simp [NoFailure]))
  reset _ hs := .inl hs

/-- What holds where a flow goes on or is over holds of the state it has reached. -/
theorem Flow.Holds.reached {P Q R : State → Prop} {x : Flow} (h : Flow.Holds P Q x) (hp : ∀ s, P s → R s)
    (hq : ∀ s, Q s → R s) : R x.state := by
  cases x with
  | go s => exact hp s h
  | done s => exact hq s h

theorem exec_unbroken_or_brokenOff {i : Instr} {s t : State} (h : exec i s = .next t) :
    Unbroken s.history t ∨ BrokenOff s.history t := by
  have hs : Unbroken s.history s := ⟨[], by simp, by simp [NoFailure]⟩
  have fit : WordsFit (Unbroken s.history) (fun _ _ => True) := fun _ _ _ _ _ _ _ => trivial
  rcases isRequest_or_microOf i with hi | ⟨m, hm⟩
  · rw [eq_served_of_exec hi h]
    have hrun := (stable_unbroken s.history).runAll fit (requestProgram i s) (requestProgram_shape i hi s).2
      (fun _ _ => trivial) (s := accept (some (heldRequest i)) (requestProgram i s) s) hs
    exact hrun.reached (fun _ => .inl) fun _ => id
  · rw [exec_micro hm] at h
    cases h
    have hrun := (stable_unbroken s.history).micro fit m (fun _ _ => trivial) (fun _ _ => trivial) hs
    exact hrun.reached (fun _ => .inl) fun _ => id

/-- Settles O49: the first failed write ends every instruction, and nothing of the controller is known behind it. -/
theorem failedWriteLosesThePosition : Obligations.FailedWriteLosesThePosition := by
  unfold Obligations.FailedWriteLosesThePosition
  refine ⟨fun w landed o => ⟨rfl, rfl, phaseLost_failedWrite o w landed⟩, fun i s t evs w _ h hh hw => ?_⟩
  rcases exec_unbroken_or_brokenOff h with ⟨evs', he, hn⟩ | ⟨before, w', tail, he, hn, htail, o, landed, ho⟩
  · cases List.append_cancel_left (hh.symm.trans he)
    exact absurd hw (hn w)
  · cases List.append_cancel_left (hh.symm.trans he)
    have hww : w = w' := by
      rcases List.mem_append.1 hw with hb | hb
      · exact absurd hb (hn w)
      · rcases List.mem_cons.1 hb with hb | hb
        · cases hb; rfl
        · exact absurd hb (htail.noFailure w)
    subst hww
    refine ⟨ho ▸ phaseLost_failedWrite o w landed, fun a => ?_, fun a => ?_, before, ?_⟩
    · rw [ddramAt, ho]; rfl
    · rw [cgramAt, ho]; rfl
    · exact htail.imp (by rintro rfl; rfl) (by rintro rfl; rfl)

/-! ## A lost phase (R76; log 14) -/

/-- `x` goes on with the registers of `s` and the observer as `evs` leave it, or is over with the phase lost. -/
abbrev Sees (s : State) (evs : List Event) (x : Flow) : Prop :=
  Flow.Holds (fun t => t.regs = s.regs ∧ t.obs = replay evs s.obs) (fun t => PhaseLost t.obs) x

theorem Sees.andThen {s : State} {a b : List Event} {x : Flow} {f : State → Flow} (hx : Sees s a x)
    (hf : ∀ t, t.regs = s.regs → Sees t b (f t)) : Sees s (a ++ b) (x.andThen f) := by
  cases x with
  | done t => exact hx
  | go t =>
    obtain ⟨hregs, hobs⟩ := hx
    have ht := hf t hregs
    rw [Flow.andThen_go]
    cases hu : f t with
    | done u => rw [hu] at ht; exact ht
    | go u =>
      rw [hu] at ht
      exact ⟨ht.1.trans hregs, by rw [ht.2, hobs, replay_append]⟩

theorem phaseLost_unknown : PhaseLost Observer.unknown := ⟨rfl, .inr (.inl rfl)⟩

theorem sees_busWrite (w : Byte) (s : State) : Sees s [.wr w true] (busWrite w s) := by
  rcases busWrite_cases w s with ⟨-, e⟩ | ⟨-, e⟩ | ⟨landed, -, e⟩ <;> rw [e]
  · exact phaseLost_unknown
  · exact ⟨rfl, rfl⟩
  · show PhaseLost (raise _ _).obs
    rw [raise_obs]
    exact phaseLost_failedWrite s.obs w landed

theorem sees_delay (n : Nat) (s : State) : Sees s [.dl n] (delay n s) := by
  rcases delay_cases n s with ⟨-, t, e, -⟩ | e <;> rw [e]
  · exact phaseLost_unknown
  · exact ⟨rfl, rfl⟩

theorem sees_nibOp (n : Nibble) (rs : Bool) (s : State) : Sees s (nibEvents s.regs.backlightOn n rs) (nibOp n rs s) := by
  simp only [nibOp, xword_or_en]
  exact (sees_busWrite _ s).andThen fun t1 _ => (sees_delay _ t1).andThen fun t2 _ =>
    (sees_busWrite _ t2).andThen fun t3 _ => sees_delay _ t3

theorem sees_byteOp (v : Byte) (rs : Bool) (s : State) : Sees s (byteEvents s.regs.backlightOn v rs) (byteOp v rs s) :=
  (sees_nibOp (highNibble v) rs s).andThen fun t ht => ht ▸ sees_nibOp (lowNibble v) rs t

/-- One micro-operation: the observer is as its events leave it, or the request is over with the phase lost or with the
observer as it was. -/
theorem micro_replay_or_lost (m : Micro) (s : State) :
    Flow.Holds (fun t => t.obs = replay (microEvents s.regs.backlightOn m) s.obs)
      (fun t => PhaseLost t.obs ∨ t.obs = s.obs) (m.run s) := by
  have sees : ∀ {evs x}, Sees s evs x →
      Flow.Holds (fun t => t.obs = replay evs s.obs) (fun t => PhaseLost t.obs ∨ t.obs = s.obs) x := by
    intro evs x h
    cases x with
    | go t => exact h.2
    | done t => exact .inl h
  have lost : PhaseLost (abandon s).obs ∨ (abandon s).obs = s.obs := .inl phaseLost_unknown
  cases m with
  | busOpen a =>
    show Flow.Holds _ _ (Machine.busOpen a s)
    rcases busOpen_cases a s with ⟨-, e⟩ | ⟨-, e⟩ | ⟨landed, -, e⟩ <;> rw [e]
    · exact lost
    · exact rfl
    · exact .inr rfl
  | busClose => exact Flow.Holds.goUnlessReset (fun s => (s.emit .close).advance) lost rfl
  | word w => exact sees (sees_busWrite w s)
  | raw => exact sees (sees_busWrite _ s)
  | nib n rs => exact sees (sees_nibOp n rs s)
  | cmd v => exact sees (sees_byteOp v false s)
  | data v => exact sees (sees_byteOp v true s)
  | loadDelay n =>
    exact Flow.Holds.goUnlessReset (fun s => { s with seq := { s.seq with delayCtr := Config.delayCycles n } }) lost rfl
  | waitDelay n =>
    exact Flow.Holds.goUnlessReset
      (fun s => (({ s with seq := { s.seq with delayCtr := 0 } } : State).advance.emit (.dl n))) lost rfl
  | set w => exact Flow.Holds.goUnlessReset (fun s => (s.setReg w).advance) lost rfl
  | raise e => exact Flow.Holds.doneUnlessReset (Machine.raise e) lost (.inr (raise_obs e s))
  | respond d => exact Flow.Holds.doneUnlessReset (Machine.respond .ok d) lost (.inr rfl)

/-- A micro-operation whose events do not bring a lost phase back. -/
def KeepsLost (m : Micro) : Prop := ∀ bl o, PhaseLost o → PhaseLost (replay (microEvents bl m) o)

/-- Nor does a micro-program of such operations, whatever the bus answers. -/
theorem phaseLost_runAll {ms : List Micro} (hms : ∀ m ∈ ms, KeepsLost m) {s : State} (h : PhaseLost s.obs) :
    PhaseLost (runAll ms s).state.obs := by
  induction ms generalizing s with
  | nil => exact h
  | cons m ms ih =>
    have hm := micro_replay_or_lost m s
    rw [runAll]
    cases hx : m.run s with
    | go t =>
      rw [hx] at hm
      have ht : PhaseLost t.obs := hm ▸ hms m (List.mem_cons_self ..) _ _ h
      exact ih (fun k hk => hms k (List.mem_cons_of_mem _ hk)) ht
    | done t =>
      rw [hx] at hm
      exact hm.elim id fun e => e ▸ h

/-! ## What the controller makes of a transfer with the phase lost -/

/-- No 8-bit-mode nibble has come since the phase was lost. -/
def NoneOfThree (o : Observer) : Prop := o.phase = none ∧ o.ifw = .unknown 0

theorem phaseLost_latch_data {o : Observer} (n : Nibble) (h : PhaseLost o) : PhaseLost (o.latch n true) := by
  obtain ⟨hp, hw⟩ := h
  rcases hw with hw | hw | hw
  · have e : o.latch n true = o.blurData := by simp only [Observer.latch, hw, hp, if_true]
    rw [e]
    exact ⟨rfl, .inl hw⟩
  all_goals
    have e : o.latch n true = { o.blurData with ifw := .unknown 0 } := by simp only [Observer.latch, hw, if_true]
    rw [e]
    exact ⟨rfl, .inr (.inl rfl)⟩

/-- A nibble of register-select 0 with the phase lost: only the count of 8-bit-mode nibbles is told. -/
theorem latch_command_of_lost {o : Observer} (n : Nibble) (h : PhaseLost o) :
    ∃ k, (o.ifw = .unknown 0 → k = 0) ∧ o.latch n false = { o.blurCommand n with ifw := widthAfter k n } := by
  obtain ⟨hp, hw⟩ := h
  rcases hw with hw | hw | hw
  · exact ⟨0, fun _ => rfl, by simp only [Observer.latch, hw, hp, Bool.false_eq_true, if_false]⟩
  · exact ⟨0, fun _ => rfl, by simp only [Observer.latch, hw, Bool.false_eq_true, if_false]⟩
  · exact ⟨1, fun e => by simp [hw] at e, by simp only [Observer.latch, hw, Bool.false_eq_true, if_false]⟩

theorem noneOfThree_latch {o : Observer} {n : Nibble} (hn : n ≠ Config.NIB_8BIT) (h : PhaseLost o) :
    NoneOfThree (o.latch n false) := by
  obtain ⟨k, -, e⟩ := latch_command_of_lost n h
  rw [e]
  exact ⟨rfl, if_neg hn⟩

theorem NoneOfThree.phaseLost {o : Observer} (h : NoneOfThree o) : PhaseLost o := ⟨h.1, .inr (.inl h.2)⟩

theorem NoneOfThree.latch {o : Observer} (n : Nibble) (h : NoneOfThree o) : PhaseLost (o.latch n false) := by
  obtain ⟨k, hk, e⟩ := latch_command_of_lost n h.phaseLost
  rw [e, hk h.2]
  by_cases hn : n = Config.NIB_8BIT
  · exact ⟨rfl, .inr (.inr (by simp [widthAfter, hn]))⟩
  · exact ⟨rfl, .inr (.inl (if_neg hn))⟩

/-- A data byte does not settle the phase. -/
theorem keepsLost_data (v : Byte) : KeepsLost (.data v) := by
  intro bl o h
  have h1 : PhaseLost (replay (nibEvents bl (highNibble v) true) o) := by
    rw [replay_nibEvents]
    exact phaseLost_latch_data _ h
  show PhaseLost (replay (byteEvents bl v true) o)
  rw [byteEvents, replay_append, replay_nibEvents]
  exact phaseLost_latch_data _ h1

/-- A command whose high half is no 8-bit-mode nibble does not settle the phase: its two nibbles count as at most one. -/
theorem keepsLost_cmd {v : Byte} (hv : highNibble v ≠ Config.NIB_8BIT) : KeepsLost (.cmd v) := by
  intro bl o h
  have h1 : NoneOfThree (replay (nibEvents bl (highNibble v) false) o) := by
    rw [replay_nibEvents]
    exact noneOfThree_latch hv h
  show PhaseLost (replay (byteEvents bl v false) o)
  rw [byteEvents, replay_append, replay_nibEvents]
  exact h1.latch _

/-- RAW's word latches at most the nibble 0. -/
theorem keepsLost_raw : KeepsLost .raw := by
  intro bl o h
  show PhaseLost (o.write (xword 0 false false bl))
  obtain ⟨o', e, hcases⟩ := Observer.write_cases o (xword 0 false false bl)
  rw [highNibble_xword, xword_rs] at hcases
  rw [e]
  rcases hcases with rfl | ⟨-, rfl | rfl⟩
  · exact h
  · exact (noneOfThree_latch (by decide) h).phaseLost
  · exact ⟨rfl, .inr (.inl rfl)⟩

theorem keepsLost_set (w : RegWrite) : KeepsLost (.set w) := fun _ _ h => h

theorem keepsLost_raise (e : Status) : KeepsLost (.raise e) := fun _ _ h => h

theorem keepsLost_respond (d : List Byte) : KeepsLost (.respond d) := fun _ _ h => h

theorem keepsLost_loadDelay (n : Nat) : KeepsLost (.loadDelay n) := fun _ _ h => h

theorem keepsLost_waitDelay (n : Nat) : KeepsLost (.waitDelay n) := fun _ _ h => h

theorem highNibble_setDdramCommand (a : Addr) : highNibble (setDdramCommand a) ≠ Config.NIB_8BIT := by
  revert a; decide +kernel

theorem highNibble_setCgramCommand (slot : Byte) : highNibble (setCgramCommand slot) ≠ Config.NIB_8BIT := by
  revert slot; decide +kernel

theorem highNibble_displayCommand (d : BitVec 3) : highNibble (displayCommand d) ≠ Config.NIB_8BIT := by
  revert d; decide

/-- A micro-program of such operations. -/
def AllKeepLost (ms : List Micro) : Prop := ∀ m ∈ ms, KeepsLost m

theorem AllKeepLost.nil : AllKeepLost [] := by simp [AllKeepLost]

theorem AllKeepLost.cons {m : Micro} {ms : List Micro} (h : KeepsLost m) (hs : AllKeepLost ms) : AllKeepLost (m :: ms) :=
  List.forall_mem_cons.2 ⟨h, hs⟩

theorem AllKeepLost.append {a b : List Micro} (ha : AllKeepLost a) (hb : AllKeepLost b) : AllKeepLost (a ++ b) :=
  List.forall_mem_append.2 ⟨ha, hb⟩

theorem allKeepLost_respond (d : List Byte) : AllKeepLost [.respond d] := AllKeepLost.nil.cons (keepsLost_respond d)

theorem allKeepLost_data (text : List Byte) : AllKeepLost (text.map Micro.data) := by
  intro m hm
  obtain ⟨v, -, rfl⟩ := List.mem_map.1 hm
  exact keepsLost_data v

theorem allKeepLost_delaySteps (n : Nat) : AllKeepLost (delaySteps n) :=
  (AllKeepLost.nil.cons (keepsLost_waitDelay n)).cons (keepsLost_loadDelay n)

/-- A failed check raises; so a checked micro-program is as the one behind the check. -/
theorem allKeepLost_andThen {α : Type} {c : Checked α} {f : α → Checked (List Micro)}
    (h : ∀ a, AllKeepLost (f a).program) : AllKeepLost (c.andThen f).program := by
  cases c with
  | ok a => exact h a
  | err e => exact AllKeepLost.nil.cons (keepsLost_raise e)

theorem allKeepLost_longCommand {v : Byte} (hv : highNibble v ≠ Config.NIB_8BIT) (n : Nat) :
    AllKeepLost ([.cmd v] ++ delaySteps n ++ [.respond []]) :=
  ((AllKeepLost.nil.cons (keepsLost_cmd hv)).append (allKeepLost_delaySteps n)).append (allKeepLost_respond [])

theorem allKeepLost_setFlagProgram (mask : BitVec 3) (v : Bool) (s : State) :
    AllKeepLost (setFlagProgram mask v s).program :=
  allKeepLost_andThen fun _ =>
    ((allKeepLost_respond []).cons (keepsLost_set _)).cons (keepsLost_cmd (highNibble_displayCommand _))

theorem allKeepLost_lineProgram (line : Byte) (text : List Byte) (s : State) :
    AllKeepLost (lineProgram line text s).program :=
  allKeepLost_andThen fun _ => allKeepLost_andThen fun a =>
    ((AllKeepLost.nil.cons (keepsLost_cmd (highNibble_setDdramCommand a))).append (allKeepLost_data _)).append
      (allKeepLost_respond [])

/-- The requests on an open session send data, RAW's word, and commands of which none begins with the 8-bit-mode nibble. -/
theorem allKeepLost_requestProgram {i : Instr} (hi : needsOpen i = true) (s : State) : AllKeepLost (requestProgram i s) := by
  have hdata : ∀ text, AllKeepLost (putStringProgram text s).program := fun text =>
    allKeepLost_andThen fun _ => (allKeepLost_data text).append (allKeepLost_respond [])
  cases i
  case clear | home => exact allKeepLost_andThen fun _ => allKeepLost_longCommand (by decide) _
  case display | cursor | blink => exact allKeepLost_setFlagProgram _ _ s
  case clearLine | setLine => exact allKeepLost_lineProgram _ _ s
  case putString | formattedWrite => exact hdata _
  case putChar ch => exact hdata [ch]
  case setCursor =>
    exact allKeepLost_andThen fun _ => allKeepLost_andThen fun a =>
      (allKeepLost_respond []).cons (keepsLost_cmd (highNibble_setDdramCommand a))
  case backlightSet =>
    exact allKeepLost_andThen fun _ => ((allKeepLost_respond []).cons keepsLost_raw).cons (keepsLost_set _)
  case backlightGet | getDimensions => exact allKeepLost_andThen fun _ => allKeepLost_respond _
  case createCustomChar slot pat =>
    exact allKeepLost_andThen fun _ => allKeepLost_andThen fun _ =>
      ((AllKeepLost.nil.cons (keepsLost_cmd (highNibble_setCgramCommand slot))).append (allKeepLost_data pat)).append
        ((allKeepLost_respond []).cons (keepsLost_cmd (highNibble_setDdramCommand 0)))
  all_goals cases hi

/-- Settles O50: whatever the bus answers, no micro-operation of such a request brings the phase back. -/
theorem lostPhaseStaysLost : Obligations.LostPhaseStaysLost := by
  unfold Obligations.LostPhaseStaysLost
  intro i s t hi _ _ hlost h
  have hreq : isRequest i = true := by
    simp only [needsOpen, Bool.and_eq_true] at hi
    exact hi.1.1
  rw [eq_served_of_exec hreq h]
  exact phaseLost_runAll (allKeepLost_requestProgram hi s) hlost

/-! ## The bus in order, in the middle of a request (spec/20_memory.md R70, spec/30_encoding.md R81) -/

/-- A micro-operation leaves the rest of the micro-program, or ends the request. -/
theorem micro_prog (m : Micro) (ms : List Micro) (s : State) :
    (m.run (withProg ms s)).state.seq.prog = ms ∨ (m.run (withProg ms s)).state.seq.prog = [] := by
  have hon := micro_onOrEnded m s
  rw [progBlind_micro m ms s]
  cases hx : m.run s with
  | go t => exact .inl rfl
  | done t =>
    rw [hx] at hon
    exact .inr (congrArg Sequencer.prog (Ended.seq hon))

/-- The next micro-operation keeps the bus in order, whether it goes on, ends the request or waits. -/
theorem busInv_stepMicro {m : Micro} {ms : List Micro} {s : State} (hp : s.seq.prog = m :: ms) (h : BusInv s) :
    BusInv (stepMicro m ms s) := by
  obtain ⟨hobs, hwords⟩ := h
  rw [hp] at hwords
  rcases stepMicro_cases m ms s with e | e <;> rw [e]
  · refine ⟨hobs, fun w hw => hwords w ?_⟩
    rwa [← hp]
  · have hrun := stable_observerInv.micro (fun _ _ _ _ n rs en => xword_rw n rs en _) m
      (fun w hw => hwords w (by rw [hw]; exact List.mem_cons_self ..)) (fun _ _ => trivial) (s := withProg ms s) hobs
    refine ⟨Flow.Holds.state (P := fun s => ObserverInv s.obs) hrun, fun w hw => ?_⟩
    rcases micro_prog m ms s with hq | hq <;> rw [hq] at hw
    · exact hwords w (List.mem_cons_of_mem _ hw)
    · cases hw

theorem step_busy_reset {s : State} {rest : List HostMove} (hb : s.seq.busy = true) (hm : s.env.moves = .reset :: rest) :
    step s = .next (abandon { s with env := { s.env with moves := rest } }) := by
  simp only [step, hb, if_true, stepBusy, hm]

theorem busInv_of_idle {s : State} (hobs : ObserverInv s.obs) (hs : s.seq = Sequencer.idle) : BusInv s := by
  refine ⟨hobs, fun w hw => ?_⟩
  rw [hs] at hw
  cases hw

/-- Settles O53, by the move an idle block takes and by the busy block's next micro-operation. -/
theorem stepKeepsTheBusInOrder : Obligations.StepKeepsTheBusInOrder := by
  unfold Obligations.StepKeepsTheBusInOrder
  intro s t hinv h
  cases hb : s.seq.busy with
  | false =>
    rcases hm : s.env.moves with _ | ⟨⟨p, r⟩ | _, rest⟩
    · rw [step_idle_nil hb hm] at h
      cases h
      exact hinv
    · rw [step_idle_request hb hm] at h
      cases h
      obtain ⟨pre, -, he⟩ :=
        served_ended (held := packetRequest p) (s := takePacket r rest s) (runAll_packetProgram_done p s _)
      exact busInv_of_idle (observerInv_served (word_not_mem_packetProgram p s) hinv.1) he.seq
    · rw [step_idle_reset hb hm] at h
      cases h
      exact busInv_of_idle hinv.1 rfl
  | true =>
    by_cases hn : NoReset s
    · cases hp : s.seq.prog with
      | nil => simp [step_busy_underrun hb hn hp] at h
      | cons m ms =>
        rw [step_busy hb hn hp] at h
        cases h
        exact busInv_stepMicro hp hinv
    · obtain ⟨rest, hm⟩ := not_forall_not.1 hn
      rw [step_busy_reset hb hm] at h
      cases h
      exact busInv_of_idle observerInv_unknown rfl

/-! ## Delays (spec/20_memory.md R55, spec/10_state.md R33) -/

/-- The number of cycles is the ceiling of R55. -/
theorem delayCycles_bounds (n : Nat) :
    n * Config.CLK_HZ ≤ Config.delayCycles n * 1000000 ∧ Config.delayCycles n * 1000000 < n * Config.CLK_HZ + 1000000 := by
  rw [Config.delayCycles, Nat.mul_comm Config.CLK_HZ n]
  omega

/-- The state with `c` cycles left of a `Delay` and `p` left of the micro-program. -/
def counting (p : List Micro) (c : Nat) (s : State) : State :=
  { s with seq := { s.seq with prog := p, delayCtr := c } }

theorem step_counting {s : State} (hb : s.seq.busy = true) (hn : NoReset s) (m : Micro) (ms : List Micro) (c : Nat) :
    step (counting (m :: ms) c s) = .next (stepMicro m ms (counting (m :: ms) c s)) :=
  step_busy (s := counting (m :: ms) c s) hb hn rfl

/-- A step loads the delay counter. -/
theorem step_loadDelay {s : State} {n : Nat} {ms : List Micro} (hb : s.seq.busy = true) (hn : NoReset s)
    (hr : s.seq.resetAt = none) (hp : s.seq.prog = .loadDelay n :: ms) :
    step s = .next (counting ms (Config.delayCycles n) s) := by
  have hrun : (Micro.loadDelay n).run (withProg ms s) = .go (counting ms (Config.delayCycles n) s) := by
    rw [Micro.run, Machine.loadDelay, unlessReset_none _ (show (withProg ms s).seq.resetAt = none from hr)]
    rfl
  rw [step_busy hb hn hp, stepMicro_run (by simp), hrun, Flow.state_go]

/-- The counter goes down by one a step, and nothing else happens. -/
theorem runSteps_counting {s : State} {n : Nat} {ms : List Micro} (hb : s.seq.busy = true) (hn : NoReset s)
    (hr : s.seq.resetAt = none) (k c : Nat) :
    runSteps k (counting (.waitDelay n :: ms) (c + k) s) = .next (counting (.waitDelay n :: ms) c s) := by
  induction k with
  | zero => rfl
  | succ k ih =>
    have hw : Waiting (counting (.waitDelay n :: ms) (c + (k + 1)) s) :=
      ⟨Nat.succ_ne_zero _, fun h => by cases hr.symm.trans h⟩
    have hstep : step (counting (.waitDelay n :: ms) (c + (k + 1)) s) = .next (counting (.waitDelay n :: ms) (c + k) s) := by
      rw [step_counting hb hn, stepMicro_waiting n ms hw]
      rfl
    simp only [runSteps, hstep, ih]

/-- Settles O59: one step loads the counter, each cycle is a step, and one more step makes the event. -/
theorem delayLastsItsCycles : Obligations.DelayLastsItsCycles := by
  unfold Obligations.DelayLastsItsCycles
  refine ⟨delayCycles_bounds, fun s n ms hb hn hr hp => ?_⟩
  have hload := runSteps_one (step_loadDelay hb hn hr hp)
  have hrun : ∀ k, k ≤ Config.delayCycles n →
      runSteps (1 + k) s = .next (counting (.waitDelay n :: ms) (Config.delayCycles n - k) s) := fun k hk => by
    rw [runSteps_add hload, ← runSteps_counting hb hn hr k, Nat.sub_add_cancel hk]
  refine ⟨fun k hk => ⟨_, hrun k hk, rfl, rfl, rfl, rfl⟩, ?_⟩
  have hlast := hrun _ (Nat.le_refl _)
  rw [Nat.sub_self] at hlast
  have hdone : step (counting (.waitDelay n :: ms) 0 s) = .next (((counting ms 0 s).advance).emit (.dl n)) := by
    have hrun : (Micro.waitDelay n).run (counting ms 0 s) = .go ((counting ms 0 s).advance.emit (.dl n)) := by
      rw [Micro.run, Machine.waitDelay, unlessReset_none _ (show (counting ms 0 s).seq.resetAt = none from hr)]
      rfl
    rw [step_counting hb hn, stepMicro_waited n ms fun h => h.1 rfl]
    exact congrArg (fun x => Host.Outcome.next x.state) hrun
  refine ⟨(counting ms 0 s).advance.emit (.dl n), ?_, rfl, rfl, rfl, rfl⟩
  rw [show 2 + Config.delayCycles n = 1 + Config.delayCycles n + 1 by omega, runSteps_add hlast, runSteps_one hdone]

end Sys2Proof

/-! SUPPORT. The decoder and the encoder side by side: the bytes of each opcode, the operands behind it, the lengths. -/

namespace Sys2Proof

open Machine

/-! ## Opcodes (spec/30_encoding.md R100, R101) -/

/-- The opcode byte of an operation, with `v` in bit 0 where the operation has a value operand (R101). -/
def opcodeByte (v : Bool) : Opcode → Byte
  | .init => 0x01
  | .openSession => 0x02
  | .teardown => 0x03
  | .clear => 0x10
  | .home => 0x11
  | .clearLine => 0x12
  | .setCursor => 0x13
  | .setLine => 0x14
  | .display => valueOp 0x20 v
  | .cursor => valueOp 0x22 v
  | .blink => valueOp 0x24 v
  | .backlightSet => valueOp 0x26 v
  | .backlightGet => 0x28
  | .getDimensions => 0x29
  | .putChar => 0x30
  | .putString => 0x31
  | .createCustomChar => 0x40

theorem opcodeOf_opcodeByte (v : Bool) (op : Opcode) : opcodeOf (opcodeByte v op) = some op := by
  cases op <;> revert v <;> decide

/-- Bit 0 of an opcode byte is the value operand, where the operation has one. -/
theorem readOperands_opcodeByte (v : Bool) (op : Opcode) (rest : List Byte) :
    readOperands op ((opcodeByte v op).getLsbD 0) rest = readOperands op v rest := by
  cases op
  case display | cursor | blink | backlightSet => cases v <;> rfl
  all_goals rcases rest with _ | ⟨a, _ | ⟨b, _ | ⟨c, _ | ⟨d, _ | ⟨e, l⟩⟩⟩⟩⟩ <;> rfl

/-- Every byte that is read as an operation is its opcode byte, the value operand from bit 0. -/
theorem opcodeByte_of_opcodeOf {b : Byte} {op : Opcode} (h : opcodeOf b = some op) : opcodeByte (b.getLsbD 0) op = b := by
  have hall : ∀ b : Byte, (opcodeOf b).all (fun op => opcodeByte (b.getLsbD 0) op = b) = true := by decide +kernel
  simpa [h] using hall b

theorem decode_cons_of_opcodeOf {b : Byte} {op : Opcode} (h : opcodeOf b = some op) (rest : List Byte) (i : Instr) :
    decode (b :: rest) = .ok i ↔ readOperands op (b.getLsbD 0) rest = some i := by
  simp only [decode, h]
  cases readOperands op (b.getLsbD 0) rest <;> simp

theorem decode_opcodeByte (op : Opcode) (v : Bool) {rest : List Byte} {i : Instr} (h : readOperands op v rest = some i) :
    decode (opcodeByte v op :: rest) = .ok i := by
  rw [decode_cons_of_opcodeOf (opcodeOf_opcodeByte v op), readOperands_opcodeByte, h]

/-- The packets the request decoder accepts: an opcode byte and the operands behind it (R96, R99). -/
theorem decode_eq_ok_iff (p : List Byte) (i : Instr) :
    decode p = .ok i ↔ ∃ op v rest, p = opcodeByte v op :: rest ∧ readOperands op v rest = some i := by
  constructor
  · intro h
    cases p with
    | nil => cases h
    | cons b rest =>
      cases ho : opcodeOf b with
      | none => simp [decode, ho] at h
      | some op =>
        exact ⟨op, b.getLsbD 0, rest, by rw [opcodeByte_of_opcodeOf ho], (decode_cons_of_opcodeOf ho rest i).1 h⟩
  · rintro ⟨op, v, rest, rfl, h⟩
    exact decode_opcodeByte op v h

/-! ## Operands (R98, R99) -/

/-- A string's length byte is the one that says its length. -/
theorem lenByte_of_length_eq {s : List Byte} {len : Byte} (h : s.length = len.toNat) : lenByte s = len := by
  rw [lenByte, h, BitVec.ofNat_toNat, BitVec.setWidth_eq]

theorem length_fits_of_lenByte {s : List Byte} {len : Byte} (h : s.length = len.toNat) : decide (s.length ≤ 255) = true := by
  have := len.isLt
  simp only [decide_eq_true_eq]
  omega

/-- The operands the decoder reads are those the encoder writes. -/
theorem encode_of_readOperands {op : Opcode} {v : Bool} {rest : List Byte} {i : Instr} (h : readOperands op v rest = some i) :
    encode i = opcodeByte v op :: rest ∧ WellFormed i = true := by
  cases op
  case setLine =>
    rcases rest with _ | ⟨line, _ | ⟨len, s⟩⟩
    · cases h
    · cases h
    · obtain ⟨hlen, hi⟩ := Option.ite_none_right_eq_some.1 h
      cases hi
      exact ⟨by simp only [encode, encodeWith, opcodeByte, lenByte_of_length_eq hlen], length_fits_of_lenByte hlen⟩
  case putString =>
    rcases rest with _ | ⟨len, s⟩
    · cases h
    · obtain ⟨hlen, hi⟩ := Option.ite_none_right_eq_some.1 h
      cases hi
      exact ⟨by simp only [encode, encodeWith, opcodeByte, lenByte_of_length_eq hlen], length_fits_of_lenByte hlen⟩
  case createCustomChar =>
    rcases rest with _ | ⟨slot, pat⟩
    · cases h
    · obtain ⟨hpat, hi⟩ := Option.ite_none_right_eq_some.1 h
      cases hi
      exact ⟨rfl, decide_eq_true hpat⟩
  all_goals
    rcases rest with _ | ⟨a, _ | ⟨b, _ | ⟨c, _ | ⟨d, _ | ⟨e, l⟩⟩⟩⟩⟩ <;> cases h
    exact ⟨rfl, rfl⟩

theorem readOperands_putString {s : List Byte} (h : s.length ≤ 255) (v : Bool) :
    readOperands .putString v (lenByte s :: s) = some (.putString s) := if_pos (lenByte_toNat s h).symm

theorem readOperands_setLine (line : Byte) {s : List Byte} (h : s.length ≤ 255) (v : Bool) :
    readOperands .setLine v (line :: lenByte s :: s) = some (.setLine line s) := if_pos (lenByte_toNat s h).symm

/-- The encoder writes an opcode byte and the operands the decoder reads behind it. -/
theorem encode_splits {i : Instr} (hw : WellFormed i = true) (hi : isRequest i = true) (hf : ∀ t, i ≠ .formattedWrite t) :
    ∃ op v rest, encode i = opcodeByte v op :: rest ∧ readOperands op v rest = some i := by
  cases i
  case init => exact ⟨.init, false, _, rfl, rfl⟩
  case openSession => exact ⟨.openSession, false, _, rfl, rfl⟩
  case teardown => exact ⟨.teardown, false, _, rfl, rfl⟩
  case clear => exact ⟨.clear, false, _, rfl, rfl⟩
  case home => exact ⟨.home, false, _, rfl, rfl⟩
  case clearLine => exact ⟨.clearLine, false, _, rfl, rfl⟩
  case setCursor => exact ⟨.setCursor, false, _, rfl, rfl⟩
  case setLine line s => exact ⟨.setLine, false, _, rfl, readOperands_setLine line (of_decide_eq_true hw) _⟩
  case display v => exact ⟨.display, v, _, rfl, rfl⟩
  case cursor v => exact ⟨.cursor, v, _, rfl, rfl⟩
  case blink v => exact ⟨.blink, v, _, rfl, rfl⟩
  case backlightSet v => exact ⟨.backlightSet, v, _, rfl, rfl⟩
  case backlightGet => exact ⟨.backlightGet, false, _, rfl, rfl⟩
  case getDimensions => exact ⟨.getDimensions, false, _, rfl, rfl⟩
  case putChar => exact ⟨.putChar, false, _, rfl, rfl⟩
  case putString s => exact ⟨.putString, false, _, rfl, readOperands_putString (of_decide_eq_true hw) _⟩
  case createCustomChar slot pat => exact ⟨.createCustomChar, false, _, rfl, if_pos (of_decide_eq_true hw)⟩
  case formattedWrite t => exact absurd rfl (hf t)
  all_goals cases hi

/-! ## The round trip -/

theorem decode_encode {i : Instr} (hw : WellFormed i = true) (hi : isRequest i = true) (hf : ∀ t, i ≠ .formattedWrite t) :
    decode (encode i) = .ok i := (decode_eq_ok_iff _ i).2 (encode_splits hw hi hf)

theorem encode_of_decode {p : List Byte} {i : Instr} (h : decode p = .ok i) : encode i = p ∧ WellFormed i = true := by
  obtain ⟨op, v, rest, rfl, hr⟩ := (decode_eq_ok_iff p i).1 h
  exact encode_of_readOperands hr

/-- Settles O7: decoder and encoder go through the same opcode byte and operands; a formatted write's packet is that of
the PUT_STRING of its cut text, which fits its length byte. -/
theorem decodeInvertsEncode : Obligations.DecodeInvertsEncode := by
  unfold Obligations.DecodeInvertsEncode
  refine ⟨fun i => decode_encode, fun t => ?_, fun p i h => ?_⟩
  · exact decode_encode (i := .putString (cutText t)) (decide_eq_true (cutText_length_le t)) rfl (by simp)
  · obtain ⟨he, hw⟩ := encode_of_decode h
    exact ⟨he, hw, decode_isRequest h⟩

/-- Settles O6: each packet of the map is an opcode byte and the operands that are read behind it. -/
theorem opcodeMapAsTheSpecGivesIt : Obligations.OpcodeMapAsTheSpecGivesIt := by
  unfold Obligations.OpcodeMapAsTheSpecGivesIt
  intro a c x y v text pat ht hp
  exact ⟨decode_opcodeByte .init false rfl, decode_opcodeByte .openSession false rfl, decode_opcodeByte .teardown false rfl,
    decode_opcodeByte .clear false rfl, decode_opcodeByte .home false rfl, decode_opcodeByte .clearLine false rfl,
    decode_opcodeByte .setCursor false rfl, decode_opcodeByte .setLine false (readOperands_setLine v ht false),
    decode_opcodeByte .display false rfl, decode_opcodeByte .display true rfl,
    decode_opcodeByte .cursor false rfl, decode_opcodeByte .cursor true rfl,
    decode_opcodeByte .blink false rfl, decode_opcodeByte .blink true rfl,
    decode_opcodeByte .backlightSet false rfl, decode_opcodeByte .backlightSet true rfl,
    decode_opcodeByte .backlightGet false rfl, decode_opcodeByte .getDimensions false rfl,
    decode_opcodeByte .putChar false rfl, decode_opcodeByte .putString false (readOperands_putString ht false),
    decode_opcodeByte .createCustomChar false (if_pos hp)⟩

/-! ## Undecodable packets (R99, R106) -/

/-- An opcode's operands are read exactly when the packet has the length `L` of R99. -/
theorem readOperands_isSome {b : Byte} {op : Opcode} (h : opcodeOf b = some op) (v : Bool) (rest : List Byte) :
    (readOperands op v rest).isSome = decide (packetLength (b :: rest) = some (b :: rest).length) := by
  simp only [packetLength, List.head?_cons, Option.bind_some, h, Option.map_some, Option.some.injEq]
  cases op
  case setLine =>
    rcases rest with _ | ⟨line, _ | ⟨len, s⟩⟩
    · rfl
    · rfl
    · refine Bool.eq_iff_iff.2 (Option.isSome_ite.trans ?_)
      simp
      omega
  case putString =>
    rcases rest with _ | ⟨len, s⟩
    · rfl
    · refine Bool.eq_iff_iff.2 (Option.isSome_ite.trans ?_)
      simp
      omega
  case createCustomChar =>
    rcases rest with _ | ⟨slot, pat⟩
    · rfl
    · refine Bool.eq_iff_iff.2 (Option.isSome_ite.trans ?_)
      simp
  all_goals rcases rest with _ | ⟨a, _ | ⟨b, _ | ⟨c, _ | ⟨d, _ | ⟨e, l⟩⟩⟩⟩⟩ <;> rfl

/-- The undecodable packets: a reserved opcode, or another length than R99 gives. -/
theorem decode_rejects_iff (p : List Byte) : (∃ r, decode p = .reject r) ↔ packetLength p ≠ some p.length := by
  cases p with
  | nil => simp [decode, packetLength]
  | cons b rest =>
    cases ho : opcodeOf b with
    | none => simp [decode, packetLength, ho]
    | some op =>
      rw [Ne, ← decide_eq_true_iff (p := _ = _), ← readOperands_isSome ho (b.getLsbD 0)]
      simp only [decode, ho]
      cases readOperands op (b.getLsbD 0) rest <;> simp

/-- The opcode values R106 reserves. -/
theorem opcodeOf_eq_none_iff (b : Byte) : opcodeOf b = none ↔
    b.toNat = 0x00 ∨ (0x04 ≤ b.toNat ∧ b.toNat ≤ 0x0F) ∨ (0x15 ≤ b.toNat ∧ b.toNat ≤ 0x1F) ∨
    (0x2A ≤ b.toNat ∧ b.toNat ≤ 0x2F) ∨ (0x32 ≤ b.toNat ∧ b.toNat ≤ 0x3F) ∨ 0x41 ≤ b.toNat := by
  revert b; decide +kernel

/-- Settles O5: a rejected packet is served as a request whose one check has failed. -/
theorem undecodablePacketsDoNothing : Obligations.UndecodablePacketsDoNothing := by
  unfold Obligations.UndecodablePacketsDoNothing
  refine ⟨decode_rejects_iff, opcodeOf_eq_none_iff, fun s p rest r hr hm hd => ?_⟩
  have hready : Ready { s with env := { s.env with moves := rest }, seq := { s.seq with resetAt := none } } := by
    rw [Ready, show s.seq = Sequencer.idle from hr]
    rfl
  rw [step_idle (by rw [hr]; rfl)]
  simp only [stepIdle, hm, servePacket, hd, serveUndecodable]
  rw [serve_err none .invalidArgument hready (by decide)]
  rfl

/-! ## What a step runs (R96, log 24) -/

/-- Settles O2: the idle step serves the packet, and serving a decodable packet is exec. -/
theorem idleStepServesTheDecodedRequest : Obligations.IdleStepServesTheDecodedRequest := by
  unfold Obligations.IdleStepServesTheDecodedRequest
  refine ⟨fun s p r rest i hb hm hd => ?_, fun s => step_idle_nil⟩
  simp only [step_idle hb, stepIdle, hm, servePacket, hd]

theorem step_present {p : List Byte} {i : Instr} (h : decode p = .ok i) (s : State) :
    step (present p s) = exec i { s with seq := Sequencer.idle } :=
  idleStepServesTheDecodedRequest.1 (present p s) p none s.env.moves i rfl rfl h

theorem dropResets_ne_reset (ms rest : List HostMove) : dropResets ms ≠ .reset :: rest := by
  induction ms with
  | nil => simp [dropResets]
  | cons m ms ih => cases m <;> simp [dropResets, ih]

theorem step_insertMicro {i : Instr} {m : Micro} (h : microOf i = some m) (s : State) :
    step (insertMicro m s) =
      exec i { s with
        seq := { s.seq with
          busy := true, resetAt := none
          prog := if s.seq.busy then s.seq.prog else [.respond []] }
        env := { s.env with moves := dropResets s.env.moves } } :=
  busyStepRunsTheNextMicroOperation (insertMicro m s) i m _ rfl (fun rest => dropResets_ne_reset s.env.moves rest) rfl h

/-- A byte that is read as a micro-operation row has a micro-operation. -/
theorem microOf_of_decodeMicroByte {b : Byte} {i : Instr} (h : decodeMicroByte b = some i) : ∃ m, microOf i = some m := by
  have hall : ∀ b : Byte, (decodeMicroByte b).all (fun i => (microOf i).isSome) = true := by decide +kernel
  have hb := hall b
  rw [h] at hb
  exact Option.isSome_iff_exists.1 hb

/-- Settles O4, by the reading of the word: a request that is presented, or a micro-operation that is inserted. -/
theorem placedWordRunsNext : Obligations.PlacedWordRunsNext := by
  unfold Obligations.PlacedWordRunsNext
  intro s nbits w i h
  unfold decodeTableWord at h
  unfold State.withFetchWord placeWord
  cases hd : decode (tablePacket nbits w) with
  | ok j =>
    rw [hd] at h
    cases h
    exact .inl ⟨rfl, step_present hd s⟩
  | reject r =>
    rw [hd] at h
    obtain ⟨m, hm⟩ := microOf_of_decodeMicroByte h
    refine .inr ⟨⟨r, rfl⟩, ?_⟩
    simp only [h, Option.bind_some, hm]
    exact step_insertMicro hm s

/-! ## Micro-operation rows and words (R80 to R92) -/

/-- Settles O8, row by row: the request rows have no such format. -/
theorem microRowsDecodeInTheirFormat : Obligations.MicroRowsDecodeInTheirFormat := by
  unfold Obligations.MicroRowsDecodeInTheirFormat
  intro bl i hi
  cases i
  case cmdClear | cmdHome | nib8Bit | nib4Bit | data => rfl
  case cmdEntry inc shift => revert bl inc shift; decide
  case cmdDisplay d c b => revert bl d c b; decide
  case cmdFunction dl n f => revert bl dl n f; decide
  case cmdSetCgram slot => revert bl slot; decide
  case cmdSetDdram a => revert bl a; decide +kernel
  case xw n b en rs => revert bl n b en rs; decide +kernel
  case raw => revert bl; decide
  case nib n rs => revert bl n rs; decide +kernel
  all_goals cases hi

/-- Settles O9, by running the decoders. -/
theorem sampleWordsDecode : Obligations.SampleWordsDecode := by
  unfold Obligations.SampleWordsDecode
  decide

/-- An expander word is its nibble in bits 7 to 4 and its three bits (R80). -/
theorem xword_eq_or (n : Nibble) (rs en bl : Bool) : xword n rs en bl =
    (n.setWidth 8 <<< 4) ||| (if bl then 0x08 else 0) ||| (if en then 0x04 else 0) ||| (if rs then 0x01 else 0) := by
  revert n rs en bl; decide

theorem xword_and_high (n : Nibble) (rs en bl : Bool) : xword n rs en bl &&& 0xF0 = n.setWidth 8 <<< 4 := by
  revert n rs en bl; decide

theorem highNibble_shifted (v : Byte) : (highNibble v).setWidth 8 <<< 4 = v &&& 0xF0 := by
  revert v; decide +kernel

theorem lowNibble_shifted (v : Byte) : (lowNibble v).setWidth 8 <<< 4 = (v <<< 4) &&& 0xF0 := by
  revert v; decide +kernel

theorem highNibble_toNat (v : Byte) : (highNibble v).toNat = v.toNat / 16 := by
  have := v.isLt
  simp only [highNibble, BitVec.extractLsb'_toNat, Nat.shiftRight_eq_div_pow]
  omega

theorem lowNibble_toNat (v : Byte) : (lowNibble v).toNat = v.toNat % 16 := by
  simp [lowNibble, BitVec.extractLsb'_toNat]

/-- Settles O10: the word's layout, and the halves of a byte in its bits 7 to 4. -/
theorem expanderWordLayout : Obligations.ExpanderWordLayout := by
  unfold Obligations.ExpanderWordLayout
  refine ⟨xword_eq_or, fun v rs en bl => ⟨?_, ?_, highNibble_toNat v, lowNibble_toNat v⟩⟩
  · exact (xword_and_high _ rs en bl).trans (highNibble_shifted v)
  · exact (xword_and_high _ rs en bl).trans (lowNibble_shifted v)

end Sys2Proof

/-! SUPPORT. The micro-operation rows of the opcode table, each as the bus writes of its byte, its nibble or its word. -/

namespace Sys2Proof

open Machine

/-! ## The bytes of the command rows (spec/30_encoding.md R85 to R91) -/

theorem entryCommand_entryFlags (inc sh : Bool) :
    entryCommand (entryFlags inc sh) = byteOfBits false false false false false true inc sh := by
  revert inc sh; decide

theorem displayCommand_displayFlags (d c b : Bool) :
    displayCommand (displayFlags d c b) = byteOfBits false false false false true d c b := by
  revert d c b; decide

theorem functionCommand_eq (dl n f : Bool) : functionCommand dl n f = byteOfBits false false true dl n f false false := by
  revert dl n f; decide

theorem setCgramCommand_setWidth (slot : BitVec 3) :
    setCgramCommand (slot.setWidth 8) = (0b01#2 ++ slot ++ 0b000#3 : BitVec 8) := by
  revert slot; decide

/-- Settles O15: each row is its one micro-operation, whose byte is the row's. -/
theorem commandRowsSendTheirByte : Obligations.CommandRowsSendTheirByte := by
  unfold Obligations.CommandRowsSendTheirByte
  intro s hr
  have row : ∀ {i : Instr} {m : Micro}, microOf i = some m → MicroRunsAs i s (microEvents s.regs.backlightOn m) :=
    fun h => micro_runsAs h hr
  have command : ∀ {i : Instr} {v v' : Byte}, microOf i = some (.cmd v) → v = v' →
      MicroRunsAs i s (byteEvents s.regs.backlightOn v' false) := fun h e => e ▸ row h
  exact ⟨command (v := Config.CMD_CLEAR) rfl rfl, command (v := Config.CMD_HOME) rfl rfl,
    fun inc sh => command rfl (entryCommand_entryFlags inc sh),
    fun d c b => command rfl (displayCommand_displayFlags d c b), fun dl n f => command rfl (functionCommand_eq dl n f),
    fun slot => command rfl (setCgramCommand_setWidth slot), fun a => command rfl (setDdramCommand_eq a),
    row (m := .nib Config.NIB_8BIT false) rfl, row (m := .nib Config.NIB_4BIT false) rfl⟩

/-! ## The XW row (R80, spec/20_memory.md R51, R71) -/

theorem xword_eq_byteOfBits (n : Nibble) (rs en bl : Bool) :
    xword n rs en bl = byteOfBits (n.getLsbD 3) (n.getLsbD 2) (n.getLsbD 1) (n.getLsbD 0) bl en false rs := by
  revert n rs en bl; decide

/-- Settles O16: the row is one bus write of its word, and a successful write leaves it on the pins. -/
theorem xwRowIsOneBusWrite : Obligations.XwRowIsOneBusWrite := by
  unfold Obligations.XwRowIsOneBusWrite
  intro n bl en rs s hr
  rw [← xword_eq_byteOfBits]
  have hruns : MicroRunsAs (.xw n bl en rs) s [.wr (xword n rs en bl) true] :=
    micro_runsAs (m := .word (xword n rs en bl)) rfl hr
  exact ⟨hruns, fun ha => ⟨_, hruns.1 ha, Observer.write_pins s.obs _⟩⟩

end Sys2Proof

/-! SUPPORT. What the micro-programs of the requests are made of: every command byte, every raw nibble, every response. -/

namespace Sys2Proof

open Machine

/-! ## Controller bytes (spec/30_encoding.md R93, R95) -/

/-- The command bytes R95 lists. -/
def ListedCommand (v : Byte) : Prop :=
  v = 0x01 ∨ v = 0x02 ∨ v = 0x06 ∨ (0x08 ≤ v.toNat ∧ v.toNat ≤ 0x0F) ∨ v = 0x28 ∨
    (∃ k, k < 8 ∧ v.toNat = 0x40 + 8 * k) ∨ 0x80 ≤ v.toNat

theorem listedCommand_display (d : BitVec 3) : ListedCommand (displayCommand d) := by
  unfold ListedCommand; revert d; decide

theorem listedCommand_setDdram (a : Addr) : ListedCommand (setDdramCommand a) := by
  unfold ListedCommand; revert a; decide +kernel

theorem listedCommand_setCgram {slot : Byte} (h : slot.toNat ≤ 7) : ListedCommand (setCgramCommand slot) := by
  unfold ListedCommand; revert slot; decide +kernel

/-- What a micro-operation of the request `i` may be: a listed command, a nibble of the initialization, no bare word, and a
response with data only for the two getters. -/
def Micro.AllowedIn (i : Instr) : Micro → Prop
  | .cmd v => ListedCommand v
  | .nib n rs => rs = false ∧ (n = 0x3 ∨ n = 0x2)
  | .word _ => False
  | .respond d => d ≠ [] → i = .backlightGet ∨ i = .getDimensions
  | .busOpen _ | .busClose | .raw | .data _ | .loadDelay _ | .waitDelay _ | .set _ | .raise _ => True

/-- A micro-program of such operations. -/
def AllAllowedIn (i : Instr) (ms : List Micro) : Prop := ∀ m ∈ ms, Micro.AllowedIn i m

theorem AllAllowedIn.append {i : Instr} {a b : List Micro} (ha : AllAllowedIn i a) (hb : AllAllowedIn i b) :
    AllAllowedIn i (a ++ b) := List.forall_mem_append.2 ⟨ha, hb⟩

theorem AllAllowedIn.cmd {i : Instr} {v : Byte} {ms : List Micro} (hv : ListedCommand v) (hms : AllAllowedIn i ms) :
    AllAllowedIn i (.cmd v :: ms) := List.forall_mem_cons.2 ⟨hv, hms⟩

theorem allAllowedIn_respond (i : Instr) : AllAllowedIn i [.respond []] := by simp [AllAllowedIn, Micro.AllowedIn]

theorem allAllowedIn_data (i : Instr) (text : List Byte) : AllAllowedIn i (text.map Micro.data) := by
  simp [AllAllowedIn, Micro.AllowedIn]

/-- A failed check raises, and the micro-program behind one that passes may use what was checked. -/
theorem allAllowedIn_andThen {α : Type} {i : Instr} {c : Checked α} {f : α → Checked (List Micro)}
    (h : ∀ a, c = .ok a → AllAllowedIn i (f a).program) : AllAllowedIn i (c.andThen f).program := by
  cases c with
  | ok a => exact h a rfl
  | err e => simp [AllAllowedIn, Micro.AllowedIn]

theorem allAllowedIn_createSteps (i : Instr) (a c : Byte) (g : Geometry) : AllAllowedIn i (createSteps a c g) := by
  simp [AllAllowedIn, Micro.AllowedIn, createSteps]

theorem allAllowedIn_initSteps (i : Instr) : AllAllowedIn i initSteps := by
  have hset : ListedCommand Config.FUNCTION_SET ∧ ListedCommand (entryCommand Config.FLAG_ID) := by
    unfold ListedCommand; decide
  simp [AllAllowedIn, Micro.AllowedIn, initSteps, delaySteps, hset, listedCommand_display, Config.NIB_8BIT, Config.NIB_4BIT]

theorem allAllowedIn_longCommand (i : Instr) {v : Byte} (hv : ListedCommand v) (n : Nat) :
    AllAllowedIn i ([.cmd v] ++ delaySteps n ++ [.respond []]) := by
  simp [AllAllowedIn, Micro.AllowedIn, delaySteps, hv]

theorem allAllowedIn_setFlagProgram (i : Instr) (mask : BitVec 3) (v : Bool) (s : State) :
    AllAllowedIn i (setFlagProgram mask v s).program :=
  allAllowedIn_andThen fun _ _ => by simp [AllAllowedIn, Micro.AllowedIn, listedCommand_display]

theorem allAllowedIn_lineProgram (i : Instr) (line : Byte) (text : List Byte) (s : State) :
    AllAllowedIn i (lineProgram line text s).program :=
  allAllowedIn_andThen fun _ _ => allAllowedIn_andThen fun a _ =>
    ((allAllowedIn_data i _).append (allAllowedIn_respond i)).cmd (listedCommand_setDdram a)

theorem allAllowedIn_putStringProgram (i : Instr) (text : List Byte) (s : State) :
    AllAllowedIn i (putStringProgram text s).program :=
  allAllowedIn_andThen fun _ _ => (allAllowedIn_data i text).append (allAllowedIn_respond i)

theorem allAllowedIn_requestProgram (i : Instr) (s : State) : AllAllowedIn i (requestProgram i s) := by
  cases i
  case init a c x y =>
    exact allAllowedIn_andThen fun g _ =>
      ((allAllowedIn_createSteps _ a c g).append (allAllowedIn_initSteps _)).append (by simp [AllAllowedIn, Micro.AllowedIn])
  case openSession a c x y =>
    exact allAllowedIn_andThen fun g _ =>
      (allAllowedIn_createSteps _ a c g).append (by simp [AllAllowedIn, Micro.AllowedIn])
  case teardown =>
    cases ho : s.regs.isOpen <;> simp [AllAllowedIn, Micro.AllowedIn, requestProgram, teardownProgram, ho]
  case clear => exact allAllowedIn_andThen fun _ _ => allAllowedIn_longCommand _ (.inl rfl) _
  case home => exact allAllowedIn_andThen fun _ _ => allAllowedIn_longCommand _ (.inr (.inl rfl)) _
  case display | cursor | blink => exact allAllowedIn_setFlagProgram _ _ _ s
  case clearLine | setLine => exact allAllowedIn_lineProgram _ _ _ s
  case putString | formattedWrite => exact allAllowedIn_putStringProgram _ _ s
  case putChar ch => exact allAllowedIn_putStringProgram _ [ch] s
  case setCursor =>
    exact allAllowedIn_andThen fun _ _ => allAllowedIn_andThen fun a _ =>
      (allAllowedIn_respond _).cmd (listedCommand_setDdram a)
  case backlightSet => exact allAllowedIn_andThen fun _ _ => by simp [AllAllowedIn, Micro.AllowedIn]
  case backlightGet | getDimensions => exact allAllowedIn_andThen fun _ _ => by simp [AllAllowedIn, Micro.AllowedIn]
  case createCustomChar slot pat =>
    refine allAllowedIn_andThen fun _ _ => allAllowedIn_andThen fun _ hslot => ?_
    have hle : slot.toNat ≤ 7 := by
      by_contra hno
      simp [hno] at hslot
    exact (AllAllowedIn.append (allAllowedIn_data _ pat)
      ((allAllowedIn_respond _).cmd (listedCommand_setDdram 0))).cmd (listedCommand_setCgram hle)
  all_goals simp [AllAllowedIn, requestProgram]

/-- Settles O60: every operation of a request's micro-program is an allowed one. -/
theorem controllerBytesEverSent : Obligations.ControllerBytesEverSent := by
  unfold Obligations.ControllerBytesEverSent
  intro i s m hm
  have hallowed := allAllowedIn_requestProgram i s m hm
  refine ⟨?_, ?_, ?_⟩
  · rintro v rfl
    exact hallowed
  · rintro n rs rfl
    exact hallowed
  · rintro w rfl
    exact hallowed

end Sys2Proof

/-! SUPPORT. What an instruction adds to the history: the words it writes, and the one response of a request. -/

namespace Sys2Proof

open Machine

/-! ## Events behind a history -/

/-- Behind the history `h`, every event is a `p`. -/
def Since (p : Event → Prop) (h : List Event) (t : State) : Prop := ∃ evs, t.history = h ++ evs ∧ ∀ e ∈ evs, p e

theorem Since.refl (p : Event → Prop) (s : State) : Since p s.history s := ⟨[], by simp, by simp⟩

theorem Since.append {p : Event → Prop} {h evs : List Event} {s t : State} (hs : Since p h s)
    (ht : t.history = s.history ++ evs) (he : ∀ e ∈ evs, p e) : Since p h t := by
  obtain ⟨before, hb, hp⟩ := hs
  exact ⟨before ++ evs, by rw [ht, hb, List.append_assoc], List.forall_mem_append.2 ⟨hp, he⟩⟩

/-- One more event. -/
theorem Since.log {p : Event → Prop} {h : List Event} {s t : State} (hs : Since p h s) (e : Event)
    (ht : t.history = s.history ++ [e]) (he : p e) : Since p h t := hs.append ht (by simpa using he)

/-! ## The words of bus writes (spec/30_encoding.md R81, R82) -/

/-- Every bus write is of a word that is `ok`. -/
def Event.WritesOnly (ok : Byte → Prop) : Event → Prop
  | .wr w _ => ok w
  | .busOpen _ _ | .dl _ | .close | .rsp _ _ => True

/-- Behind the history `h`, every word written is `ok`. -/
abbrev Wrote (ok : Byte → Prop) (h : List Event) (t : State) : Prop := Since (Event.WritesOnly ok) h t

theorem wrote_raise {ok : Byte → Prop} {h : List Event} {s : State} (e : Status) (hs : Wrote ok h s) :
    Wrote ok h (Machine.raise e s) := by
  obtain ⟨tail, htail, hr⟩ := raise_history e s
  refine hs.append hr ?_
  rcases htail with rfl | rfl <;> simp [Event.WritesOnly]

/-- Every word that is built with the backlight bit of these registers is `ok`. -/
def BuildsOnly (ok : Byte → Prop) (r : Session) : Prop := ∀ n rs en, ok (xword n rs en r.backlightOn)

/-- A run of micro-operations whose registers build only such words writes only such words. -/
theorem stable_wrote (ok : Byte → Prop) (h : List Event) :
    Stable (fun t => Wrote ok h t ∧ BuildsOnly ok t.regs) (Wrote ok h) (fun w _ => ok w)
      (fun w => ∀ r : Session, (r.write w).backlightOn = r.backlightOn) where
  wrOk _ w hw hs := ⟨hs.1.log (.wr w true) rfl hw, hs.2⟩
  wrFail s w _ hw hs := wrote_raise (s := (s.emit (.wr w false)).drawn.observe _) _ (hs.1.log (.wr w false) rfl hw)
  openOk _ a hs := ⟨hs.1.log (.busOpen a true) rfl trivial, hs.2⟩
  openFail s a hs := wrote_raise (s := (s.emit (.busOpen a false)).drawn) _ (hs.1.log (.busOpen a false) rfl trivial)
  close _ hs := ⟨hs.1.log .close rfl trivial, hs.2⟩
  load _ _ hs := hs
  wait _ n hs := ⟨hs.1.log (.dl n) rfl trivial, hs.2⟩
  set s w hw hs := ⟨hs.1, fun n rs en => by
    rw [State.advance_regs, State.setReg_regs, hw]
    exact hs.2 n rs en⟩
  raise _ e hs := wrote_raise e hs.1
  respond _ d hs := hs.1.log (.rsp .ok d) rfl trivial
  reset _ hs := hs.1

theorem wordsFit_wrote (ok : Byte → Prop) (h : List Event) :
    WordsFit (fun t => Wrote ok h t ∧ BuildsOnly ok t.regs) (fun w _ => ok w) := fun _ _ hs _ n rs en => hs.2 n rs en

/-- No word is written by this micro-operation. -/
def Micro.quiet : Micro → Bool
  | .busOpen _ | .busClose | .loadDelay _ | .waitDelay _ | .set _ | .raise _ | .respond _ => true
  | .word _ | .raw | .nib _ _ | .cmd _ | .data _ => false

theorem micro_quiet_wrote {m : Micro} (hm : Micro.quiet m = true) {ok : Byte → Prop} {h : List Event} {s : State}
    (hs : Wrote ok h s) : Flow.Holds (Wrote ok h) (Wrote ok h) (m.run s) := by
  have hreset : Wrote ok h (abandon s) := hs
  cases m with
  | busOpen a =>
    show Flow.Holds _ _ (Machine.busOpen a s)
    rcases busOpen_cases a s with ⟨-, e⟩ | ⟨-, e⟩ | ⟨landed, -, e⟩ <;> rw [e]
    · exact hreset
    · exact hs.log (.busOpen a true) rfl trivial
    · exact hs.log (.busOpen a false) rfl trivial |>.log (.rsp .peripheralUnreachable []) rfl trivial
  | busClose =>
    exact Flow.Holds.goUnlessReset (fun s => (s.emit .close).advance) hreset (hs.log .close rfl trivial)
  | loadDelay n =>
    exact Flow.Holds.goUnlessReset (fun s => { s with seq := { s.seq with delayCtr := Config.delayCycles n } }) hreset hs
  | waitDelay n =>
    exact Flow.Holds.goUnlessReset (fun s => (({ s with seq := { s.seq with delayCtr := 0 } } : State).advance.emit (.dl n)))
      hreset (hs.log (.dl n) rfl trivial)
  | set w => exact Flow.Holds.goUnlessReset (fun s => (s.setReg w).advance) hreset hs
  | raise e => exact Flow.Holds.doneUnlessReset (Machine.raise e) hreset (wrote_raise e hs)
  | respond d => exact Flow.Holds.doneUnlessReset (Machine.respond .ok d) hreset (hs.log (.rsp .ok d) rfl trivial)
  | word | raw | nib | cmd | data => cases hm

theorem runAll_quiet_wrote {ms : List Micro} (hms : ∀ m ∈ ms, Micro.quiet m = true) {ok : Byte → Prop} {h : List Event}
    {s : State} (hs : Wrote ok h s) : Flow.Holds (Wrote ok h) (Wrote ok h) (runAll ms s) := by
  induction ms generalizing s with
  | nil => exact hs
  | cons m ms ih =>
    exact (micro_quiet_wrote (hms m (List.mem_cons_self ..)) hs).andThen fun t ht =>
      ih (fun k hk => hms k (List.mem_cons_of_mem _ hk)) ht

/-- A micro-program that writes no word before its registers build only `ok` words, and none but these from there on. -/
theorem runAll_wrote {pre post : List Micro} {ok : Byte → Prop} {h : List Event} {s : State} (hs : Wrote ok h s)
    (hpre : ∀ m ∈ pre, Micro.quiet m = true) (hword : ∀ w, Micro.word w ∉ post)
    (hset : ∀ w, Micro.set w ∈ post → ∀ r : Session, (r.write w).backlightOn = r.backlightOn)
    (hbuilds : BuildsOnly ok (regsAfterAll pre s.regs)) : Wrote ok h (runAll (pre ++ post) s).state := by
  have hquiet := runAll_quiet_wrote hpre hs
  have hregs := runAll_onOrEnded pre s
  rw [runAll_append]
  cases hx : runAll pre s with
  | done t =>
    rw [hx] at hquiet
    exact hquiet
  | go t =>
    rw [hx] at hquiet hregs
    have ht : Wrote ok h t ∧ BuildsOnly ok t.regs := ⟨hquiet, by rw [hregs.regs]; exact hbuilds⟩
    exact ((stable_wrote ok h).runAll (wordsFit_wrote ok h) post hword hset ht).reached (fun _ hp => hp.1) fun _ => id

/-- A row of the table, run on its own. -/
theorem exec_micro_wrote {i : Instr} {m : Micro} {ok : Byte → Prop} {s t : State} (hm : microOf i = some m)
    (h : exec i s = .next t) (hword : ∀ w, m = .word w → ok w) (hbuilds : BuildsOnly ok s.regs) :
    Wrote ok s.history t := by
  have hset : ∀ w, m ≠ .set w := by
    cases i <;> simp only [microOf, Option.some.injEq, reduceCtorEq] at hm <;> subst hm <;> simp
  rw [exec_micro hm] at h
  cases h
  exact ((stable_wrote ok s.history).micro (wordsFit_wrote ok s.history) m hword (fun w e => absurd e (hset w))
    ⟨.refl _ s, hbuilds⟩).reached (fun _ hp => hp.1) fun _ => id

/-! ## The backlight bit of a request's words (R82, spec/40_signal_and_byte.md R126) -/

/-- A micro-program in two parts: no word before the registers hold the backlight `bl`, no change of it behind. -/
structure LightsFrom (bl : Bool) (r : Session) (pre post : List Micro) : Prop where
  quiet : ∀ m ∈ pre, Micro.quiet m = true
  light : (regsAfterAll pre r).backlightOn = bl
  keeps : ∀ w, Micro.set w ∈ post → ∀ r : Session, (r.write w).backlightOn = r.backlightOn

/-- CREATE sets the backlight before a word is sent, and nothing behind it does. -/
theorem creation_lights (a c : Byte) (g : Geometry) {mid : List Micro} (hmid : mid = [] ∨ mid = initSteps) (r : Session) :
    LightsFrom (cfgBacklight c) r (createSteps a c g) (mid ++ [.set (.isOpen true), .respond []]) where
  quiet := by simp [createSteps, Micro.quiet]
  light := by rw [createSteps_regs]; rfl
  keeps := by
    intro w hw r
    rcases hmid with rfl | rfl
    · simp only [List.nil_append, List.mem_cons, Micro.set.injEq, reduceCtorEq, List.not_mem_nil, or_false] at hw
      rw [hw]
      rfl
    · simp only [initSteps, delaySteps, List.cons_append, List.nil_append, List.mem_cons, reduceCtorEq, Micro.set.injEq,
        List.not_mem_nil, or_false, false_or] at hw
      rcases hw with rfl | rfl | rfl | rfl <;> rfl

theorem backlightAfter_eq {i : Instr} (hc : createsSession i = false) (hv : ∀ v, i ≠ .backlightSet v) (s : State) :
    backlightAfter i s = s.regs.backlightOn := by
  cases i
  case init | openSession => cases hc
  case backlightSet v => exact absurd rfl (hv v)
  all_goals rfl

/-- Every other request keeps the backlight as it is. -/
theorem unchanged_lights {i : Instr} (hc : createsSession i = false) (hv : ∀ v, i ≠ .backlightSet v) (s : State) :
    LightsFrom (backlightAfter i s) s.regs [] (requestProgram i s) where
  quiet := by simp
  light := (backlightAfter_eq hc hv s).symm
  keeps := by
    intro w hw r
    rcases set_mem_requestProgram hw with ⟨hcreates, -⟩ | ⟨-, rfl⟩ | ⟨v, d, -, rfl⟩ | ⟨v, hset, -⟩
    · rw [hc] at hcreates
      cases hcreates
    · rfl
    · rfl
    · exact absurd hset (hv v)

/-- A request writes no word, or all its words under the backlight it leaves. -/
theorem requestProgram_lights (i : Instr) (s : State) :
    (∀ m ∈ requestProgram i s, Micro.quiet m = true) ∨
    ∃ pre post, requestProgram i s = pre ++ post ∧ LightsFrom (backlightAfter i s) s.regs pre post := by
  cases i
  case init a c x y =>
    rcases createChecks_cases a c x y s with ⟨g, -, -, hc⟩ | hc
    · exact .inr ⟨_, _,
        by simp only [requestProgram, initProgram, hc, Checked.andThen_ok, Checked.program_ok, List.append_assoc],
        creation_lights a c g (.inr rfl) s.regs⟩
    · exact .inl (by simp [requestProgram, initProgram, hc, Micro.quiet])
  case openSession a c x y =>
    rcases createChecks_cases a c x y s with ⟨g, -, -, hc⟩ | hc
    · exact .inr ⟨_, _, by simp only [requestProgram, openProgram, hc, Checked.andThen_ok, Checked.program_ok]; rfl,
        creation_lights a c g (.inl rfl) s.regs⟩
    · exact .inl (by simp [requestProgram, openProgram, hc, Micro.quiet])
  case backlightSet v =>
    cases ho : s.regs.isOpen with
    | true =>
      refine .inr ⟨[.set (.backlightOn v)], [.raw, .respond []], ?_, by simp [Micro.quiet], rfl, by simp⟩
      simp [requestProgram, backlightSetProgram, requireOpen_open ho]
    | false => exact .inl (by simp [requestProgram_needsOpen_closed (i := .backlightSet v) rfl ho, Micro.quiet])
  all_goals exact .inr ⟨[], _, rfl, unchanged_lights rfl (by simp) s⟩

/-- A word that only writes, with the backlight bit `bl`. -/
def CarriesBacklight (bl : Bool) (w : Byte) : Prop := w.getLsbD 1 = false ∧ w.getLsbD 3 = bl

theorem buildsOnly_carriesBacklight {bl : Bool} {r : Session} (h : r.backlightOn = bl) : BuildsOnly (CarriesBacklight bl) r :=
  fun n rs en => ⟨xword_rw n rs en _, (xword_bl n rs en _).trans h⟩

theorem exec_request_wrote {i : Instr} {s t : State} (hi : isRequest i = true) (h : exec i s = .next t) :
    Wrote (CarriesBacklight (backlightAfter i s)) s.history t := by
  have hs : Wrote (CarriesBacklight (backlightAfter i s)) s.history
      (accept (some (heldRequest i)) (requestProgram i s) s) := Since.refl _ s
  rw [eq_served_of_exec hi h, served]
  rcases requestProgram_lights i s with hquiet | ⟨pre, post, hp, hl⟩
  · exact (runAll_quiet_wrote hquiet hs).state
  · rw [hp] at hs ⊢
    refine runAll_wrote hs hl.quiet (fun w hw => ?_) hl.keeps (buildsOnly_carriesBacklight hl.light)
    exact (requestProgram_shape i hi s).2 w (hp ▸ List.mem_append_right pre hw)

/-- Settles O11: every word is built by `xword`, whose read/write bit is 0, under the backlight the instruction leaves; the
XW row builds its own. -/
theorem wordsAreWriteOnlyAndCarryTheBacklight : Obligations.WordsAreWriteOnlyAndCarryTheBacklight := by
  unfold Obligations.WordsAreWriteOnlyAndCarryTheBacklight
  intro i s t h
  by_cases hxw : ∃ n bl en rs, i = .xw n bl en rs
  · obtain ⟨n, bl, en, rs, rfl⟩ := hxw
    obtain ⟨evs, ht, hevs⟩ := exec_micro_wrote (ok := fun w => w.getLsbD 1 = false) rfl h
      (by rintro w ⟨⟩; exact xword_rw n rs en bl) (fun n rs en => xword_rw n rs en _)
    exact ⟨evs, ht, fun w ok hw => ⟨hevs _ hw, fun hno => absurd rfl (hno n bl en rs)⟩⟩
  · have hwrote : Wrote (CarriesBacklight (backlightAfter i s)) s.history t := by
      rcases isRequest_or_microOf i with hi | ⟨m, hm⟩
      · exact exec_request_wrote hi h
      · refine exec_micro_wrote hm h (fun w hw => ?_) (buildsOnly_carriesBacklight ?_)
        · subst hw
          cases i
          case xw n bl en rs => exact absurd ⟨n, bl, en, rs, rfl⟩ hxw
          all_goals cases hm
        · refine (backlightAfter_eq ?_ ?_ s).symm
          · cases i
            case init | openSession => cases hm
            all_goals rfl
          · rintro v rfl
            cases hm
    obtain ⟨evs, ht, hevs⟩ := hwrote
    exact ⟨evs, ht, fun w ok hw => ⟨(hevs _ hw).1, fun _ => (hevs _ hw).2⟩⟩

/-! ## Runs without a reset, micro-operation by micro-operation -/

/-- The next `n` answers are all `ok`, or one of them is the first to fail. -/
theorem answersOk_or_failsFirst (s : State) (n : Nat) :
    AnswersOk s n ∨ ∃ j landed, j < n ∧ FailsFirstAt s j landed := by
  induction n with
  | zero => exact .inl fun j hj => absurd hj (Nat.not_lt_zero j)
  | succ n ih =>
    rcases ih with hok | ⟨j, landed, hj, hf⟩
    · cases ha : s.answerAt (s.env.draws + n) with
      | ok => exact .inl fun j hj => (Nat.lt_succ_iff_lt_or_eq.1 hj).elim (hok j) fun e => e ▸ ha
      | fail landed => exact .inr ⟨n, landed, Nat.lt_succ_self n, hok, ha⟩
    · exact .inr ⟨j, landed, Nat.lt_succ_of_lt hj, hf⟩

/-- Where every answer that a history uses is a write's, each of them falls at a write. -/
theorem exists_write_of_lt_drawCount {evs : List Event}
    (h : ∀ e ∈ evs, Event.isDraw e = true → ∃ w, e = .wr w true) {j : Nat}
    (hj : j < drawCount evs) : ∃ before w rest, evs = before ++ .wr w true :: rest ∧ drawCount before = j := by
  induction evs generalizing j with
  | nil => cases hj
  | cons e evs ih =>
    have htail : ∀ {k}, k < drawCount evs → ∃ before w rest, evs = before ++ .wr w true :: rest ∧ drawCount before = k :=
      ih fun e' he' => h e' (List.mem_cons_of_mem _ he')
    cases hd : Event.isDraw e with
    | false =>
      have hcount : ∀ l, drawCount (e :: l) = drawCount l := fun l => by simp [drawCount, hd]
      obtain ⟨before, w, rest, rfl, hb⟩ := htail (hcount evs ▸ hj)
      exact ⟨e :: before, w, rest, rfl, (hcount before).trans hb⟩
    | true =>
      have hcount : ∀ l, drawCount (e :: l) = drawCount l + 1 := fun l => by simp [drawCount, hd]
      cases j with
      | zero =>
        obtain ⟨w, rfl⟩ := h e (List.mem_cons_self ..) hd
        exact ⟨[], w, evs, rfl, rfl⟩
      | succ j =>
        obtain ⟨before, w, rest, rfl, hb⟩ := htail (Nat.lt_of_succ_lt_succ (hcount evs ▸ hj))
        exact ⟨e :: before, w, rest, rfl, by rw [hcount, hb]⟩

/-- All a micro-operation that goes on can do without a reset: all its events, a failed write, or a `BusOpen` that fails. -/
theorem micro_outcomes {m : Micro} (hm : Micro.goesOn m = true) {s : State} (hr : s.seq.resetAt = none) :
    (∃ t, m.run s = .go t ∧ Progress s t (Micro.regsAfter m s.regs) (microEvents s.regs.backlightOn m)) ∨
    (∃ t before w rest landed, microEvents s.regs.backlightOn m = before ++ .wr w true :: rest ∧
      m.run s = .done (raise .writeFailed t) ∧ Broken s t s.regs before w landed) ∨
    ∃ a, m = .busOpen a ∧ m.run s = .done (respond .peripheralUnreachable [] (s.emit (.busOpen a false)).drawn) := by
  rcases answersOk_or_failsFirst s (drawCount (microEvents s.regs.backlightOn m)) with hok | ⟨j, landed, hj, hf⟩
  · exact .inl (micro_ok m hm hr hok)
  by_cases hopen : ∃ a, m = .busOpen a
  · obtain ⟨a, rfl⟩ := hopen
    rcases busOpen_cases a s with ⟨hreset, -⟩ | ⟨ha, -⟩ | ⟨landed, -, e⟩
    · simp [hr] at hreset
    · exact .inl (micro_ok _ hm hr fun k hk => by
        obtain rfl : k = 0 := by simpa [microEvents, drawCount, Event.isDraw] using hk
        exact ha)
    · exact .inr (.inr ⟨a, rfl, e⟩)
  · have hdraws : ∀ e ∈ microEvents s.regs.backlightOn m, Event.isDraw e = true → ∃ w, e = .wr w true := by
      cases m
      case busOpen a => exact absurd ⟨a, rfl⟩ hopen
      all_goals simp [microEvents, byteEvents, nibEvents, Event.isDraw]
    obtain ⟨before, w, rest, he, rfl⟩ := exists_write_of_lt_drawCount hdraws hj
    obtain ⟨t, hrun, hb⟩ := micro_fail m hr he hf
    exact .inr (.inl ⟨t, before, w, rest, landed, he, hrun, hb⟩)

/-! ## One response (R103, R104) -/

/-- Behind the history `h` no response has been given. -/
abbrev Silent (h : List Event) (t : State) : Prop := Since (fun e => Event.isRsp e = false) h t

/-- Behind the history `h` one response has been given, as the last event; `d` is its data. -/
def Answered (d : List Byte) (h : List Event) (t : State) : Prop :=
  ∃ evs st, t.history = h ++ evs ++ [.rsp st d] ∧ (∀ e ∈ evs, Event.isRsp e = false) ∧ (d ≠ [] → st = .ok)

theorem Silent.respond {h : List Event} {s : State} (hs : Silent h s) (st : Status) (d : List Byte) (hd : d ≠ [] → st = .ok) :
    Answered d h (respond st d s) := by
  obtain ⟨evs, he, hn⟩ := hs
  exact ⟨evs, st, by rw [respond_history, he], hn, hd⟩

theorem Silent.raise {h : List Event} {s : State} (hs : Silent h s) (e : Status) : Answered [] h (raise e s) := by
  obtain ⟨evs, he, hn⟩ := hs
  obtain ⟨tail, rfl | rfl, hr⟩ := raise_history e s
  · exact ⟨evs, e, by rw [hr, he], hn, by simp⟩
  · exact ⟨evs ++ [.close], e, by rw [hr, he]; simp, List.forall_mem_append.2 ⟨hn, by simp [Event.isRsp]⟩, by simp⟩

theorem microEvents_not_rsp {m : Micro} (hm : Micro.goesOn m = true) (bl : Bool) :
    ∀ e ∈ microEvents bl m, Event.isRsp e = false := by
  cases m
  case raise | respond => cases hm
  all_goals simp [microEvents, byteEvents, nibEvents, Event.isRsp]

theorem micro_silent_or_answered {m : Micro} (hm : Micro.goesOn m = true) {h : List Event} {s : State}
    (hr : s.seq.resetAt = none) (hs : Silent h s) :
    Flow.Holds (fun t => t.seq.resetAt = none ∧ Silent h t) (Answered [] h) (m.run s) := by
  have hrsp := microEvents_not_rsp hm s.regs.backlightOn
  rcases micro_outcomes hm hr with ⟨t, e, p⟩ | ⟨t, before, w, rest, landed, he, e, b⟩ | ⟨a, -, e⟩ <;> rw [e]
  · exact ⟨p.resetAt.trans hr, hs.append p.history hrsp⟩
  · rw [he] at hrsp
    have ht : Silent h t := hs.append (evs := before ++ [.wr w false]) (by rw [b.history, List.append_assoc])
      (List.forall_mem_append.2 ⟨(List.forall_mem_append.1 hrsp).1, by simp [Event.isRsp]⟩)
    exact ht.raise _
  · exact Silent.respond (s := (s.emit (.busOpen a false)).drawn) (hs.log (.busOpen a false) rfl rfl) _ [] (by simp)

/-- A micro-program that ends in a raise or a response gives one response, with data only if its own response has. -/
theorem runAll_answered {ms : List Micro} (hms : ∀ m ∈ ms, Micro.goesOn m = true) {m : Micro} (hm : Micro.goesOn m = false)
    {h : List Event} {s : State} (hr : s.seq.resetAt = none) (hs : Silent h s) :
    ∃ d, Answered d h (runAll (ms ++ [m]) s).state ∧ (d = [] ∨ m = .respond d) := by
  induction ms generalizing s with
  | nil =>
    cases m
    case raise e =>
      refine ⟨[], ?_, .inl rfl⟩
      simpa only [List.nil_append, runAll, Micro.run, unlessReset_none _ hr, Flow.andThen_done, Flow.state_done]
        using hs.raise e
    case respond d =>
      refine ⟨d, ?_, .inr rfl⟩
      simpa only [List.nil_append, runAll, Micro.run, unlessReset_none _ hr, Flow.andThen_done, Flow.state_done]
        using hs.respond .ok d fun _ => rfl
    all_goals cases hm
  | cons k ms ih =>
    have hk := micro_silent_or_answered (hms k (List.mem_cons_self ..)) hr hs
    rw [List.cons_append, runAll]
    cases hx : k.run s with
    | go t =>
      rw [hx] at hk
      exact ih (fun x hmem => hms x (List.mem_cons_of_mem _ hmem)) hk.1 hk.2
    | done t =>
      rw [hx] at hk
      exact ⟨[], hk, .inl rfl⟩

/-- A request on an idle block gives one response, its last event; with data only the getters'. -/
theorem exec_request_answered {i : Instr} {s t : State} (hi : isRequest i = true) (hr : Ready s) (h : exec i s = .next t) :
    ∃ d, Answered d s.history t ∧ (d ≠ [] → i = .backlightGet ∨ i = .getDimensions) := by
  obtain ⟨⟨ms, m, hp, hm, hms⟩, -⟩ := requestProgram_shape i hi s
  have hreset : (accept (some (heldRequest i)) (requestProgram i s) s).seq.resetAt = none := by
    show s.seq.resetAt = none
    rw [hr]
    rfl
  obtain ⟨d, ha, hd⟩ := runAll_answered hms hm hreset (Since.refl _ s)
  rw [← hp] at ha
  refine ⟨d, by rwa [eq_served_of_exec hi h], fun hne => ?_⟩
  obtain rfl := hd.resolve_left hne
  exact allAllowedIn_requestProgram i s (.respond d) (by simp [hp]) hne

theorem responses_concat_rsp {d : List Byte} {h evs : List Event} {st : Status} (hn : ∀ e ∈ evs, Event.isRsp e = false) :
    responses (h ++ evs ++ [.rsp st d]) = responses h ++ [statusByte st :: d] := by
  rw [responses_append, responses_append, responses_eq_nil hn, List.append_nil]
  rfl

/-- Settles O27: the request's micro-program is silent up to the one raise or response that ends it. -/
theorem exactlyOneResponse : Obligations.ExactlyOneResponse := by
  unfold Obligations.ExactlyOneResponse
  refine ⟨⟨rfl, rfl, rfl, rfl, rfl, rfl⟩, fun i s hi hr => ?_⟩
  have hexec := exec_eq_served hi (s := s) (by rw [hr]; rfl)
  obtain ⟨d, ⟨evs, st, ht, hn, hst⟩, hd⟩ := exec_request_answered hi hr hexec
  obtain ⟨pre, -, hended⟩ := served_ended (runAll_requestProgram_done hi s (accept (some (heldRequest i)) _ s))
  refine ⟨_, evs, st, d, hexec, ht, hn, by rw [ht, responses_concat_rsp hn], ?_, fun hne => ⟨hst hne, hd hne⟩,
    hended.seq⟩
  cases st <;> decide

end Sys2Proof

/-! SUPPORT. The raw word, the nibble transfer and the data byte (spec/40_signal_and_byte.md R120 to R125): what each puts
on the bus, with a failure at any of its writes. -/

namespace Sys2Proof

open Machine

/-- Settles O12: the row is its one micro-operation. -/
theorem nibbleTransfer : Obligations.NibbleTransfer := by
  unfold Obligations.NibbleTransfer
  intro n rs s hr
  exact micro_runsAs (m := .nib n rs) rfl hr

/-- Settles O14: the row is its one micro-operation, a byte transfer whose halves are the byte's. -/
theorem dataTransfer : Obligations.DataTransfer := by
  unfold Obligations.DataTransfer
  intro v s hr
  exact micro_runsAs (m := .data v) rfl hr

/-! ## RAW (R120, spec/20_memory.md R71) -/

theorem xword_raw_eq (bl : Bool) : xword 0 false false bl = if bl then 0x08 else 0x00 := by
  cases bl <;> decide

/-- Over known pins RAW's word makes the controller latch the nibble 0 where the enable pin was high, and nothing else. -/
theorem Observer.write_raw {o : Observer} {p : Byte} (hp : o.pins = some p) (bl : Bool) :
    o.write (xword 0 false false bl) =
      { (if p.getLsbD 2 then o.latch 0 false else o) with pins := some (xword 0 false false bl) } := by
  obtain ⟨hwrite, -⟩ := latchingAndAssembly
  have hnibble : (xword 0 false false bl).extractLsb' 4 4 = 0 := highNibble_xword 0 false false bl
  rw [hwrite o _ p hp, hnibble, xword_en, xword_rs, Bool.not_false, Bool.and_true]

/-- Settles O13: the row is its one micro-operation, and its word ends an enable pulse only where the pin was high. -/
theorem rawWord : Obligations.RawWord := by
  unfold Obligations.RawWord
  intro s hr
  rw [← xword_raw_eq]
  exact ⟨micro_runsAs (m := .raw) rfl hr, fun p hp => Observer.write_raw hp s.regs.backlightOn⟩

end Sys2Proof

/-! SUPPORT. Session creation and its end (spec/41_init_lifecycle.md R140 to R145): the micro-program of INIT and of OPEN as
`serve` runs it, and where it ends when `BusOpen` or one of INIT's writes fails. -/

namespace Sys2Proof

open Machine

/-! ## CREATE (R140) -/

theorem exec_init_created {a c x y : Byte} {g : Geometry} {s : State} (ho : s.regs.isOpen = false)
    (hg : ConfigNames a c x y g) :
    exec (.init a c x y) s = serve (some (.init a c x y)) (.ok (creationProgram a c g initSteps)) s := by
  have hp : initProgram a c x y s = .ok (creationProgram a c g initSteps) := by
    rw [initProgram, createChecks_ok ho hg, Checked.andThen_ok, creationProgram]
  rw [← hp]
  rfl

theorem exec_openSession_created {a c x y : Byte} {g : Geometry} {s : State} (ho : s.regs.isOpen = false)
    (hg : ConfigNames a c x y g) :
    exec (.openSession a c x y) s = serve (some (.openSession a c x y)) (.ok (creationProgram a c g [])) s := by
  have hp : openProgram a c x y s = .ok (creationProgram a c g []) := by
    rw [openProgram, createChecks_ok ho hg, Checked.andThen_ok, creationProgram, List.append_nil]
  rw [← hp]
  rfl

theorem exec_init_refused {a c x y : Byte} {s : State} (hr : Ready s)
    (h : s.regs.isOpen = true ∨ ¬ ∃ g, ConfigNames a c x y g) :
    exec (.init a c x y) s = .next (refusedWith s .invalidArgument) := by
  have hp : initProgram a c x y s = .err .invalidArgument := by
    rw [initProgram, createChecks_err h, Checked.andThen_err]
  rw [← serve_err (some (.init a c x y)) .invalidArgument hr (by decide), ← hp]
  rfl

theorem exec_openSession_refused {a c x y : Byte} {s : State} (hr : Ready s)
    (h : s.regs.isOpen = true ∨ ¬ ∃ g, ConfigNames a c x y g) :
    exec (.openSession a c x y) s = .next (refusedWith s .invalidArgument) := by
  have hp : openProgram a c x y s = .err .invalidArgument := by
    rw [openProgram, createChecks_err h, Checked.andThen_err]
  rw [← serve_err (some (.openSession a c x y)) .invalidArgument hr (by decide), ← hp]
  rfl

/-- Serving a micro-program on an idle block is running it. -/
theorem serve_ready {s : State} (hr : Ready s) (held : Option Instr) (ms : List Micro) :
    serve held (.ok ms) s = .next (served held ms s) := by
  have hb : s.seq.busy = false := by rw [hr]; rfl
  simp [serve, hb, served]

/-- An idle block has no reset position waiting. -/
theorem accept_resetAt {s : State} (hr : Ready s) (held : Option Instr) (ms : List Micro) :
    (accept held ms s).seq.resetAt = none := by
  show s.seq.resetAt = none
  rw [hr]
  rfl

/-- `BusOpen` is the first step of a session creation, so its failure is all that happens (spec/60_exceptions.md R211). -/
theorem serve_creation_unreachable {a c : Byte} {g : Geometry} {mid : List Micro} {held : Option Instr} {s : State}
    {landed : Bool} (hr : Ready s) (ha : s.answer = .fail landed) :
    serve held (.ok (creationProgram a c g mid)) s = .next (unreachable s a) := by
  rw [serve_ready hr, served]
  have hreset := accept_resetAt hr held (creationProgram a c g mid)
  have hfail : (accept held (creationProgram a c g mid) s).answer = .fail landed := ha
  generalize haccept : accept held (creationProgram a c g mid) s = t at hreset hfail
  have hopen : Machine.busOpen (cfgAddr a) t =
      .done (respond .peripheralUnreachable [] (t.emit (.busOpen (cfgAddr a) false)).drawn) := by
    rw [Machine.busOpen, unlessReset_none _ hreset, hfail]
    rfl
  have hrun : runAll (creationProgram a c g mid) t =
      .done (respond .peripheralUnreachable [] (t.emit (.busOpen (cfgAddr a) false)).drawn) := by
    show (Machine.busOpen (cfgAddr a) t).andThen _ = _
    rw [hopen, Flow.andThen_done]
  rw [hrun, ← haccept]
  simp [unreachable, respond, State.emit, State.drawn, accept]

/-- Settles O19: behind `BusOpen` only register writes follow, and the response. -/
theorem openRuns : Obligations.OpenRuns := by
  unfold Obligations.OpenRuns
  intro a c x y s hr
  refine ⟨exec_openSession_refused hr, fun g ho hg => ?_⟩
  rw [exec_openSession_created ho hg]
  refine ⟨fun landed => serve_creation_unreachable hr, fun ha => ?_⟩
  have hevents : eventsFrom s.regs (createSteps a c g ++ [.set (.isOpen true)]) = [.busOpen (cfgAddr a) true] := by
    rw [eventsFrom_append, createSteps_events]
    rfl
  have hregs : regsAfterAll (createSteps a c g ++ [.set (.isOpen true)]) s.regs = createdSession a c g true := by
    simpa using creation_regs (a := a) (c := c) (g := g) (.inl rfl) s.regs
  have hgo : ∀ m ∈ createSteps a c g ++ [.set (.isOpen true)], Micro.goesOn m = true :=
    List.forall_mem_append.2 ⟨createSteps_goesOn a c g, by simp [Micro.goesOn]⟩
  have hanswers : AnswersOk s (drawCount [.busOpen (cfgAddr a) true]) := fun j hj => by
    obtain rfl : j = 0 := by simpa [drawCount, Event.isDraw] using hj
    exact ha
  have hserve := serve_ok (some (.openSession a c x y)) _ [] hr hgo (by rwa [hevents])
  rwa [hevents, hregs, List.append_assoc, ← List.append_nil (createSteps a c g)] at hserve

/-! ## TEARDOWN (R143) -/

/-- Settles O20: an open session's handle is released, a closed session has none. -/
theorem teardownRuns : Obligations.TeardownRuns := by
  unfold Obligations.TeardownRuns
  intro s hr
  have hexec : exec .teardown s = serve (some .teardown) (teardownProgram s) s := rfl
  refine ⟨fun ho => ?_, fun ho => ?_⟩
  · have hp : teardownProgram s = .ok ([.busClose, .set (.isOpen false)] ++ [.respond []]) := by
      simp [teardownProgram, ho]
    rw [hexec, hp]
    exact serve_ok _ _ [] hr (by simp [Micro.goesOn]) fun j hj => absurd hj (Nat.not_lt_zero j)
  · have hp : teardownProgram s = .ok ([] ++ [.respond []]) := by simp [teardownProgram, ho]
    rw [hexec, hp]
    exact serve_ok _ [] [] hr (by simp) fun j hj => absurd hj (Nat.not_lt_zero j)

/-! ## INIT with a failed write (R145) -/

/-- Steps 1 to 5b of R141 up to the display-off command: INIT before its first register write. -/
def initToDisplayOff : List Micro := initSteps.take 15

/-- The rest of step 5, from the commit of display-off. -/
def initFromDisplayOff : List Micro := initSteps.drop 15

theorem initToDisplayOff_append : initToDisplayOff ++ initFromDisplayOff = initSteps := List.take_append_drop 15 initSteps

theorem set_not_mem_initToDisplayOff (w : RegWrite) : Micro.set w ∉ initToDisplayOff := by
  simp [initToDisplayOff, initSteps, delaySteps]

/-- Display-off ends with the seventeenth write of INIT. -/
theorem writeCount_initToDisplayOff (r : Session) : writeCount (eventsFrom r initToDisplayOff) = 17 := by
  cases r
  rfl

theorem regsAfterAll_of_no_set {ms : List Micro} (h : ∀ w, Micro.set w ∉ ms) (r : Session) : regsAfterAll ms r = r :=
  regsAfterAll_keeps (I := (· = r)) (fun w hw => absurd hw (h w)) rfl

/-- Behind display-off only the two commands write the bus: `dcf` is committed before both, `emf` between them. -/
theorem before_write_of_initFromDisplayOff {pre post : List Micro} {m : Micro} (h : initFromDisplayOff = pre ++ m :: post)
    (hset : ∀ v, m ≠ .set v) :
    pre = [.set (.dcf initDisplayOff)] ∨
    pre = [.set (.dcf initDisplayOff), .cmd (entryCommand Config.FLAG_ID), .set (.emf Config.FLAG_ID)] := by
  have hlist : initFromDisplayOff =
      [.set (.dcf initDisplayOff), .cmd (entryCommand Config.FLAG_ID), .set (.emf Config.FLAG_ID),
       .cmd (displayCommand initDisplayOn), .set (.dcf initDisplayOn)] := rfl
  rw [hlist] at h
  simp only [List.cons_eq_append_iff, List.nil_eq_append_iff, List.cons.injEq, reduceCtorEq, and_false, exists_false,
    or_false] at h
  rcases h with ⟨-, rfl, -⟩ | ⟨_, rfl, ⟨rfl, -, -⟩ | ⟨_, rfl, ⟨-, rfl, -⟩ | ⟨_, rfl, ⟨rfl, -, -⟩ |
    ⟨_, -, -, rfl, -⟩⟩⟩⟩
  · exact absurd rfl (hset _)
  · exact .inl rfl
  · exact absurd rfl (hset _)
  · exact .inr rfl
  · exact absurd rfl (hset _)

/-- Up to the display-off command's last write no register has been written, and sixteen writes at most lie behind. -/
theorem initToDisplayOff_at_write {pre q : List Micro} {m : Micro} {r : Session} {b d : List Event} {w : Byte}
    (h : initToDisplayOff = pre ++ m :: q)
    (hm : microEvents (regsAfterAll pre r).backlightOn m = b ++ .wr w true :: d) :
    regsAfterAll pre r = r ∧ writeCount (eventsFrom r pre ++ b) < 17 := by
  refine ⟨regsAfterAll_of_no_set (fun v hv => ?_) r, ?_⟩
  · exact set_not_mem_initToDisplayOff v (h ▸ List.mem_append_left _ hv)
  · have htotal := writeCount_initToDisplayOff r
    have hwrite : writeCount (.wr w true :: d) = writeCount d + 1 := List.countP_cons_of_pos rfl
    rw [h, eventsFrom_append, eventsFrom, hm, writeCount_append, writeCount_append, writeCount_append, hwrite] at htotal
    rw [writeCount_append]
    omega

/-- From the commit of display-off `dcf` is 0b000 at every write, and the commit of `emf` leaves the creation value as it was. -/
theorem initFromDisplayOff_at_write {pre post : List Micro} {m : Micro} {r : Session}
    (h : initFromDisplayOff = pre ++ m :: post) (hset : ∀ v, m ≠ .set v) (hemf : r.emf = 0b10) (b : List Event) :
    regsAfterAll (initToDisplayOff ++ pre) r = { r with dcf := 0b000 } ∧
    17 ≤ writeCount (eventsFrom r (initToDisplayOff ++ pre) ++ b) := by
  constructor
  · rw [regsAfterAll_append, regsAfterAll_of_no_set set_not_mem_initToDisplayOff]
    rcases before_write_of_initFromDisplayOff h hset with rfl | rfl
    · rfl
    · cases r
      cases hemf
      rfl
  · rw [eventsFrom_append, writeCount_append, writeCount_append, writeCount_initToDisplayOff]
    omega

/-- The registers at a write of INIT, behind the operations `pre` and the events `b` of its own operation `m`: display-off,
which ends with the seventeenth write, has committed `dcf` or not yet. -/
theorem initSteps_regs_at_write {pre post : List Micro} {m : Micro} {r : Session} {b d : List Event} {w : Byte}
    (hsplit : initSteps = pre ++ m :: post) (hdcf : r.dcf = 0b100) (hemf : r.emf = 0b10)
    (hm : microEvents (regsAfterAll pre r).backlightOn m = b ++ .wr w true :: d) :
    regsAfterAll pre r =
      { r with dcf := if writeCount (eventsFrom r pre ++ b) < 17 then 0b100 else 0b000 } := by
  have hparts : (∃ q, initToDisplayOff = pre ++ m :: q) ∨
      ∃ pre', pre = initToDisplayOff ++ pre' ∧ initFromDisplayOff = pre' ++ m :: post := by
    rcases List.append_eq_append_iff.1 (initToDisplayOff_append.trans hsplit) with hpast | ⟨q, hhead, hq⟩
    · exact .inr hpast
    rcases List.cons_eq_append_iff.1 hq with ⟨rfl, htail⟩ | ⟨q', rfl, -⟩
    · exact .inr ⟨[], by simpa using hhead.symm, htail⟩
    · exact .inl ⟨q', hhead⟩
  rcases hparts with ⟨q, hhead⟩ | ⟨pre', rfl, htail⟩
  · obtain ⟨hkept, hcount⟩ := initToDisplayOff_at_write hhead hm
    rw [if_pos hcount, hkept, ← hdcf]
  · have hset : ∀ v, m ≠ .set v := by
      rintro v rfl
      simp [microEvents] at hm
    obtain ⟨hregs, hcount⟩ := initFromDisplayOff_at_write htail hset hemf b
    rw [if_neg (Nat.not_lt.2 hcount), hregs]

/-- INIT of a closed session that meets a failed write (R145). -/
theorem exec_init_fail {a c x y : Byte} {g : Geometry} {s : State} {before rest : List Event} {w : Byte} {landed : Bool}
    (hr : Ready s) (ho : s.regs.isOpen = false) (hg : ConfigNames a c x y g)
    (he : initEvents (c.getLsbD 7) = before ++ .wr w true :: rest) (hf : FailsFirstAt s (1 + drawCount before) landed) :
    exec (.init a c x y) s =
      .next (failedAfter s
        { createdSession a c g false with dcf := if writeCount before < 17 then 0b100 else 0b000 }
        (.busOpen (cfgAddr a) true :: before) w landed [.close]) := by
  rw [exec_init_created ho hg, serve_ready hr, served]
  set t := accept (some (.init a c x y)) (creationProgram a c g initSteps) s
  have hreset : t.seq.resetAt = none := accept_resetAt hr _ _
  have hcreate := createSteps_events a c g t.regs
  obtain ⟨t1, h1, p1⟩ := runAll_ok (createSteps a c g) (createSteps_goesOn a c g) hreset
    (by rw [hcreate]; exact hf.1.mono (Nat.le_add_right 1 _))
  rw [hcreate, createSteps_regs] at p1
  have he1 : eventsFrom t1.regs initSteps = before ++ .wr w true :: rest := by
    rw [initSteps_events, p1.regs]
    exact he
  obtain ⟨t2, pre, m, post, h2, hsplit, ⟨b, d, hb, rfl⟩, k⟩ :=
    runAll_fail initSteps initSteps_goesOn (p1.resetAt.trans hreset) he1 (p1.failsFirstAt hf)
  rw [initSteps_regs_at_write hsplit (by rw [p1.regs]; rfl) (by rw [p1.regs]; rfl) hb] at k
  have hbroken := p1.broken k
  rw [p1.regs] at hbroken ⊢
  rw [creationProgram, runAll_append, runAll_append, h1, Flow.andThen_go, h2, Flow.andThen_done, Flow.state_done,
    raise_broken_init hbroken rfl]
  rfl

/-- Settles O17: CREATE opens the bus, the twenty-five writes follow, and the one that fails first ends INIT where it stands. -/
theorem initRuns : Obligations.InitRuns := by
  unfold Obligations.InitRuns
  intro a c x y s hr
  refine ⟨exec_init_refused hr, fun g ho hg => ⟨fun landed hfail => ?_, exec_init_ok hr ho hg, ?_⟩⟩
  · rw [exec_init_created ho hg]
    exact serve_creation_unreachable hr hfail
  · intro before w rest landed he hf
    exact exec_init_fail hr ho hg he hf

end Sys2Proof

/-! SUPPORT. Addressing (spec/42_addressing.md): the row-address decoder, SET_CURSOR, and the character put behind it. -/

namespace Sys2Proof

open Machine

/-! ## The row-address decoder (R160) -/

/-- An address the decoder gives was asked for inside both bounds. -/
theorem addr_eq_ok_iff {s : State} {column row : Byte} {a : Addr} :
    addr s column row = .ok a ↔ row.toNat < s.regs.rows.toNat ∧ column.toNat < s.regs.columns.toNat ∧
      a = rowBaseAt s.regs.rowBase row.toNat + column.setWidth 7 := by
  by_cases hin : row.toNat < s.regs.rows.toNat ∧ column.toNat < s.regs.columns.toNat
  · obtain ⟨hrow, hcol⟩ := hin
    simp [addr_inside hrow hcol, hrow, hcol, eq_comm]
  · have hout : s.regs.rows.toNat ≤ row.toNat ∨ s.regs.columns.toNat ≤ column.toNat := by omega
    simp only [addr_outside hout, reduceCtorEq, false_iff]
    exact fun ⟨hrow, hcol, _⟩ => hin ⟨hrow, hcol⟩

/-- WF_CFG puts the last cell of every row inside the address space (spec/10_state.md R23). -/
theorem lastCell_le_of_wfCfg {columns rows row : Nat} {t : RowBase} (h : wfCfg columns rows t = true) (hrow : row < rows) :
    (rowBaseAt t row).toNat + columns - 1 ≤ 0x7F := by
  simp only [wfCfg, Bool.and_eq_true, decide_eq_true_eq, List.all_eq_true, List.mem_range] at h
  exact h.2 row hrow

/-- A sum below 0x80 does not wrap in seven bits. -/
theorem rowAddress_toNat {base : Addr} {column : Byte} (h : base.toNat + column.toNat ≤ 0x7F) :
    (base + column.setWidth 7).toNat = base.toNat + column.toNat := by
  rw [BitVec.toNat_add, BitVec.toNat_setWidth]
  omega

/-- Inside the bounds of a well-formed size the decoder's sum does not wrap (spec/40_signal_and_byte.md R127). -/
theorem rowAddress_le_of_wfCfg {s : State} {column row : Byte}
    (hwf : wfCfg s.regs.columns.toNat s.regs.rows.toNat s.regs.rowBase = true) (hrow : row.toNat < s.regs.rows.toNat)
    (hcol : column.toNat < s.regs.columns.toNat) :
    (rowBaseAt s.regs.rowBase row.toNat).toNat + column.toNat ≤ 0x7F := by
  have := lastCell_le_of_wfCfg hwf hrow
  omega

/-- Settles O29: the checks decide between the sum and the error, and WF_CFG keeps the sum from wrapping. -/
theorem rowAddressDecoder : Obligations.RowAddressDecoder := by
  unfold Obligations.RowAddressDecoder
  refine fun s column row => ⟨addr_inside, addr_outside, fun hwf a ha => ?_⟩
  obtain ⟨hrow, hcol, rfl⟩ := addr_eq_ok_iff.1 ha
  have hle := rowAddress_le_of_wfCfg hwf hrow hcol
  rw [rowAddress_toNat hle]
  exact ⟨rfl, hle⟩

/-! ## SET_CURSOR (R161) -/

/-- A request whose checks fail does nothing but respond (spec/60_exceptions.md R214). -/
theorem exec_refused {i : Instr} {s : State} {e : Status} (hi : isRequest i = true) (hr : Ready s)
    (hp : requestProgram i s = [.raise e]) (he : e ≠ .writeFailed) : exec i s = .next (refusedWith s e) := by
  have hb : s.seq.busy = false := by rw [hr]; rfl
  rw [← serve_err (some (heldRequest i)) e hr he, exec_eq_served hi hb, hp]
  simp [serve, hb, served]

/-- A request that needs an open session, on a closed one (spec/60_exceptions.md R215). -/
theorem exec_needsOpen_closed {i : Instr} {s : State} (hi : needsOpen i = true) (hr : Ready s) (hs : s.regs.isOpen = false) :
    exec i s = .next (refusedWith s .notInitialized) := by
  have hreq : isRequest i = true := by
    simp only [needsOpen, Bool.and_eq_true] at hi
    exact hi.1.1
  exact exec_refused hreq hr (requestProgram_needsOpen_closed hi hs) (by decide)

theorem exec_setCursor_outside {column row : Byte} {s : State} (hr : Ready s) (ho : s.regs.isOpen = true)
    (h : s.regs.rows.toNat ≤ row.toNat ∨ s.regs.columns.toNat ≤ column.toNat) :
    exec (.setCursor column row) s = .next (refusedWith s .outOfRange) := by
  have hp : setCursorProgram column row s = .err .outOfRange := by
    rw [setCursorProgram, requireOpen_open ho, Checked.andThen_ok, addr_outside h, Checked.andThen_err]
  exact exec_refused rfl hr (congrArg Checked.program hp) (by decide)

/-- Inside the bounds SET_CURSOR is one command, the set-DDRAM-address of the decoder's result. -/
theorem setCursor_runsAs {column row : Byte} {a : Addr} {s : State} (hr : Ready s) (ho : s.regs.isOpen = true)
    (ha : addr s column row = .ok a) :
    RunsAs (.setCursor column row) s (byteEvents s.regs.backlightOn (0b1#1 ++ a) false) s.regs s.regs [] := by
  have hp : setCursorProgram column row s = .ok ([.cmd (setDdramCommand a)] ++ [.respond []]) := by
    rw [setCursorProgram, requireOpen_open ho, Checked.andThen_ok, ha, Checked.andThen_ok]
    rfl
  rw [← setDdramCommand_eq]
  exact serve_cmd (held := .setCursor column row) hr (by rw [← hp]; rfl) (by simp)

/-- The set-DDRAM-address command on a controller in step (spec/20_memory.md R73). -/
theorem InStep.replay_setDdram {o : Observer} (h : InStep o) (bl : Bool) (a : Addr) :
    replay (byteEvents bl (0b1#1 ++ a) false) o =
      { o with space := some .ddram, ac := some a, pins := some (xword (lowNibble (0b1#1 ++ a)) false false bl) } := by
  rw [h.replay_byte, Observer.execByte, if_neg (by decide), execCommand_setDdram]

/-- SET_CURSOR answered `ok` on a controller in step: where it ends and what the controller is then. -/
theorem exec_setCursor_inStep {column row : Byte} {a : Addr} {n : Nat} {s : State} (hr : Ready s) (ho : s.regs.isOpen = true)
    (ha : addr s column row = .ok a) (hin : InStep s.obs) (hok : AnswersOk s (4 + n)) :
    ∃ t p, exec (.setCursor column row) s = .next t ∧ Ready t ∧ AnswersOk t n ∧ t.regs = s.regs ∧ InStep t.obs ∧
      t.obs = { s.obs with space := some .ddram, ac := some a, pins := some p } := by
  have hstep := hin.command s.regs.backlightOn (0b1#1 ++ a) (by rw [execCommand_setDdram]; exact hin.1)
  exact ⟨_, _, (setCursor_runsAs hr ho ha).1 (hok.mono (Nat.le_add_right 4 n)), rfl, completed_answersOk hok, rfl, hstep,
    hin.replay_setDdram s.regs.backlightOn a⟩

/-- Settles O30, by the mode and the bounds: refused, or one command that sets the display address. -/
theorem setCursorRuns : Obligations.SetCursorRuns := by
  unfold Obligations.SetCursorRuns
  refine fun column row s hr => ⟨exec_needsOpen_closed rfl hr, exec_setCursor_outside hr, ?_⟩
  rintro ho hrow hcol a rfl
  have ha := addr_inside hrow hcol
  refine ⟨setCursor_runsAs hr ho ha, fun hin hok => ?_⟩
  obtain ⟨t, p, ht, -, -, -, hin', hobs⟩ := exec_setCursor_inStep (n := 0) hr ho ha hin hok
  exact ⟨t, ht, hin', by rw [hobs], by rw [hobs], by rw [hobs], by rw [hobs]⟩

/-! ## The character at the cursor (R161's property, spec/95_test_vectors.md A3) -/

/-- PUT_CHAR is one data transfer (spec/44_text_ops.md R190). -/
theorem putChar_runsAs {ch : Byte} {s : State} (hr : Ready s) (ho : s.regs.isOpen = true) :
    RunsAs (.putChar ch) s (byteEvents s.regs.backlightOn ch true) s.regs s.regs [] := by
  have hp : putCharProgram ch s = .ok ([ch].map Micro.data ++ [.respond []]) := by
    rw [putCharProgram, requireOpen_open ho, Checked.andThen_ok]
    rfl
  have hone : bytesEvents s.regs.backlightOn [ch] true = byteEvents s.regs.backlightOn ch true := List.flatMap_singleton ..
  rw [← hone]
  exact serve_data (held := .putChar ch) hr (by rw [← hp]; rfl) (by simp)

/-- PUT_CHAR answered `ok` on a controller in step at a known display address (spec/20_memory.md R74). -/
theorem exec_putChar_inStep {ch : Byte} {a : Addr} {s : State} (hr : Ready s) (ho : s.regs.isOpen = true) (hin : InStep s.obs)
    (hspace : s.obs.space = some .ddram) (hac : s.obs.ac = some a) (hok : AnswersOk s 4) :
    ∃ u, exec (.putChar ch) s = .next u ∧ u.regs = s.regs ∧ u.obs.ddram = Memory.write s.obs.ddram a.toNat ch ∧
      u.obs.cgram = s.obs.cgram := by
  have hobs := hin.replay_byte (bl := s.regs.backlightOn) (v := ch) (rs := true)
  rw [Observer.execByte, if_pos rfl, Observer.execData_ddram ch hspace hac] at hobs
  exact ⟨_, (putChar_runsAs hr ho).1 hok, rfl, (congrArg Observer.ddram hobs :), (congrArg Observer.cgram hobs :)⟩

/-- Settles O45: SET_CURSOR leaves the counter at the decoder's address, which does not wrap, and the data byte is stored
there. The entry mode decides only where the counter goes behind it. -/
theorem characterLandsAtTheCursor : Obligations.CharacterLandsAtTheCursor := by
  unfold Obligations.CharacterLandsAtTheCursor
  intro column row ch a s hr ho hinv hin _ hok hrow hcol ha
  obtain ⟨hwf, -⟩ := hinv ho
  have hsum : a = rowBaseAt s.regs.rowBase row.toNat + column.setWidth 7 :=
    BitVec.eq_of_toNat_eq (ha.trans (rowAddress_toNat (rowAddress_le_of_wfCfg hwf hrow hcol)).symm)
  obtain ⟨t, p, ht, hrt, hokt, hregs, hint, hobs⟩ :=
    exec_setCursor_inStep (n := 4) hr ho (addr_eq_ok_iff.2 ⟨hrow, hcol, hsum⟩) hin hok
  obtain ⟨u, hu, huregs, hddram, hcgram⟩ :=
    exec_putChar_inStep (ch := ch) hrt (hregs ▸ ho) hint (by rw [hobs]) (by rw [hobs]) hokt
  rw [hobs] at hddram hcgram
  refine ⟨t, u, ht, hu, ?_, fun k hk => ?_, hcgram, huregs.trans hregs⟩
  · rw [ddramAt, hddram]
    exact Memory.read_write_same ..
  · rw [ddramAt, hddram]
    exact Memory.read_write_of_ne _ ch hk

end Sys2Proof

/-! SUPPORT. The requests on the whole display and on the session's flags (spec/43_display_ops.md R170 to R178): what each
puts on the bus, which register it commits and when, and what a controller in step makes of it. -/

namespace Sys2Proof

open Machine

/-! ## One command on a controller in step (spec/20_memory.md R72, R73) -/

/-- A request whose events are, to the controller, the one command `b`: behind it the controller is in step, as the command
leaves it. -/
theorem exec_command_inStep {i : Instr} {s : State} {evs : List Event} {after onFail : Session} {d : List Byte} {bl : Bool}
    {b : Byte} (hrun : RunsAs i s evs after onFail d) (hdraws : drawCount evs = 4)
    (hseen : replay evs s.obs = replay (byteEvents bl b false) s.obs) (hin : InStep s.obs)
    (h4 : (s.obs.execCommand b).ifw = .w4) (hok : AnswersOk s 4) :
    ∃ t p, exec i s = .next t ∧ InStep t.obs ∧ t.obs = { s.obs.execCommand b with pins := some p } := by
  have hobs : (completed s after evs d).obs = replay (byteEvents bl b false) s.obs := hseen
  refine ⟨_, _, hrun.1 (hdraws ▸ hok), ?_, hobs.trans hin.replay_byte⟩
  rw [hobs]
  exact hin.command bl b h4

/-- A command's delay is nothing to the controller (R170, R171). -/
theorem replay_commandDelay (bl : Bool) (b : Byte) (n : Nat) (o : Observer) :
    replay (byteEvents bl b false ++ [.dl n]) o = replay (byteEvents bl b false) o := by
  rw [replay_append, replay_cons, observeEvent_dl, replay_nil]

/-! ## CLEAR (R170) and HOME (R171) -/

theorem execCommand_clear (o : Observer) : Observer.execCommand 0x01 o =
    { o with ddram := Memory.fill 128 0x20, space := some .ddram, ac := some 0, entryId := some true } := rfl

theorem execCommand_home (o : Observer) : Observer.execCommand 0x02 o = { o with space := some .ddram, ac := some 0 } := rfl

/-- An open session's request that is one command and the long settle delay. -/
theorem longCommand_runsAs {i : Instr} {b : Byte} {s : State} (hr : Ready s) (ho : s.regs.isOpen = true)
    (he : exec i s = serve (some i)
      ((requireOpen s).andThen fun _ => .ok ([.cmd b] ++ delaySteps Config.T_HOME ++ [.respond []])) s)
    (hi : ∀ a c x y, i ≠ .init a c x y) :
    RunsAs i s (byteEvents s.regs.backlightOn b false ++ [.dl 1600]) s.regs s.regs [] := by
  rw [requireOpen_open ho, Checked.andThen_ok] at he
  exact serve_cmdDelay hr he hi

theorem clear_runsAs {s : State} (hr : Ready s) (ho : s.regs.isOpen = true) :
    RunsAs .clear s (byteEvents s.regs.backlightOn 0x01 false ++ [.dl 1600]) s.regs s.regs [] :=
  longCommand_runsAs hr ho rfl (by simp)

theorem home_runsAs {s : State} (hr : Ready s) (ho : s.regs.isOpen = true) :
    RunsAs .home s (byteEvents s.regs.backlightOn 0x02 false ++ [.dl 1600]) s.regs s.regs [] :=
  longCommand_runsAs hr ho rfl (by simp)

/-- Settles O31, by the mode: refused, or one command and its delay; the command fills the display memory with spaces. -/
theorem clearRuns : Obligations.ClearRuns := by
  unfold Obligations.ClearRuns
  refine fun s hr => ⟨exec_needsOpen_closed rfl hr, fun ho => ⟨clear_runsAs hr ho, fun hin hok => ?_⟩⟩
  obtain ⟨t, p, ht, hstep, hobs⟩ :=
    exec_command_inStep (clear_runsAs hr ho) rfl (replay_commandDelay _ _ _ _) hin hin.1 hok
  rw [execCommand_clear] at hobs
  refine ⟨t, ht, hstep, fun a ha => ?_, by rw [hobs], by rw [hobs], by rw [hobs]⟩
  rw [ddramAt, hobs, Memory.read_fill, if_pos ha]

/-- Settles O32, by the mode: refused, or one command and its delay; the command touches no memory. -/
theorem homeRuns : Obligations.HomeRuns := by
  unfold Obligations.HomeRuns
  refine fun s hr => ⟨exec_needsOpen_closed rfl hr, fun ho => ⟨home_runsAs hr ho, fun hin hok => ?_⟩⟩
  obtain ⟨t, p, ht, hstep, hobs⟩ :=
    exec_command_inStep (home_runsAs hr ho) rfl (replay_commandDelay _ _ _ _) hin hin.1 hok
  rw [execCommand_home] at hobs
  exact ⟨t, ht, hstep, by rw [hobs], by rw [hobs], by rw [hobs], by rw [hobs]⟩

/-! ## DISPLAY, CURSOR and BLINK (R172 to R175) -/

/-- The two places in a micro-program of two operations. -/
theorem pair_split {x y m : Micro} {pre post : List Micro} (h : [x, y] = pre ++ m :: post) :
    (pre = [] ∧ m = x) ∨ (pre = [x] ∧ m = y) := by
  rcases pre with _ | ⟨a, _ | ⟨b, l⟩⟩ <;> simp_all

/-- SETFLAG is one command; `dcf` is written behind it, so a write that fails finds it as it was (R172). -/
theorem setFlag_runsAs {i : Instr} {mask : BitVec 3} {v : Bool} {s : State} (hr : Ready s) (ho : s.regs.isOpen = true)
    (he : exec i s = serve (some i) (setFlagProgram mask v s) s) (hi : ∀ a c x y, i ≠ .init a c x y) :
    RunsAs i s (byteEvents s.regs.backlightOn (0b00001#5 ++ setFlag mask v s.regs.dcf) false)
      { s.regs with dcf := setFlag mask v s.regs.dcf } s.regs [] := by
  have hp : setFlagProgram mask v s =
      .ok ([.cmd (0b00001#5 ++ setFlag mask v s.regs.dcf), .set (.dcf (setFlag mask v s.regs.dcf))] ++ [.respond []]) := by
    rw [← displayCommand_eq, setFlagProgram, requireOpen_open ho, Checked.andThen_ok]
    rfl
  refine serve_runsAs hr (hp ▸ he) (fun a c x y h => hi a c x y (Option.some.inj h)) (by simp [Micro.goesOn]) rfl
    fun pre m post b w c hsplit hw => ?_
  rcases pair_split hsplit with ⟨rfl, rfl⟩ | ⟨rfl, rfl⟩
  · rfl
  · simp [microEvents] at hw

/-- The three flag requests are SETFLAG with their own masks (R173, R174, R175). -/
theorem exec_flagRequest {i : Instr} {mask : BitVec 3} {v : Bool}
    (h : (i = .display v ∧ mask = 0b100) ∨ (i = .cursor v ∧ mask = 0b010) ∨ (i = .blink v ∧ mask = 0b001)) :
    needsOpen i = true ∧ (∀ a c x y, i ≠ .init a c x y) ∧
      ∀ s, exec i s = serve (some i) (setFlagProgram mask v s) s := by
  rcases h with ⟨rfl, rfl⟩ | ⟨rfl, rfl⟩ | ⟨rfl, rfl⟩
  all_goals exact ⟨rfl, by simp, fun _ => rfl⟩

/-- Settles O33, by the mode: refused, or SETFLAG, whose command changes nothing of the controller but its display flags. -/
theorem flagRequestsRun : Obligations.FlagRequestsRun := by
  unfold Obligations.FlagRequestsRun
  intro i mask v d s hi hd hr
  obtain ⟨hneeds, hinit, hexec⟩ := exec_flagRequest hi
  obtain rfl : d = setFlag mask v s.regs.dcf := hd
  refine ⟨exec_needsOpen_closed hneeds hr, fun ho => ?_⟩
  have hrun := setFlag_runsAs hr ho (hexec s) hinit
  refine ⟨hrun, fun hin hok => ?_⟩
  obtain ⟨t, p, ht, hstep, hobs⟩ :=
    exec_command_inStep hrun rfl rfl hin (by rw [execCommand_display]; exact hin.1) hok
  rw [execCommand_display] at hobs
  exact ⟨t, ht, hstep, by rw [hobs], by rw [hobs], by rw [hobs], by rw [hobs], by rw [hobs]⟩

/-! ## BACKLIGHT_SET (R176) -/

/-- The flag is written before RAW's word, so it holds the new value whether or not the word is sent. -/
theorem backlightSet_runsAs {v : Bool} {s : State} (hr : Ready s) (ho : s.regs.isOpen = true) :
    RunsAs (.backlightSet v) s [.wr (if v then 0x08 else 0x00) true] { s.regs with backlightOn := v }
      { s.regs with backlightOn := v } [] := by
  have hp : backlightSetProgram v s = .ok ([.set (.backlightOn v), .raw] ++ [.respond []]) := by
    rw [backlightSetProgram, requireOpen_open ho, Checked.andThen_ok]
    rfl
  rw [← xword_raw_eq]
  refine serve_runsAs (held := some (.backlightSet v)) (ms := [.set (.backlightOn v), .raw]) hr (by rw [← hp]; rfl) (by simp)
    (by simp [Micro.goesOn]) rfl fun pre m post b w c hsplit hw => ?_
  rcases pair_split hsplit with ⟨rfl, rfl⟩ | ⟨rfl, rfl⟩
  · simp [microEvents] at hw
  · rfl

/-- Settles O34, by the mode: refused, or the flag and one word, which over a low enable pin changes the pins alone. -/
theorem backlightSetRuns : Obligations.BacklightSetRuns := by
  unfold Obligations.BacklightSetRuns
  refine fun v s hr => ⟨exec_needsOpen_closed rfl hr, fun ho => ⟨backlightSet_runsAs hr ho, fun p hp hlow hok => ?_⟩⟩
  exact ⟨_, (backlightSet_runsAs hr ho).1 hok, Observer.write_enLow s.obs _ hp hlow⟩

/-! ## BACKLIGHT_GET (R177) and GET_DIMENSIONS (R178) -/

/-- An open session's request that only responds. -/
theorem exec_getter_open {i : Instr} {d : List Byte} {s : State} (hr : Ready s) (ho : s.regs.isOpen = true)
    (he : exec i s = serve (some i) ((requireOpen s).andThen fun _ => .ok [.respond d]) s) :
    exec i s = .next (completed s s.regs [] d) := by
  rw [he, requireOpen_open ho, Checked.andThen_ok]
  exact serve_ok (some i) [] d hr (by simp) fun j hj => absurd hj (Nat.not_lt_zero j)

/-- Settles O35, by the mode: refused, or the response alone. -/
theorem gettersRead : Obligations.GettersRead := by
  unfold Obligations.GettersRead
  exact fun s hr => ⟨fun hc => ⟨exec_needsOpen_closed rfl hr hc, exec_needsOpen_closed rfl hr hc⟩,
    fun ho => ⟨exec_getter_open hr ho rfl, exec_getter_open hr ho rfl⟩⟩

end Sys2Proof

/-! SUPPORT. The requests that write characters and glyphs (spec/44_text_ops.md R190 to R196): the byte transfers each puts
on the bus, and the cells a controller in step stores them in. -/

namespace Sys2Proof

open Machine

/-! ## PUT_CHAR, PUT_STRING and FORMATTED_WRITE (R190, R191, R194) -/

/-- Settles O36, by the mode: refused, or one data transfer. -/
theorem putCharRuns : Obligations.PutCharRuns := by
  unfold Obligations.PutCharRuns
  exact fun ch s hr => ⟨exec_needsOpen_closed rfl hr, putChar_runsAs hr⟩

theorem putStringProgram_open {text : List Byte} {s : State} (ho : s.regs.isOpen = true) :
    putStringProgram text s = .ok (text.map Micro.data ++ [.respond []]) := by
  rw [putStringProgram, requireOpen_open ho, Checked.andThen_ok]

/-- PUT_STRING is one data transfer for each character. -/
theorem putString_runsAs {text : List Byte} {s : State} (hr : Ready s) (ho : s.regs.isOpen = true) :
    RunsAs (.putString text) s (bytesEvents s.regs.backlightOn text true) s.regs s.regs [] :=
  serve_data (held := .putString text) hr (by rw [← putStringProgram_open ho]; rfl) (by simp)

/-- Settles O37, by the mode: refused, or the data transfers in order. -/
theorem putStringRuns : Obligations.PutStringRuns := by
  unfold Obligations.PutStringRuns
  exact fun text s hr => ⟨exec_needsOpen_closed rfl hr, putString_runsAs hr⟩

/-- A formatted write reaches the block as the PUT_STRING of its cut text (R194). -/
theorem exec_formattedWrite (text : List Byte) (s : State) :
    exec (.formattedWrite text) s = exec (.putString (cutText text)) s := rfl

theorem cutText_eq_take_min (text : List Byte) : cutText text = text.take (min text.length (Config.FMT_CAP - 1)) := by
  rw [cutText, Nat.min_comm, ← List.take_take, List.take_length]

/-- Settles O40: the cut text put as a string. -/
theorem formattedWriteRuns : Obligations.FormattedWriteRuns := by
  unfold Obligations.FormattedWriteRuns
  refine fun text s hr => ⟨exec_needsOpen_closed rfl hr, fun ho => ?_⟩
  rw [← cutText_eq_take_min, RunsAs, exec_formattedWrite]
  exact putString_runsAs hr ho

/-! ## CLEAR_LINE and SET_LINE (R192, R193) -/

/-- In column 0 the decoder gives the row's base. -/
theorem addr_column_zero {line : Byte} {s : State} (hline : line.toNat < s.regs.rows.toNat) (hcol : 0 < s.regs.columns.toNat) :
    addr s 0 line = .ok (rowBaseAt s.regs.rowBase line.toNat) :=
  addr_eq_ok_iff.2 ⟨hline, hcol, (BitVec.add_zero _).symm⟩

theorem lineProgram_outside {line : Byte} {s : State} (ho : s.regs.isOpen = true)
    (h : s.regs.rows.toNat ≤ line.toNat ∨ s.regs.columns.toNat = 0) (text : List Byte) :
    lineProgram line text s = .err .outOfRange := by
  have hout : s.regs.rows.toNat ≤ line.toNat ∨ s.regs.columns.toNat ≤ (0 : Byte).toNat := h.imp_right Nat.le_of_eq
  rw [lineProgram, requireOpen_open ho, Checked.andThen_ok, addr_outside hout, Checked.andThen_err]

/-- The events of a line written from column 0: the reposition, then exactly `columns` characters. -/
def lineEvents (line : Byte) (text : List Byte) (s : State) : List Event :=
  byteEvents s.regs.backlightOn (0b1#1 ++ rowBaseAt s.regs.rowBase line.toNat) false ++
    bytesEvents s.regs.backlightOn (lineChars s.regs.columns.toNat text) true

theorem line_runsAs {i : Instr} {line : Byte} {text : List Byte} {s : State} (hr : Ready s) (ho : s.regs.isOpen = true)
    (hline : line.toNat < s.regs.rows.toNat) (hcol : 0 < s.regs.columns.toNat)
    (he : exec i s = serve (some i) (lineProgram line text s) s) (hi : ∀ a c x y, i ≠ .init a c x y) :
    RunsAs i s (lineEvents line text s) s.regs s.regs [] := by
  rw [lineProgram, requireOpen_open ho, Checked.andThen_ok, addr_column_zero hline hcol, Checked.andThen_ok,
    setDdramCommand_eq] at he
  exact serve_cmdData hr he hi

theorem clearLine_runsAs {line : Byte} {s : State} (hr : Ready s) (ho : s.regs.isOpen = true)
    (hline : line.toNat < s.regs.rows.toNat) (hcol : 0 < s.regs.columns.toNat) :
    RunsAs (.clearLine line) s (lineEvents line [] s) s.regs s.regs [] :=
  line_runsAs hr ho hline hcol rfl (by simp)

theorem setLine_runsAs {line : Byte} {text : List Byte} {s : State} (hr : Ready s) (ho : s.regs.isOpen = true)
    (hline : line.toNat < s.regs.rows.toNat) (hcol : 0 < s.regs.columns.toNat) :
    RunsAs (.setLine line text) s (lineEvents line text s) s.regs s.regs [] :=
  line_runsAs hr ho hline hcol rfl (by simp)

theorem lineChars_nil (n : Nat) : lineChars n [] = List.replicate n 0x20 := by
  rw [lineChars_eq, List.take_nil, List.nil_append, List.length_nil, Nat.sub_zero]

/-- Settles O38, by the mode and the bounds: refused, or the reposition and the spaces. -/
theorem clearLineRuns : Obligations.ClearLineRuns := by
  unfold Obligations.ClearLineRuns
  refine fun line s hr => ⟨exec_needsOpen_closed rfl hr, fun ho hout => ?_, fun ho hline hcol => ?_⟩
  · exact exec_refused rfl hr (congrArg Checked.program (lineProgram_outside ho hout [])) (by decide)
  · rw [← lineChars_nil]
    exact clearLine_runsAs hr ho hline hcol

/-- Settles O39, by the mode and the bounds: refused, or the reposition and the characters of the line. -/
theorem setLineRuns : Obligations.SetLineRuns := by
  unfold Obligations.SetLineRuns
  refine fun line text s hr => ⟨exec_needsOpen_closed rfl hr, fun ho hout => ?_, fun ho hline hcol => ?_⟩
  · exact exec_refused rfl hr (congrArg Checked.program (lineProgram_outside ho hout text)) (by decide)
  · rw [← lineChars_eq]
    exact setLine_runsAs hr ho hline hcol

/-! ## CREATE_CUSTOM_CHAR (R195) -/

theorem exec_createCustomChar_outside {slot : Byte} {pat : List Byte} {s : State} (hr : Ready s) (ho : s.regs.isOpen = true)
    (h : 7 < slot.toNat) : exec (.createCustomChar slot pat) s = .next (refusedWith s .outOfRange) := by
  have hp : createCustomCharProgram slot pat s = .err .outOfRange := by
    rw [createCustomCharProgram, requireOpen_open ho, Checked.andThen_ok, decide_eq_false (Nat.not_le.2 h), require_false,
      Checked.andThen_err]
  exact exec_refused rfl hr (congrArg Checked.program hp) (by decide)

theorem createCustomCharProgram_inside {slot : Byte} {s : State} (ho : s.regs.isOpen = true) (h : slot.toNat ≤ 7)
    (pat : List Byte) : createCustomCharProgram slot pat s = .ok (([.cmd (setCgramCommand slot)] ++ pat.map Micro.data ++
      [.cmd (setDdramCommand 0)]) ++ [.respond []]) := by
  rw [createCustomCharProgram, requireOpen_open ho, Checked.andThen_ok, decide_eq_true h, require_true, Checked.andThen_ok,
    List.append_assoc _ _ [Micro.respond []]]
  rfl

/-- The glyph's transfers go on and write no register. -/
theorem glyphSteps_pure {v w : Byte} {pat : List Byte} {m : Micro}
    (hm : m ∈ [Micro.cmd v] ++ pat.map Micro.data ++ [Micro.cmd w]) :
    Micro.goesOn m = true ∧ ∀ r, Micro.regsAfter m r = r := by
  simp only [List.mem_append, List.mem_singleton] at hm
  obtain (rfl | hdata) | rfl := hm
  · exact ⟨rfl, fun _ => rfl⟩
  · exact data_pure hdata
  · exact ⟨rfl, fun _ => rfl⟩

/-- The events of a glyph: its address, the pattern bytes, and back to display address 0. -/
def glyphEvents (bl : Bool) (slot : Byte) (pat : List Byte) : List Event :=
  byteEvents bl (0b01#2 ++ slot.extractLsb' 0 3 ++ 0b000#3) false ++ bytesEvents bl pat true ++ byteEvents bl 0x80 false

theorem createCustomChar_runsAs {slot : Byte} {pat : List Byte} {s : State} (hr : Ready s) (ho : s.regs.isOpen = true)
    (h : slot.toNat ≤ 7) :
    RunsAs (.createCustomChar slot pat) s (glyphEvents s.regs.backlightOn slot pat) s.regs s.regs [] := by
  have hrun := serve_runsAs_pure (i := .createCustomChar slot pat) (held := some (.createCustomChar slot pat)) hr
    (by rw [← createCustomCharProgram_inside ho h pat]; rfl) (by simp) (fun m hm => (glyphSteps_pure hm).1)
    (fun m hm => (glyphSteps_pure hm).2)
  rw [programEvents_append, programEvents_append, programEvents_data, setCgramCommand_eq slot h] at hrun
  exact hrun

/-- Settles O41, by the mode and the slot: refused, or the glyph's transfers. -/
theorem createCustomCharRuns : Obligations.CreateCustomCharRuns := by
  unfold Obligations.CreateCustomCharRuns
  exact fun slot pat s hr => ⟨exec_needsOpen_closed rfl hr, exec_createCustomChar_outside hr, createCustomChar_runsAs hr⟩

/-! ## Bytes written at consecutive addresses (spec/20_memory.md R74) -/

/-- The bytes of a list written from address `k` on. -/
def Memory.writeRun : List Host.Cell → Nat → List Byte → List Host.Cell
  | m, _, [] => m
  | m, k, v :: vs => Memory.writeRun (Memory.write m k v) (k + 1) vs

theorem Memory.read_writeRun_outside (vs : List Byte) {m : List Host.Cell} {k b : Nat} (h : b < k ∨ k + vs.length ≤ b) :
    Memory.read (Memory.writeRun m k vs) b = Memory.read m b := by
  induction vs generalizing m k with
  | nil => rfl
  | cons v vs ih =>
    rw [List.length_cons] at h
    rw [Memory.writeRun, ih (by omega), Memory.read_write_of_ne m v (by omega)]

theorem Memory.read_writeRun_inside {vs : List Byte} {m : List Host.Cell} {k j : Nat} (h : j < vs.length) :
    Memory.read (Memory.writeRun m k vs) (k + j) = vs[j]? := by
  induction vs generalizing m k j with
  | nil => cases h
  | cons v vs ih =>
    cases j with
    | zero => exact (Memory.read_writeRun_outside vs (.inl (Nat.lt_succ_self k))).trans (Memory.read_write_same m k v)
    | succ j =>
      have hnext : k + (j + 1) = k + 1 + j := by omega
      rw [Memory.writeRun, hnext, ih (Nat.lt_of_succ_lt_succ h), List.getElem?_cons_succ]

/-! ## Data bytes on a controller in step (R72, R74) -/

theorem InStep.replay_data_ddram {o : Observer} {a : Addr} (h : InStep o) (hs : o.space = some .ddram) (ha : o.ac = some a)
    (bl : Bool) (v : Byte) : replay (byteEvents bl v true) o =
      { o with ddram := Memory.write o.ddram a.toNat v, ac := o.nextDdram a,
               pins := some (xword (lowNibble v) true false bl) } := by
  rw [h.replay_byte, Observer.execByte, if_pos rfl, Observer.execData_ddram v hs ha]

theorem InStep.replay_data_cgram {o : Observer} {a : Addr} (h : InStep o) (hs : o.space = some .cgram) (ha : o.ac = some a)
    (bl : Bool) (v : Byte) : replay (byteEvents bl v true) o =
      { o with cgram := Memory.write o.cgram (cgramIndex a) v, ac := o.nextCgram a,
               pins := some (xword (lowNibble v) true false bl) } := by
  rw [h.replay_byte, Observer.execByte, if_pos rfl, Observer.execData_cgram v hs ha]

/-- Data transfers, however many, keep the controller in step. -/
theorem InStep.data_bytes (bl : Bool) (vs : List Byte) {o : Observer} (h : InStep o) :
    InStep (replay (bytesEvents bl vs true) o) := by
  induction vs generalizing o with
  | nil => exact h
  | cons v vs ih =>
    rw [replay_bytesEvents_cons]
    exact ih h.data

theorem addr_succ_toNat {a : Addr} (h : a.toNat + 1 < 0x80) : (a + 1).toNat = a.toNat + 1 := by
  rw [BitVec.toNat_add]
  exact Nat.mod_eq_of_lt h

/-! ## A string from the address counter on (spec/44_text_ops.md R196) -/

/-- The address counter goes on by one between any two of `n` display addresses from `a` on: none but the last is 0x27, 0x67
(spec/20_memory.md R61, R74; log 16) or the end of the address space. -/
def NoWrapInside (a n : Nat) : Prop := a + n ≤ 0x28 ∨ (0x28 ≤ a ∧ a + n ≤ 0x68) ∨ (0x68 ≤ a ∧ a + n ≤ 0x80)

theorem NoWrapInside.tail {a n : Nat} (h : NoWrapInside a (n + 2)) :
    a ≠ 0x27 ∧ a ≠ 0x67 ∧ a + 1 < 0x80 ∧ NoWrapInside (a + 1) (n + 1) := by
  unfold NoWrapInside at *
  omega

/-- Behind a character that is not the last the counter stands at the next address. -/
theorem AtDisplay.next {o : Observer} {a : Addr} (h : AtDisplay o a) (h1 : a.toNat ≠ 0x27) (h2 : a.toNat ≠ 0x67) (bl : Bool)
    (v : Byte) : AtDisplay (replay (byteEvents bl v true) o) (a + 1) := by
  obtain ⟨hin, hspace, hac, hinc⟩ := h
  refine ⟨hin.data, ?_⟩
  rw [hin.replay_data_ddram hspace hac]
  exact ⟨hspace, Observer.nextDdram_of_increment hinc h1 h2, hinc⟩

/-- Characters sent to a controller at a display address fill the cells from there on. The counter is asked for only between
two of them: where it goes behind the last one does not matter. -/
theorem AtDisplay.replay_text (bl : Bool) (vs : List Byte) {o : Observer} {a : Addr} (h : AtDisplay o a)
    (hn : NoWrapInside a.toNat vs.length) :
    (replay (bytesEvents bl vs true) o).ddram = Memory.writeRun o.ddram a.toNat vs ∧
      (replay (bytesEvents bl vs true) o).cgram = o.cgram := by
  induction vs generalizing o a with
  | nil => exact ⟨rfl, rfl⟩
  | cons v vs ih =>
    have ⟨hin, hspace, hac, _⟩ := h
    have hone := hin.replay_data_ddram hspace hac bl v
    rw [replay_bytesEvents_cons, Memory.writeRun]
    cases vs with
    | nil =>
      rw [hone]
      exact ⟨rfl, rfl⟩
    | cons w vs =>
      obtain ⟨h1, h2, hlt, htail⟩ := hn.tail
      have hsucc := addr_succ_toNat hlt
      have hrest := ih (h.next h1 h2 bl v) (hsucc ▸ htail)
      rwa [congrArg Observer.ddram hone, congrArg Observer.cgram hone, hsucc] at hrest

/-- What display memory reads as behind a run of characters. -/
theorem ddramAt_writeRun {s t : State} {k : Nat} {vs : List Byte} (h : t.obs.ddram = Memory.writeRun s.obs.ddram k vs) :
    (∀ j, j < vs.length → ddramAt t (k + j) = vs[j]?) ∧
      ∀ b, b < k ∨ k + vs.length ≤ b → ddramAt t b = ddramAt s b := by
  simp only [ddramAt, h]
  exact ⟨fun j => Memory.read_writeRun_inside, fun b => Memory.read_writeRun_outside vs⟩

/-- Settles O46: the characters fill the cells from the counter on. -/
theorem stringRunsOnFromTheCounter : Obligations.StringRunsOnFromTheCounter := by
  unfold Obligations.StringRunsOnFromTheCounter
  intro text a s hr ho hat hok hwrap
  obtain ⟨hddram, hcgram⟩ := hat.replay_text s.regs.backlightOn text hwrap
  obtain ⟨hinside, houtside⟩ := ddramAt_writeRun (t := completed s s.regs (bytesEvents s.regs.backlightOn text true) []) hddram
  exact ⟨_, (putString_runsAs hr ho).1 (by rwa [drawCount_bytesEvents]), hinside, houtside, hcgram⟩

/-! ## A line from column 0 on (R192, R193) -/

theorem lineChars_length (n : Nat) (text : List Byte) : (lineChars n text).length = n := by
  rw [lineChars, List.length_map, List.length_range]

theorem lineChars_getElem? {n k : Nat} (h : k < n) (text : List Byte) : (lineChars n text)[k]? = some (text.getD k 0x20) := by
  rw [lineChars, List.getElem?_map, List.getElem?_range h]
  rfl

theorem drawCount_lineEvents (line : Byte) (text : List Byte) (s : State) :
    drawCount (lineEvents line text s) = 4 * (1 + s.regs.columns.toNat) := by
  rw [lineEvents, drawCount_append, drawCount_byteEvents, drawCount_bytesEvents, lineChars_length, Nat.mul_add]

/-- The reposition leaves a controller in step at the row's base. -/
theorem InStep.atDisplay_setDdram {o : Observer} (h : InStep o) (hinc : o.entryId = some true) (bl : Bool) (a : Addr) :
    AtDisplay (replay (byteEvents bl (0b1#1 ++ a) false) o) a := by
  refine ⟨h.command bl _ (by rw [execCommand_setDdram]; exact h.1), ?_⟩
  rw [h.replay_setDdram]
  exact ⟨rfl, rfl, hinc⟩

/-- A request that writes a line, answered `ok` on a controller in step: what both memories hold behind it. -/
theorem exec_line_inStep {i : Instr} {line : Byte} {text : List Byte} {base : Nat} {s : State}
    (hrun : RunsAs i s (lineEvents line text s) s.regs s.regs []) (hin : InStep s.obs) (hinc : s.obs.entryId = some true)
    (hok : AnswersOk s (4 * (1 + s.regs.columns.toNat))) (hbase : base = (rowBaseAt s.regs.rowBase line.toNat).toNat)
    (hn : NoWrapInside base s.regs.columns.toNat) :
    ∃ t, exec i s = .next t ∧
      (∀ k, k < s.regs.columns.toNat → ddramAt t (base + k) = some (text.getD k 0x20)) ∧
      (∀ b, b < base ∨ base + s.regs.columns.toNat ≤ b → ddramAt t b = ddramAt s b) ∧ t.obs.cgram = s.obs.cgram := by
  subst hbase
  have hat := hin.atDisplay_setDdram hinc s.regs.backlightOn (rowBaseAt s.regs.rowBase line.toNat)
  have hmem := hat.replay_text s.regs.backlightOn (lineChars s.regs.columns.toNat text) (by rwa [lineChars_length])
  rw [← replay_append, hin.replay_setDdram] at hmem
  obtain ⟨hddram, hcgram⟩ := hmem
  obtain ⟨hinside, houtside⟩ := ddramAt_writeRun (t := completed s s.regs (lineEvents line text s) []) hddram
  rw [lineChars_length] at hinside houtside
  exact ⟨_, hrun.1 (by rwa [drawCount_lineEvents]), fun k hk => (hinside k hk).trans (lineChars_getElem? hk text), houtside,
    hcgram⟩

/-- Settles O47: both requests write a line; CLEAR_LINE writes the line of the empty string. -/
theorem lineIsOverwritten : Obligations.LineIsOverwritten := by
  unfold Obligations.LineIsOverwritten
  intro line text base s hr ho hin hinc hok hline hcol hbase hwrap
  obtain ⟨t, ht, htin, htout, htcg⟩ :=
    exec_line_inStep (setLine_runsAs (text := text) hr ho hline hcol) hin hinc hok hbase hwrap
  obtain ⟨u, hu, huin, huout, hucg⟩ := exec_line_inStep (clearLine_runsAs hr ho hline hcol) hin hinc hok hbase hwrap
  exact ⟨t, u, ht, hu, fun k hk => ⟨htin k hk, huin k hk⟩, fun b hb => ⟨htout b hb, huout b hb⟩, htcg, hucg⟩

/-! ## A glyph in its slot (R195; spec/70_reset_and_hazards.md R253, spec/20_memory.md R62) -/

/-- The controller takes data bytes at glyph address `a`, one after the other. -/
def AtGlyph (o : Observer) (a : Addr) : Prop :=
  InStep o ∧ o.space = some .cgram ∧ o.ac = some a ∧ o.entryId = some true

/-- The address counter for a slot's first byte. -/
def glyphAddr (slot : Byte) : Addr := (slot.setWidth 6 <<< 3).setWidth 7

theorem glyphAddr_toNat {slot : Byte} (h : slot.toNat ≤ 7) : (glyphAddr slot).toNat = 8 * slot.toNat := by
  revert slot
  decide +kernel

theorem execCommand_setCgram {slot : Byte} (h : slot.toNat ≤ 7) (o : Observer) :
    Observer.execCommand (0b01#2 ++ slot.extractLsb' 0 3 ++ 0b000#3) o =
      { o with space := some .cgram, ac := some (glyphAddr slot) } := by
  rw [← setCgramCommand_eq slot h]
  simp only [Observer.execCommand, decodeLcd_setCgram slot h]
  rfl

theorem InStep.replay_setCgram {o : Observer} {slot : Byte} (h : InStep o) (hs : slot.toNat ≤ 7) (bl : Bool) :
    ∃ p, replay (byteEvents bl (0b01#2 ++ slot.extractLsb' 0 3 ++ 0b000#3) false) o =
      { o with space := some .cgram, ac := some (glyphAddr slot), pins := some p } :=
  ⟨_, by rw [h.replay_byte, Observer.execByte, if_neg (by decide), execCommand_setCgram hs]⟩

theorem InStep.atGlyph_setCgram {o : Observer} {slot : Byte} (h : InStep o) (hinc : o.entryId = some true)
    (hs : slot.toNat ≤ 7) (bl : Bool) :
    AtGlyph (replay (byteEvents bl (0b01#2 ++ slot.extractLsb' 0 3 ++ 0b000#3) false) o) (glyphAddr slot) := by
  obtain ⟨p, hp⟩ := h.replay_setCgram hs bl
  refine ⟨h.command bl _ (by rw [execCommand_setCgram hs]; exact h.1), ?_⟩
  rw [hp]
  exact ⟨rfl, rfl, hinc⟩

/-- In glyph memory the counter always goes on by one. -/
theorem AtGlyph.next {o : Observer} {a : Addr} (h : AtGlyph o a) (bl : Bool) (v : Byte) :
    AtGlyph (replay (byteEvents bl v true) o) (a + 1) := by
  obtain ⟨hin, hspace, hac, hinc⟩ := h
  refine ⟨hin.data, ?_⟩
  rw [hin.replay_data_cgram hspace hac]
  exact ⟨hspace, Observer.nextCgram_of_increment hinc a, hinc⟩

/-- Pattern bytes sent to a controller at a glyph address fill the glyph's cells from there on. -/
theorem AtGlyph.replay_pattern (bl : Bool) (vs : List Byte) {o : Observer} {a : Addr} (h : AtGlyph o a)
    (hn : a.toNat + vs.length ≤ 64) :
    (replay (bytesEvents bl vs true) o).cgram = Memory.writeRun o.cgram a.toNat vs ∧
      (replay (bytesEvents bl vs true) o).ddram = o.ddram := by
  induction vs generalizing o a with
  | nil => exact ⟨rfl, rfl⟩
  | cons v vs ih =>
    rw [List.length_cons] at hn
    have ⟨hin, hspace, hac, _⟩ := h
    have hone := hin.replay_data_cgram hspace hac bl v
    have hsucc : (a + 1).toNat = a.toNat + 1 := addr_succ_toNat (by omega)
    have hindex : cgramIndex a = a.toNat := by rw [cgramIndex_eq_mod]; omega
    have hrest := ih (h.next bl v) (by omega)
    rw [replay_bytesEvents_cons, Memory.writeRun]
    rwa [congrArg Observer.cgram hone, congrArg Observer.ddram hone, hsucc, hindex] at hrest

theorem drawCount_glyphEvents (bl : Bool) (slot : Byte) (pat : List Byte) :
    drawCount (glyphEvents bl slot pat) = 4 + 4 * pat.length + 4 := by
  rw [glyphEvents, drawCount_append, drawCount_append, drawCount_byteEvents, drawCount_bytesEvents, drawCount_byteEvents]

/-- The transfers of a glyph on a controller in step: the pattern in the slot's cells, then back to display address 0. -/
theorem InStep.replay_glyph {o : Observer} {slot : Byte} {pat : List Byte} (h : InStep o) (hinc : o.entryId = some true)
    (hs : slot.toNat ≤ 7) (hp : pat.length = 8) (bl : Bool) :
    InStep (replay (glyphEvents bl slot pat) o) ∧
      (replay (glyphEvents bl slot pat) o).cgram = Memory.writeRun o.cgram (8 * slot.toNat) pat ∧
      (replay (glyphEvents bl slot pat) o).ddram = o.ddram ∧
      (replay (glyphEvents bl slot pat) o).space = some .ddram ∧ (replay (glyphEvents bl slot pat) o).ac = some 0 := by
  have hat := h.atGlyph_setCgram hinc hs bl
  have hpattern := hat.1.data_bytes bl pat
  have hmem := hat.replay_pattern bl pat (by rw [glyphAddr_toNat hs]; omega)
  obtain ⟨p, hset⟩ := h.replay_setCgram hs bl
  rw [glyphAddr_toNat hs, congrArg Observer.cgram hset, congrArg Observer.ddram hset] at hmem
  have hback : (0x80 : Byte) = 0b1#1 ++ (0 : Addr) := rfl
  rw [glyphEvents, replay_append, replay_append, hback]
  refine ⟨hpattern.command bl _ (by rw [execCommand_setDdram]; exact hpattern.1), ?_⟩
  rw [hpattern.replay_setDdram]
  exact ⟨hmem.1, hmem.2, rfl, rfl⟩

/-- Settles O48: the glyph's transfers leave the pattern in the slot's cells. -/
theorem glyphIsStored : Obligations.GlyphIsStored := by
  unfold Obligations.GlyphIsStored
  intro slot pat s hr ho hin hinc hok hslot hpat
  obtain ⟨hstep, hcgram, hddram, hspace, hac⟩ := hin.replay_glyph hinc hslot hpat s.regs.backlightOn
  refine ⟨_, (createCustomChar_runsAs hr ho hslot).1 (by rwa [drawCount_glyphEvents, hpat]), hstep, fun k hk => ?_,
    fun b hb => ?_, hddram, hspace, hac⟩
  · rw [cgramAt, completed, hcgram]
    exact Memory.read_writeRun_inside (hpat.symm ▸ hk)
  · rw [cgramAt, completed, hcgram]
    exact Memory.read_writeRun_outside pat (hpat.symm ▸ hb)

end Sys2Proof

/-! SUPPORT. How a request ends (spec/60_exceptions.md R210 to R223): every status with the block it leaves, whatever the bus
answers, and what the modes of the session, the errors and INVALID_ARGUMENT's sources are by it. -/

namespace Sys2Proof

open Machine

/-! ## Histories of transfers -/

/-- A successful bus write or a delay: what a request on an open session makes until it ends. -/
def Event.isTransfer : Event → Bool
  | .wr _ ok => ok
  | .dl _ => true
  | .busOpen _ _ | .close | .rsp _ _ => false

/-- Every event is a transfer. -/
def Transfers (evs : List Event) : Prop := ∀ e ∈ evs, Event.isTransfer e = true

theorem Transfers.nil : Transfers [] := by simp [Transfers]

theorem Transfers.append {a b : List Event} (ha : Transfers a) (hb : Transfers b) : Transfers (a ++ b) :=
  List.forall_mem_append.2 ⟨ha, hb⟩

theorem Transfers.left {a b : List Event} (h : Transfers (a ++ b)) : Transfers a := (List.forall_mem_append.1 h).1

theorem transfers_nibEvents (bl : Bool) (n : Nibble) (rs : Bool) : Transfers (nibEvents bl n rs) := by
  simp [Transfers, nibEvents, Event.isTransfer]

theorem transfers_byteEvents (bl : Bool) (v : Byte) (rs : Bool) : Transfers (byteEvents bl v rs) :=
  (transfers_nibEvents bl _ rs).append (transfers_nibEvents bl _ rs)

theorem transfers_bytesEvents (bl : Bool) (vs : List Byte) (rs : Bool) : Transfers (bytesEvents bl vs rs) := by
  induction vs with
  | nil => exact .nil
  | cons v vs ih => exact (transfers_byteEvents bl v rs).append ih

theorem transfers_dl (n : Nat) : Transfers [.dl n] := by simp [Transfers, Event.isTransfer]

theorem transfers_wr (w : Byte) : Transfers [.wr w true] := by simp [Transfers, Event.isTransfer]

theorem transfers_initEvents (bl : Bool) : Transfers (initEvents bl) := by
  simp [Transfers, initEvents, nibEvents, bytesEvents, byteEvents, Event.isTransfer]

/-- A transfer is no response. -/
theorem Transfers.silent {evs : List Event} (h : Transfers evs) : ∀ e ∈ evs, Event.isRsp e = false := by
  intro e he
  have := h e he
  cases e <;> simp_all [Event.isTransfer, Event.isRsp]

/-- A transfer that uses an answer of the bus is a write. -/
theorem Transfers.draws {evs : List Event} (h : Transfers evs) :
    ∀ e ∈ evs, Event.isDraw e = true → ∃ w, e = .wr w true := by
  intro e he hd
  have := h e he
  cases e <;> simp_all [Event.isTransfer, Event.isDraw]

/-- Whatever the bus answers: the request completes, or it ends at the first write that fails. -/
theorem RunsAs.ends {i : Instr} {s : State} {evs : List Event} {after onFail : Session} {d : List Byte}
    (h : RunsAs i s evs after onFail d) (hevs : Transfers evs) :
    exec i s = .next (completed s after evs d) ∨
    ∃ before w landed, Transfers before ∧ exec i s = .next (failedAfter s onFail before w landed []) := by
  rcases answersOk_or_failsFirst s (drawCount evs) with hok | ⟨j, landed, hj, hf⟩
  · exact .inl (h.1 hok)
  · obtain ⟨before, w, rest, rfl, rfl⟩ := exists_write_of_lt_drawCount hevs.draws hj
    exact .inr ⟨before, w, landed, hevs.left, h.2 before w rest landed rfl hf⟩

/-! ## Requests on an open session -/

theorem exec_clearLine_outside {line : Byte} {s : State} (hr : Ready s) (ho : s.regs.isOpen = true)
    (h : s.regs.rows.toNat ≤ line.toNat ∨ s.regs.columns.toNat = 0) :
    exec (.clearLine line) s = .next (refusedWith s .outOfRange) :=
  exec_refused rfl hr (congrArg Checked.program (lineProgram_outside ho h [])) (by decide)

theorem exec_setLine_outside {line : Byte} {s : State} (hr : Ready s) (ho : s.regs.isOpen = true)
    (h : s.regs.rows.toNat ≤ line.toNat ∨ s.regs.columns.toNat = 0) (text : List Byte) :
    exec (.setLine line text) s = .next (refusedWith s .outOfRange) :=
  exec_refused rfl hr (congrArg Checked.program (lineProgram_outside ho h text)) (by decide)

/-- Transfers behind which the session is open still; where one fails, only the backlight can have changed
(spec/60_exceptions.md R218). -/
def RunsOpen (i : Instr) (s : State) : Prop :=
  ∃ evs after d, RunsAs i s evs after { s.regs with backlightOn := backlightAfter i s } d ∧
    Transfers evs ∧ after.isOpen = true

theorem transfers_lineEvents (line : Byte) (text : List Byte) (s : State) : Transfers (lineEvents line text s) :=
  (transfers_byteEvents _ _ _).append (transfers_bytesEvents _ _ _)

theorem transfers_glyphEvents (bl : Bool) (slot : Byte) (pat : List Byte) : Transfers (glyphEvents bl slot pat) :=
  ((transfers_byteEvents _ _ _).append (transfers_bytesEvents _ _ _)).append (transfers_byteEvents _ _ _)

/-- A request that only responds makes no transfer. -/
theorem runsAs_nil {i : Instr} {s : State} {regs onFail : Session} {d : List Byte}
    (h : exec i s = .next (completed s regs [] d)) : RunsAs i s [] regs onFail d :=
  ⟨fun _ => h, fun before w rest landed he => by simp at he⟩

/-- On an open session a request that needs one is out of range or makes its transfers (R216). -/
theorem outOfRange_or_runsOpen {i : Instr} {s : State} (hn : needsOpen i = true) (hr : Ready s) (ho : s.regs.isOpen = true) :
    exec i s = .next (refusedWith s .outOfRange) ∨ RunsOpen i s := by
  cases i
  case clear =>
    exact .inr ⟨_, _, _, clear_runsAs hr ho, (transfers_byteEvents _ _ _).append (transfers_dl _), ho⟩
  case home =>
    exact .inr ⟨_, _, _, home_runsAs hr ho, (transfers_byteEvents _ _ _).append (transfers_dl _), ho⟩
  case clearLine line =>
    by_cases hin : line.toNat < s.regs.rows.toNat ∧ 0 < s.regs.columns.toNat
    · obtain ⟨hline, hcol⟩ := hin
      exact .inr ⟨_, _, _, clearLine_runsAs hr ho hline hcol, transfers_lineEvents _ _ _, ho⟩
    · exact .inl (exec_clearLine_outside hr ho (by omega))
  case setLine line text =>
    by_cases hin : line.toNat < s.regs.rows.toNat ∧ 0 < s.regs.columns.toNat
    · obtain ⟨hline, hcol⟩ := hin
      exact .inr ⟨_, _, _, setLine_runsAs hr ho hline hcol, transfers_lineEvents _ _ _, ho⟩
    · exact .inl (exec_setLine_outside hr ho (by omega) text)
  case setCursor column row =>
    cases ha : addr s column row with
    | ok a => exact .inr ⟨_, _, _, setCursor_runsAs hr ho ha, transfers_byteEvents _ _ _, ho⟩
    | err e =>
      refine .inl (exec_setCursor_outside hr ho ?_)
      by_contra hin
      rw [addr_inside (by omega) (by omega)] at ha
      cases ha
  case display v | cursor v | blink v =>
    exact .inr ⟨_, _, _, setFlag_runsAs (v := v) hr ho rfl nofun, transfers_byteEvents _ _ _, ho⟩
  case backlightSet v => exact .inr ⟨_, _, _, backlightSet_runsAs hr ho, transfers_wr _, ho⟩
  case backlightGet | getDimensions =>
    exact .inr ⟨_, _, _, runsAs_nil (exec_getter_open hr ho rfl), .nil, ho⟩
  case putChar ch => exact .inr ⟨_, _, _, putChar_runsAs hr ho, transfers_byteEvents _ _ _, ho⟩
  case putString text => exact .inr ⟨_, _, _, putString_runsAs hr ho, transfers_bytesEvents _ _ _, ho⟩
  case formattedWrite text =>
    exact .inr ⟨_, _, _, putString_runsAs (text := cutText text) hr ho, transfers_bytesEvents _ _ _, ho⟩
  case createCustomChar slot pat =>
    by_cases hslot : slot.toNat ≤ 7
    · exact .inr ⟨_, _, _, createCustomChar_runsAs hr ho hslot, transfers_glyphEvents _ _ _, ho⟩
    · exact .inl (exec_createCustomChar_outside hr ho (Nat.not_le.1 hslot))
  all_goals cases hn

/-! ## The ends of a request -/

/-- The mode permits the request: an open session for one that needs it, a closed one for session creation (R223). -/
def Permitted (i : Instr) (s : State) : Prop :=
  (needsOpen i = true → s.regs.isOpen = true) ∧ (createsSession i = true → s.regs.isOpen = false)

/-- The statuses a request can end with on an idle block without a reset, where each comes from, and the state it leaves
(R210 to R218). -/
inductive EndsWith (i : Instr) (s : State) : Status → State → Prop where
  | notInitialized (hn : needsOpen i = true) (hs : s.regs.isOpen = false) :
      EndsWith i s .notInitialized (refusedWith s .notInitialized)
  | invalidArgument (a c x y : Byte) (hi : i = .init a c x y ∨ i = .openSession a c x y)
      (hbad : s.regs.isOpen = true ∨ ¬ ∃ g, ConfigNames a c x y g) :
      EndsWith i s .invalidArgument (refusedWith s .invalidArgument)
  | outOfRange (hn : needsOpen i = true) (ho : s.regs.isOpen = true) :
      EndsWith i s .outOfRange (refusedWith s .outOfRange)
  | unreachable (a : Byte) (landed : Bool) (hc : createsSession i = true) (hs : s.regs.isOpen = false)
      (ha : s.answer = .fail landed) : EndsWith i s .peripheralUnreachable (unreachable s a)
  | writeFailed {regs : Session} {before tail : List Event} (w : Byte) (landed : Bool) (hp : Permitted i s)
      (hi : i ≠ .teardown)
      (hopen : s.regs.isOpen = true → regs = { s.regs with backlightOn := backlightAfter i s })
      (hclosed : s.regs.isOpen = false → regs.isOpen = false)
      (hbefore : ∀ e ∈ before, Event.isRsp e = false) (htail : ∀ e ∈ tail, Event.isRsp e = false) :
      EndsWith i s .writeFailed (failedAfter s regs before w landed tail)
  | ok {regs : Session} {evs : List Event} (d : List Byte) (hp : Permitted i s)
      (hopen : regs.isOpen = true ↔ i ≠ .teardown) (hevs : ∀ e ∈ evs, Event.isRsp e = false) :
      EndsWith i s .ok (completed s regs evs d)

/-! ### The kinds of requests exclude each other -/

theorem createsSession_of_needsOpen {i : Instr} (h : needsOpen i = true) : createsSession i = false := by
  simp only [needsOpen, Bool.and_eq_true, Bool.not_eq_true'] at h
  obtain ⟨⟨-, hc⟩, -⟩ := h
  exact hc

theorem ne_teardown_of_needsOpen {i : Instr} (h : needsOpen i = true) : i ≠ .teardown := by
  rintro rfl
  cases h

theorem needsOpen_of_createsSession {i : Instr} (h : createsSession i = true) : needsOpen i = false := by
  simp [needsOpen, h]

theorem ne_teardown_of_createsSession {i : Instr} (h : createsSession i = true) : i ≠ .teardown := by
  rintro rfl
  cases h

theorem permitted_of_needsOpen {i : Instr} {s : State} (hn : needsOpen i = true) (ho : s.regs.isOpen = true) : Permitted i s :=
  ⟨fun _ => ho, fun hc => by simp [createsSession_of_needsOpen hn] at hc⟩

theorem permitted_of_createsSession {i : Instr} {s : State} (hc : createsSession i = true) (hs : s.regs.isOpen = false) :
    Permitted i s :=
  ⟨fun hn => by simp [needsOpen_of_createsSession hc] at hn, fun _ => hs⟩

/-- The checks of session creation fail, or the session is closed and the operands name a size (R213). -/
theorem creation_refused_or_named (a c x y : Byte) (s : State) :
    (s.regs.isOpen = true ∨ ¬ ∃ g, ConfigNames a c x y g) ∨ (s.regs.isOpen = false ∧ ∃ g, ConfigNames a c x y g) := by
  cases s.regs.isOpen with
  | true => exact .inl (.inl rfl)
  | false => exact (em (∃ g, ConfigNames a c x y g)).symm.imp .inr fun h => ⟨rfl, h⟩

/-! ### Each kind by what its requests do -/

theorem endsWith_needsOpen {i : Instr} {s : State} (hn : needsOpen i = true) (hr : Ready s) :
    ∃ st t, exec i s = .next t ∧ EndsWith i s st t := by
  cases ho : s.regs.isOpen with
  | false => exact ⟨_, _, exec_needsOpen_closed hn hr ho, .notInitialized hn ho⟩
  | true =>
    have hp := permitted_of_needsOpen hn ho
    rcases outOfRange_or_runsOpen hn hr ho with h | ⟨evs, after, d, hrun, hevs, hafter⟩
    · exact ⟨_, _, h, .outOfRange hn ho⟩
    rcases hrun.ends hevs with h | ⟨before, w, landed, hbefore, h⟩
    · exact ⟨_, _, h, .ok d hp (by simp [hafter, ne_teardown_of_needsOpen hn]) hevs.silent⟩
    · exact ⟨_, _, h, .writeFailed w landed hp (ne_teardown_of_needsOpen hn) (fun _ => rfl) (by simp [ho])
        hbefore.silent (by simp)⟩

theorem endsWith_openSession {a c x y : Byte} {s : State} (hr : Ready s) :
    ∃ st t, exec (.openSession a c x y) s = .next t ∧ EndsWith (.openSession a c x y) s st t := by
  obtain ⟨hrefused, hcreates⟩ := openRuns a c x y s hr
  rcases creation_refused_or_named a c x y s with hbad | ⟨hs, g, hg⟩
  · exact ⟨_, _, hrefused hbad, .invalidArgument a c x y (.inr rfl) hbad⟩
  obtain ⟨hfail, hok⟩ := hcreates g hs hg
  cases ha : s.answer with
  | fail landed => exact ⟨_, _, hfail landed ha, .unreachable a landed rfl hs ha⟩
  | ok =>
    exact ⟨_, _, hok ha, .ok [] (permitted_of_createsSession rfl hs) (by simp [createdSession]) (by simp [Event.isRsp])⟩

theorem endsWith_init {a c x y : Byte} {s : State} (hr : Ready s) :
    ∃ st t, exec (.init a c x y) s = .next t ∧ EndsWith (.init a c x y) s st t := by
  obtain ⟨hrefused, hcreates⟩ := initRuns a c x y s hr
  rcases creation_refused_or_named a c x y s with hbad | ⟨hs, g, hg⟩
  · exact ⟨_, _, hrefused hbad, .invalidArgument a c x y (.inl rfl) hbad⟩
  obtain ⟨hunreachable, hok, hfail⟩ := hcreates g hs hg
  have hp : Permitted (.init a c x y) s := permitted_of_createsSession rfl hs
  have hevs := transfers_initEvents (c.getLsbD 7)
  have hopened : ∀ evs, Transfers evs → ∀ e ∈ Event.busOpen (cfgAddr a) true :: evs, Event.isRsp e = false :=
    fun evs h => List.forall_mem_cons.2 ⟨rfl, h.silent⟩
  rcases answersOk_or_failsFirst s 26 with hall | ⟨j, landed, hj, hf⟩
  · exact ⟨_, _, hok hall, .ok [] hp (by simp [createdSession]) (hopened _ hevs)⟩
  cases j with
  | zero => exact ⟨_, _, hunreachable landed hf.first, .unreachable a landed rfl hs hf.first⟩
  | succ j =>
    have hdraw : j < drawCount (initEvents (c.getLsbD 7)) := by
      rw [drawCount_initEvents]
      omega
    obtain ⟨before, w, rest, he, rfl⟩ := exists_write_of_lt_drawCount hevs.draws hdraw
    rw [he] at hevs
    exact ⟨_, _, hfail before w rest landed he (by rwa [Nat.add_comm]),
      .writeFailed w landed hp (by simp) (by simp [hs]) (fun _ => rfl) (hopened _ hevs.left) (by simp [Event.isRsp])⟩

theorem endsWith_teardown {s : State} (hr : Ready s) : ∃ st t, exec .teardown s = .next t ∧ EndsWith .teardown s st t := by
  obtain ⟨hopen, hclosed⟩ := teardownRuns s hr
  have hp : Permitted .teardown s := ⟨nofun, nofun⟩
  cases ho : s.regs.isOpen with
  | true => exact ⟨_, _, hopen ho, .ok [] hp (by simp) (by simp [Event.isRsp])⟩
  | false => exact ⟨_, _, hclosed ho, .ok [] hp (by simp [ho]) (by simp)⟩

/-- Every request on an idle block without a reset ends with one of the statuses. -/
theorem exec_request_ends {i : Instr} {s : State} (hi : isRequest i = true) (hr : Ready s) :
    ∃ st t, exec i s = .next t ∧ EndsWith i s st t := by
  rcases request_kinds hi with hn | hc | rfl
  · exact endsWith_needsOpen hn hr
  · cases i
    case init => exact endsWith_init hr
    case openSession => exact endsWith_openSession hr
    all_goals cases hc
  · exact endsWith_teardown hr

/-! ## The status in the history -/

/-- The status is that of the one response, the last event; only OK has data (R103, R104). -/
theorem EndsWith.answered {i : Instr} {s t : State} {st : Status} (h : EndsWith i s st t) :
    ∃ evs d, t.history = s.history ++ evs ++ [.rsp st d] ∧ (∀ e ∈ evs, Event.isRsp e = false) ∧ (st ≠ .ok → d = []) := by
  cases h with
  | notInitialized | invalidArgument | outOfRange => exact ⟨[], [], by simp [refusedWith], by simp, fun _ => rfl⟩
  | unreachable a =>
    exact ⟨[.busOpen (cfgAddr a) false], [], by simp [Sys2Proof.unreachable], by simp [Event.isRsp], fun _ => rfl⟩
  | @writeFailed regs before tail w landed _ _ _ _ hbefore htail =>
    refine ⟨before ++ .wr w false :: tail, [], by simp [failedAfter], ?_, fun _ => rfl⟩
    exact List.forall_mem_append.2 ⟨hbefore, List.forall_mem_cons.2 ⟨rfl, htail⟩⟩
  | @ok regs evs d _ _ hevs => exact ⟨evs, d, rfl, hevs, fun hne => absurd rfl hne⟩

/-- A response among a request's events tells how the request ended. -/
theorem endsWith_of_rsp_mem {i : Instr} {s t : State} {evs : List Event} {st : Status} {d : List Byte}
    (hi : isRequest i = true) (hr : Ready s) (h : exec i s = .next t) (hh : t.history = s.history ++ evs)
    (hm : .rsp st d ∈ evs) : EndsWith i s st t ∧ (st ≠ .ok → d = []) := by
  obtain ⟨st', t', h', hends⟩ := exec_request_ends hi hr
  cases h.symm.trans h'
  obtain ⟨evs', d', hh', hsilent, hd⟩ := hends.answered
  rw [List.append_assoc] at hh'
  cases List.append_cancel_left (hh.symm.trans hh')
  rcases List.mem_append.1 hm with hm | hm
  · cases hsilent _ hm
  · cases List.mem_singleton.1 hm
    exact ⟨hends, hd⟩

/-! ## PERIPHERAL_UNREACHABLE (R211) -/

/-- Settles O21: of the ends of a request only a failed `BusOpen` has this status. -/
theorem onlyCreationIsUnreachable : Obligations.OnlyCreationIsUnreachable := by
  unfold Obligations.OnlyCreationIsUnreachable
  intro i s t evs d hi hr h hh hm
  obtain ⟨hends, hd⟩ := endsWith_of_rsp_mem hi hr h hh hm
  cases hends with
  | unreachable a landed hc hs ha =>
    cases List.append_cancel_left hh
    exact ⟨hc, hs, rfl, rfl, rfl, hd (by simp), landed, ha⟩

/-! ## The modes of the session (R223) -/

/-- Settles O22, by the end of the request. -/
theorem modesOfTheSession : Obligations.ModesOfTheSession := by
  unfold Obligations.ModesOfTheSession
  intro i s hi hr
  obtain ⟨st, t, h, hends⟩ := exec_request_ends hi hr
  obtain ⟨evs, d, hh, -, -⟩ := hends.answered
  refine ⟨t, evs, st, d, h, hh, ?_⟩
  cases hends with
  | notInitialized hn hs =>
    simp [refusedWith, hs, createsSession_of_needsOpen hn, ne_teardown_of_needsOpen hn]
  | invalidArgument a c x y hi' hbad =>
    rcases hi' with rfl | rfl
    all_goals simp [refusedWith, needsOpen, createsSession]
  | outOfRange hn ho =>
    simp [refusedWith, ho, createsSession_of_needsOpen hn, ne_teardown_of_needsOpen hn]
  | unreachable a landed hc hs ha =>
    simp [unreachable, hs, needsOpen_of_createsSession hc, ne_teardown_of_createsSession hc]
  | writeFailed w landed hp hne hopen hclosed =>
    obtain ⟨hneeds, hcreates⟩ := hp
    refine ⟨fun hs hn => ?_, fun ho hc => ?_, fun ho hn => ?_, fun hs hc => ?_, fun hi' => absurd hi' hne⟩
    · simp [hneeds hn] at hs
    · simp [hcreates hc] at ho
    · simp [failedAfter, hopen ho, ho]
    · simp [failedAfter, hclosed hs]
  | ok d hp hopen =>
    obtain ⟨hneeds, hcreates⟩ := hp
    refine ⟨fun hs hn => ?_, fun ho hc => ?_, fun ho hn => ?_, fun hs hc => ?_, fun hi' => ?_⟩
    · simp [hneeds hn] at hs
    · simp [hcreates hc] at ho
    · simp [completed, hopen, ne_teardown_of_needsOpen hn]
    · simp [completed, hopen, ne_teardown_of_createsSession hc]
    · simp [completed, ← Bool.not_eq_true, hopen, hi']

/-! ## NOT_INITIALIZED, OUT_OF_RANGE and INVALID_ARGUMENT (R213, R215, R216) -/

/-- Settles O23: the mode is the first check of every such request. -/
theorem closedSessionRefuses : Obligations.ClosedSessionRefuses := by
  unfold Obligations.ClosedSessionRefuses
  exact fun i s => exec_needsOpen_closed

/-- Settles O24, request by request: on an open session the bounds are the next check. -/
theorem outOfRangeRefuses : Obligations.OutOfRangeRefuses := by
  unfold Obligations.OutOfRangeRefuses
  exact fun s hr ho => ⟨fun column row => exec_setCursor_outside hr ho,
    fun line hout => ⟨exec_clearLine_outside hr ho hout, exec_setLine_outside hr ho hout⟩,
    fun slot pat => exec_createCustomChar_outside hr ho⟩

/-- Settles O25: a rejected packet's response is R106's, and of the ends of a request only a refused session creation has
this status. -/
theorem invalidArgumentCases : Obligations.InvalidArgumentCases := by
  unfold Obligations.InvalidArgumentCases
  obtain ⟨-, -, hundecodable⟩ := undecodablePacketsDoNothing
  refine ⟨fun s p rest r hr hm hd => ⟨_, hundecodable s p rest r hr hm hd, rfl⟩, ?_⟩
  refine fun i s t evs d hi hr h hh => ⟨fun hm => ?_, ?_⟩
  · obtain ⟨hends, hd⟩ := endsWith_of_rsp_mem hi hr h hh hm
    cases hends with
    | invalidArgument a c x y hi' hbad => exact ⟨hd (by simp), a, c, x, y, hi', hbad⟩
  · rintro ⟨rfl, a, c, x, y, hi', hbad⟩
    have hrefused : exec i s = .next (refusedWith s .invalidArgument) := by
      rcases hi' with rfl | rfl
      · exact exec_init_refused hr hbad
      · exact exec_openSession_refused hr hbad
    cases h.symm.trans hrefused
    cases List.append_cancel_left hh
    exact List.mem_singleton_self _

/-! ## What each error leaves (R218) -/

/-- Settles O26, by the end of the request: an error raised before any bus write leaves everything, a failed write leaves the
registers but the backlight, and of the controller nothing known. -/
theorem stateAfterEachError : Obligations.StateAfterEachError := by
  unfold Obligations.StateAfterEachError
  intro i s t evs st hi hr h hh
  rw [List.append_assoc] at hh
  obtain ⟨hends, -⟩ := endsWith_of_rsp_mem hi hr h hh (List.mem_append_right evs (List.mem_singleton_self _))
  cases hends with
  | notInitialized | invalidArgument | outOfRange | unreachable => exact ⟨fun _ => ⟨rfl, rfl⟩, by simp⟩
  | writeFailed w landed _ _ hopen => exact ⟨by simp, fun _ ho => ⟨hopen ho, rfl⟩⟩
  | ok => exact ⟨by simp, by simp⟩

end Sys2Proof

/-! SUPPORT. The reset input (spec/70_reset_and_hazards.md R240 to R242): a reset of an idle and of a busy block, and a
request with a reset position beside the same request without one. -/

namespace Sys2Proof

open Machine

/-! ## A reset as a move of the host (R240, R241) -/

/-- Settles O1: an idle block that takes a reset does the hardware reset and nothing else. -/
theorem resetClosesAndIdles : Obligations.ResetClosesAndIdles := by
  unfold Obligations.ResetClosesAndIdles
  exact ⟨⟨rfl, rfl, rfl, rfl, rfl, rfl, rfl⟩,
    fun s rest hb hm => ⟨_, step_idle_reset hb hm, rfl, rfl, rfl, rfl, rfl⟩⟩

/-! ## The reset position (R242; log 6) -/

/-- The state with the reset input asserted at step `r` of the request in progress. -/
def withResetAt (r : Nat) (s : State) : State := { s with seq := { s.seq with resetAt := some r } }

theorem answer_withResetAt (r : Nat) (s : State) : (withResetAt r s).answer = s.answer := rfl

/-- The flow with the reset position, where it goes on. -/
def Flow.withResetAt (r : Nat) : Flow → Flow
  | .go s => .go (Sys2Proof.withResetAt r s)
  | .done s => .done s

/-- What a flow without a reset does to the history `h`: nothing is taken back, and no response is given while it goes on. -/
def Lengthens (h : List Event) (x : Flow) : Prop :=
  Flow.Holds (fun t => t.seq.resetAt = none ∧ Silent h t) (fun u => h <+: u.history) x

theorem Lengthens.isPrefix {h : List Event} {x : Flow} (hx : Lengthens h x) : h <+: x.state.history := by
  refine Flow.Holds.reached hx ?_ fun _ => id
  rintro t ⟨-, evs, ht, -⟩
  exact ⟨evs, ht.symm⟩

theorem Silent.trans {h : List Event} {s t : State} (hs : Silent h s) (ht : Silent s.history t) : Silent h t := by
  obtain ⟨evs, he, hn⟩ := ht
  exact hs.append he hn

theorem Lengthens.of_silent {h : List Event} {t : State} {x : Flow} (ht : Silent h t) (hx : Lengthens t.history x) :
    Lengthens h x := by
  cases x with
  | go u => exact ⟨hx.1, ht.trans hx.2⟩
  | done u =>
    obtain ⟨evs, he, -⟩ := ht
    exact (he ▸ List.prefix_append ..).trans hx

/-- What a reset at step `r` makes of the flow `y`: it does not come to that step, or it is abandoned behind a beginning of
it that adds no response to the history `h`. -/
inductive CutShort (r : Nat) (h : List Event) : Flow → Flow → Prop where
  | notReached (y : Flow) : CutShort r h (Flow.withResetAt r y) y
  | abandoned {t : State} {y : Flow} (ht : Silent h t) (hy : t.history <+: y.state.history) :
      CutShort r h (.done (abandon t)) y

theorem CutShort.of_silent {r : Nat} {h : List Event} {t : State} {x y : Flow} (ht : Silent h t)
    (hx : CutShort r t.history x y) : CutShort r h x y := by
  cases hx with
  | notReached => exact .notReached y
  | abandoned hu hy => exact .abandoned (ht.trans hu) hy

/-- A flow that is over without a reset is over with one. -/
theorem CutShort.cases_done {r : Nat} {h : List Event} {u : State} {x : Flow} (hx : CutShort r h x (.done u)) :
    x = .done u ∨ ∃ t, x = .done (abandon t) ∧ Silent h t ∧ t.history <+: u.history := by
  cases hx with
  | notReached => exact .inl rfl
  | abandoned ht hy => exact .inr ⟨_, rfl, ht, hy⟩

/-- An operation that every reset position leaves alone or cuts short. -/
def Resettable (f : State → Flow) : Prop :=
  ∀ s, s.seq.resetAt = none → Lengthens s.history (f s) ∧ ∀ r, CutShort r s.history (f (withResetAt r s)) (f s)

theorem Resettable.andThen {f g : State → Flow} (hf : Resettable f) (hg : Resettable g) :
    Resettable fun s => (f s).andThen g := by
  intro s hs
  obtain ⟨hlen, hcut⟩ := hf s hs
  refine ⟨Flow.Holds.andThen hlen fun t ⟨hr, ht⟩ => (hg t hr).1.of_silent ht, fun r => ?_⟩
  have hr := hcut r
  dsimp only
  generalize f (withResetAt r s) = x at hr ⊢
  generalize f s = y at hlen hr ⊢
  cases hr with
  | notReached =>
    cases y with
    | go t => exact ((hg t hlen.1).2 r).of_silent hlen.2
    | done u => exact .notReached (.done u)
  | abandoned ht hy =>
    refine .abandoned ht (hy.trans ?_)
    cases y with
    | go t => exact (hg t hlen.1).1.isPrefix
    | done u => exact List.prefix_rfl

/-- A step of the sequencer: the reset comes before it, or the step does not see the reset input. -/
theorem Resettable.unlessReset {f : State → Flow} (hblind : ∀ r s, f (withResetAt r s) = Flow.withResetAt r (f s))
    (hlen : ∀ s, s.seq.resetAt = none → Lengthens s.history (f s)) : Resettable fun s => Machine.unlessReset s f := by
  intro s hs
  simp only [unlessReset_none f hs]
  refine ⟨hlen s hs, fun r => ?_⟩
  by_cases hr : (withResetAt r s).seq.resetAt = some (withResetAt r s).seq.upc
  · rw [Machine.unlessReset, if_pos hr]
    exact .abandoned (t := withResetAt r s) (Since.refl _ s) (hlen s hs).isPrefix
  · rw [Machine.unlessReset, if_neg hr, hblind]
    exact .notReached (f s)

/-- A step that goes on with at most one event. -/
theorem Lengthens.log {s t : State} {e : Event} (hs : t.seq.resetAt = none) (ht : t.history = s.history ++ [e])
    (he : Event.isRsp e = false) : Lengthens s.history (.go t) :=
  ⟨hs, (Since.refl _ s).log e ht he⟩

/-! ## The operations of a micro-program under a reset position -/

/-- Of the sequencer a raise reads the request alone. -/
theorem raise_of_sameRequest (e : Status) {s : State} {q : Sequencer} (hq : q.request = s.seq.request) :
    raise e { s with seq := q } = raise e s := by
  by_cases he : e = .writeFailed
  · subst he
    simp only [raise, State.onWriteFailed, hq]
    split <;> rfl
  · rw [raise_eq_respond e he, raise_eq_respond e he]
    rfl

theorem lengthens_raise (e : Status) (s : State) : Lengthens s.history (.done (raise e s)) := by
  obtain ⟨tail, -, hr⟩ := raise_history e s
  exact ⟨tail, hr.symm⟩

theorem resettable_busWrite (w : Byte) : Resettable (busWrite w) := by
  refine Resettable.unlessReset (fun r s => ?_) fun s hs => ?_
  · simp only [answer_withResetAt]
    cases s.answer with
    | ok => rfl
    | fail landed =>
      exact congrArg Flow.done (raise_of_sameRequest .writeFailed
        (s := (s.emit (.wr w false)).drawn.observe (Observer.failedWrite w landed)) rfl)
  · cases s.answer with
    | ok => exact .log (e := .wr w true) hs rfl rfl
    | fail landed =>
      obtain ⟨evs, he⟩ := lengthens_raise .writeFailed ((s.emit (.wr w false)).drawn.observe (Observer.failedWrite w landed))
      exact ⟨_, (List.append_assoc ..).symm.trans he⟩

theorem resettable_busOpen (a : Addr) : Resettable (Machine.busOpen a) := by
  refine Resettable.unlessReset (fun r s => ?_) fun s hs => ?_
  · simp only [answer_withResetAt]
    cases s.answer with
    | ok => rfl
    | fail landed => rfl
  · cases s.answer with
    | ok => exact .log (e := .busOpen a true) hs rfl rfl
    | fail landed => exact ⟨_, (List.append_assoc ..).symm⟩

theorem resettable_loadDelay (n : Nat) : Resettable (Machine.loadDelay n) :=
  .unlessReset (fun _ _ => rfl) fun s hs => ⟨hs, Since.refl _ s⟩

theorem resettable_waitDelay (n : Nat) : Resettable (Machine.waitDelay n) :=
  .unlessReset (fun _ _ => rfl) fun _ hs => .log (e := .dl n) hs rfl rfl

theorem resettable_delay (n : Nat) : Resettable (delay n) := (resettable_loadDelay n).andThen (resettable_waitDelay n)

theorem resettable_nibOp (n : Nibble) (rs : Bool) : Resettable (nibOp n rs) := fun s =>
  (resettable_busWrite _).andThen ((resettable_delay _).andThen ((resettable_busWrite _).andThen (resettable_delay _))) s

theorem resettable_byteOp (v : Byte) (rs : Bool) : Resettable (byteOp v rs) :=
  (resettable_nibOp _ rs).andThen (resettable_nibOp _ rs)

theorem resettable_micro (m : Micro) : Resettable m.run := by
  cases m with
  | busOpen a => exact resettable_busOpen a
  | busClose => exact .unlessReset (fun _ _ => rfl) fun _ hs => .log (e := .close) hs rfl rfl
  | word w => exact resettable_busWrite w
  | raw => exact fun s => resettable_busWrite _ s
  | nib n rs => exact resettable_nibOp n rs
  | cmd v => exact resettable_byteOp v false
  | data v => exact resettable_byteOp v true
  | loadDelay n => exact resettable_loadDelay n
  | waitDelay n => exact resettable_waitDelay n
  | set w => exact .unlessReset (fun _ _ => rfl) fun s hs => ⟨hs, Since.refl _ s⟩
  | raise e =>
    exact .unlessReset (fun r s => congrArg Flow.done (raise_of_sameRequest e (s := s) rfl)) fun s _ => lengthens_raise e s
  | respond d => exact .unlessReset (fun _ _ => rfl) fun _ _ => ⟨_, rfl⟩

theorem resettable_runAll (ms : List Micro) : Resettable (runAll ms) := by
  induction ms with
  | nil => exact fun s hs => ⟨⟨hs, Since.refl _ s⟩, fun r => .notReached (.go s)⟩
  | cons m ms ih => exact (resettable_micro m).andThen ih

/-- A reset at the step at hand comes before anything of the micro-operation. -/
theorem micro_resetNow (m : Micro) {s : State} (h : s.seq.resetAt = some s.seq.upc) : m.run s = .done (abandon s) := by
  have hnow : ∀ f, unlessReset s f = .done (abandon s) := fun f => if_pos h
  cases m <;> simp only [Micro.run, Machine.busOpen, Machine.busClose, busWrite, rawOp, nibOp, cmdOp, dataOp, byteOp,
    Machine.loadDelay, Machine.waitDelay, setOp, hnow, Flow.andThen_done]

/-! ## A request with a reset position (R242, U23) -/

/-- The micro-program of a request does not depend on the sequencer. -/
theorem requestProgram_withResetAt (i : Instr) (r : Nat) (s : State) :
    requestProgram i (withResetAt r s) = requestProgram i s := by
  cases i <;> rfl

/-- At position 0 a request does nothing. -/
theorem exec_resetAtZero {i : Instr} {s : State} (hi : isRequest i = true) (hr : Ready s) :
    exec i (withResetAt 0 s) = .next (abandon s) := by
  obtain ⟨⟨ms, m, hp, -⟩, -⟩ := requestProgram_shape i hi s
  rw [exec_eq_served (s := withResetAt 0 s) hi (show s.seq.busy = false by rw [hr]; rfl), requestProgram_withResetAt, served]
  cases hq : requestProgram i s with
  | nil => simp [hq] at hp
  | cons k ks =>
    rw [runAll, micro_resetNow k rfl]
    rfl

/-- At any position a request ends as it does without the reset, or it is abandoned behind a beginning of it. -/
theorem exec_cutShort {i : Instr} {s : State} (hi : isRequest i = true) (hr : Ready s) (r : Nat) :
    ∃ u, exec i s = .next u ∧ s.history <+: u.history ∧ u.seq = Sequencer.idle ∧
      (exec i (withResetAt r s) = .next u ∨
        ∃ t, exec i (withResetAt r s) = .next (abandon t) ∧ Silent s.history t ∧ t.history <+: u.history) := by
  have hb : s.seq.busy = false := by rw [hr]; rfl
  obtain ⟨u, hu⟩ := runAll_requestProgram_done hi s (accept (some (heldRequest i)) (requestProgram i s) s)
  obtain ⟨pre, -, hended⟩ := served_ended ⟨u, hu⟩
  obtain ⟨hlen, hcut⟩ := resettable_runAll (requestProgram i s) (accept (some (heldRequest i)) (requestProgram i s) s)
    (accept_resetAt hr _ _)
  refine ⟨_, exec_eq_served hi hb, hlen.isPrefix, hended.seq, ?_⟩
  rw [exec_eq_served (s := withResetAt r s) hi hb, requestProgram_withResetAt]
  have hcutr : CutShort r s.history
      (runAll (requestProgram i s) (accept (some (heldRequest i)) (requestProgram i s) (withResetAt r s))) (.done u) :=
    hu ▸ hcut r
  simp only [served, hu]
  rcases hcutr.cases_done with hx | ⟨t, hx, ht, hy⟩ <;> rw [hx]
  · exact .inl rfl
  · exact .inr ⟨t, rfl, ht, hy⟩

/-- Settles O56: a busy block that takes a reset abandons its request; at a reset position every operation of the
micro-program is left alone or cut short, and at position 0 the first one is. -/
theorem resetAbandonsTheRequest : Obligations.ResetAbandonsTheRequest := by
  unfold Obligations.ResetAbandonsTheRequest
  refine ⟨fun s rest hb hm => ⟨_, step_busy_reset hb hm, rfl, rfl, rfl, rfl⟩, fun i s r hi hr => ?_⟩
  obtain ⟨u, hu, ⟨all, hall⟩, hidle, hcut⟩ := exec_cutShort hi hr r
  have hdrop : u.history.drop s.history.length = all := by rw [← hall, List.drop_left]
  by_cases hr0 : r = 0
  · subst hr0
    exact ⟨_, u, [], exec_resetAtZero hi hr, hu, (List.append_nil _).symm, List.nil_prefix, rfl,
      .inr ⟨by simp, rfl, rfl⟩, fun _ => ⟨rfl, rfl, rfl⟩⟩
  rcases hcut with h | ⟨t, h, ⟨evs, ht, hsilent⟩, hpre⟩
  · exact ⟨u, u, all, h, hu, hall.symm, hdrop ▸ List.prefix_rfl, hidle, .inl rfl, fun h0 => absurd h0 hr0⟩
  · refine ⟨_, u, evs, h, hu, ht, ?_, rfl, .inr ⟨hsilent, rfl, rfl⟩, fun h0 => absurd h0 hr0⟩
    rw [hdrop]
    rwa [ht, ← hall, List.prefix_append_right_inj] at hpre

end Sys2Proof

/-! SUPPORT. The bus writes and the minimum delay of a history (spec/70_reset_and_hazards.md R252), as the sum over the
micro-program that makes it. -/

namespace Sys2Proof

open Machine

/-! ## The cost of events and of micro-operations -/

/-- Bus writes and minimum delay, together. -/
def cost (evs : List Event) : Nat × Nat := (writeCount evs, minDelay evs)

theorem cost_append (a b : List Event) : cost (a ++ b) = cost a + cost b := by
  simp [cost, writeCount_append, minDelay_append]

/-- The cost of a micro-operation (R252's first three rows; spec/40_signal_and_byte.md R120 to R122). -/
def Micro.cost : Micro → Nat × Nat
  | .word _ | .raw => (1, 0)
  | .nib _ _ => (2, 51)
  | .cmd _ | .data _ => (4, 102)
  | .waitDelay n => (0, n)
  | .busOpen _ | .busClose | .loadDelay _ | .set _ | .raise _ | .respond _ => (0, 0)

/-- The cost of a micro-program. -/
def programCost (ms : List Micro) : Nat × Nat := (ms.map Micro.cost).sum

theorem cost_microEvents (bl : Bool) (m : Micro) : cost (microEvents bl m) = Micro.cost m := by
  cases m <;> rfl

/-- The registers decide which words a micro-program writes, and not how many. -/
theorem cost_eventsFrom (ms : List Micro) (r : Session) : cost (eventsFrom r ms) = programCost ms := by
  induction ms generalizing r with
  | nil => rfl
  | cons m ms ih => rw [eventsFrom, cost_append, cost_microEvents, ih, programCost, programCost, List.map_cons, List.sum_cons]

theorem programCost_append (a b : List Micro) : programCost (a ++ b) = programCost a + programCost b := by
  rw [programCost, List.map_append, List.sum_append, programCost, programCost]

theorem programCost_nil : programCost [] = 0 := rfl

theorem programCost_cons (m : Micro) (ms : List Micro) : programCost (m :: ms) = Micro.cost m + programCost ms := rfl

theorem programCost_data (text : List Byte) : programCost (text.map Micro.data) = (4 * text.length, 102 * text.length) := by
  induction text with
  | nil => rfl
  | cons v text ih =>
    rw [List.map_cons, programCost_cons, ih, List.length_cons]
    simp only [Micro.cost, Prod.mk_add_mk, Prod.mk.injEq]
    omega

/-! ## A request that answers OK -/

theorem raise_getLast? (e : Status) (s : State) : (raise e s).history.getLast? = some (.rsp e []) := by
  obtain ⟨tail, rfl | rfl, hr⟩ := raise_history e s <;> simp [hr]

/-- Operations that go on make all their events, or the request has ended with an error. -/
theorem runAll_progress_or_error {ms : List Micro} (hms : ∀ m ∈ ms, Micro.goesOn m = true) {s : State}
    (hr : s.seq.resetAt = none) :
    (∃ t, runAll ms s = .go t ∧ Progress s t (regsAfterAll ms s.regs) (eventsFrom s.regs ms)) ∨
    ∃ t e, runAll ms s = .done t ∧ e ≠ .ok ∧ t.history.getLast? = some (.rsp e []) := by
  induction ms generalizing s with
  | nil => exact .inl ⟨s, rfl, Progress.refl s⟩
  | cons m ms ih =>
    rw [runAll]
    rcases micro_outcomes (hms m (List.mem_cons_self ..)) hr with ⟨t, h, p⟩ | ⟨t, _, _, _, _, -, h, -⟩ | ⟨a, -, h⟩
    all_goals rw [h]
    · rcases ih (fun k hk => hms k (List.mem_cons_of_mem _ hk)) (p.resetAt.trans hr) with ⟨u, hu, q⟩ | herr
      · rw [p.regs] at q
        exact .inl ⟨u, hu, p.trans q⟩
      · exact .inr herr
    · exact .inr ⟨_, .writeFailed, rfl, by decide, raise_getLast? _ t⟩
    · exact .inr ⟨_, .peripheralUnreachable, rfl, by decide, by simp⟩

/-- A raise or a response that answers OK makes its own event and nothing else. -/
theorem micro_events_of_ok {m : Micro} (hm : Micro.goesOn m = false) {s : State} (hr : s.seq.resetAt = none) {d : List Byte}
    (h : (m.run s).state.history.getLast? = some (.rsp .ok d)) (bl : Bool) :
    (m.run s).state.history = s.history ++ [.rsp .ok d] ∧ microEvents bl m = [.rsp .ok d] := by
  cases m
  case raise e =>
    simp only [Micro.run, unlessReset_none _ hr, Flow.state_done, raise_getLast?] at h ⊢
    cases h
    exact ⟨by rw [raise_eq_respond .ok (by decide), respond_history], rfl⟩
  case respond d' =>
    simp only [Micro.run, unlessReset_none _ hr, Flow.state_done, respond_history, List.getLast?_concat] at h ⊢
    cases h
    exact ⟨rfl, rfl⟩
  all_goals cases hm

/-- A micro-program whose last event is the OK response has made all its events. -/
theorem runAll_events_of_ok {ms : List Micro} (hms : ∀ m ∈ ms, Micro.goesOn m = true) {m : Micro}
    (hm : Micro.goesOn m = false) {s : State} (hr : s.seq.resetAt = none) {evs : List Event} {d : List Byte}
    (h : (runAll (ms ++ [m]) s).state.history = s.history ++ evs ++ [.rsp .ok d]) :
    eventsFrom s.regs (ms ++ [m]) = evs ++ [.rsp .ok d] := by
  have hlast : (runAll (ms ++ [m]) s).state.history.getLast? = some (.rsp .ok d) := by simp [h]
  rw [runAll_append] at h hlast
  rcases runAll_progress_or_error hms hr with ⟨t, ht, p⟩ | ⟨t, e, ht, he, hte⟩
  · have hone : runAll [m] t = m.run t := by
      rw [runAll]
      cases m.run t <;> rfl
    rw [ht, Flow.andThen_go, hone] at h hlast
    obtain ⟨hhist, hevs⟩ :=
      micro_events_of_ok hm (p.resetAt.trans hr) hlast (regsAfterAll ms s.regs).backlightOn
    rw [hhist, p.history, List.append_assoc, List.append_assoc] at h
    rw [eventsFrom_append, eventsFrom, hevs, eventsFrom, List.append_nil]
    exact List.append_cancel_left h
  · rw [ht, Flow.andThen_done, Flow.state_done, hte] at hlast
    cases hlast
    exact absurd rfl he

theorem exec_events_of_ok {i : Instr} {s t : State} {evs : List Event} {d : List Byte} (hi : isRequest i = true)
    (hr : Ready s) (h : exec i s = .next t) (hh : t.history = s.history ++ evs ++ [.rsp .ok d]) :
    eventsFrom s.regs (requestProgram i s) = evs ++ [.rsp .ok d] := by
  obtain ⟨⟨ms, m, hp, hm, hms⟩, -⟩ := requestProgram_shape i hi s
  rw [eq_served_of_exec hi h, served] at hh
  rw [hp] at hh ⊢
  exact runAll_events_of_ok hms hm (accept_resetAt hr _ _) hh

/-! ## The micro-programs by their cost (R252) -/

/-- A micro-program of the cost `n`, or an error raised by a check. -/
def CostsOrErr (n : Nat × Nat) (ms : List Micro) : Prop := programCost ms = n ∨ ∃ e, e ≠ .ok ∧ ms = [.raise e]

theorem costsOrErr_andThen {α : Type} {n : Nat × Nat} {c : Checked α} {f : α → Checked (List Micro)}
    (hc : c ≠ .err .ok) (hf : ∀ a, CostsOrErr n (f a).program) : CostsOrErr n (c.andThen f).program := by
  cases c with
  | ok a => exact hf a
  | err e => exact .inr ⟨e, fun he => hc (he ▸ rfl), rfl⟩

theorem require_ne_err_ok {p : Bool} {e : Status} (he : e ≠ .ok) : require p e ≠ .err .ok := by
  cases p
  · simpa using he
  · simp

theorem addr_ne_err_ok (s : State) (column row : Byte) : addr s column row ≠ .err .ok := by
  unfold addr
  split
  · simp
  · split <;> simp

theorem createChecks_ne_err_ok (a c x y : Byte) (s : State) : createChecks a c x y s ≠ .err .ok := by
  rcases createChecks_cases a c x y s with ⟨g, -, -, h⟩ | h <;> simp [h]

/-- A request that needs an open session, by the cost behind that check. -/
theorem costsOrErr_open {n : Nat × Nat} {s : State} {f : Unit → Checked (List Micro)}
    (hf : ∀ a, CostsOrErr n (f a).program) :
    CostsOrErr n ((requireOpen s).andThen f).program :=
  costsOrErr_andThen (require_ne_err_ok (by decide)) hf

theorem costsOrErr_lineProgram (line : Byte) (text : List Byte) (s : State) :
    CostsOrErr (4 * (1 + s.regs.columns.toNat), 102 * (1 + s.regs.columns.toNat)) (lineProgram line text s).program := by
  refine costsOrErr_open fun _ => costsOrErr_andThen (addr_ne_err_ok s 0 line) fun a => .inl ?_
  rw [Checked.program_ok, programCost_append, programCost_append, programCost_data, lineChars_length]
  simp only [programCost_cons, programCost_nil, Micro.cost, Prod.mk_add_mk, Prod.mk.injEq, add_zero]
  omega

theorem costsOrErr_putStringProgram (text : List Byte) (s : State) :
    CostsOrErr (4 * text.length, 102 * text.length) (putStringProgram text s).program := by
  refine costsOrErr_open fun _ => .inl ?_
  rw [Checked.program_ok, programCost_append, programCost_data]
  rfl

theorem programCost_createSteps (a c : Byte) (g : Geometry) : programCost (createSteps a c g) = 0 := rfl

theorem programCost_initSteps : programCost initSteps = (25, 55912) := by decide

/-- Every request's micro-program has the cost of R252's table. -/
theorem costsOrErr_requestProgram {i : Instr} (hi : isRequest i = true) (s : State) :
    CostsOrErr (costOf i s) (requestProgram i s) := by
  cases i
  case init a c x y =>
    refine costsOrErr_andThen (createChecks_ne_err_ok a c x y s) fun g => .inl ?_
    rw [Checked.program_ok, programCost_append, programCost_append, programCost_createSteps, programCost_initSteps]
    rfl
  case openSession a c x y =>
    refine costsOrErr_andThen (createChecks_ne_err_ok a c x y s) fun g => .inl ?_
    rw [Checked.program_ok, programCost_append, programCost_createSteps]
    rfl
  case teardown =>
    refine .inl ?_
    simp only [requestProgram, teardownProgram, Checked.program_ok]
    split <;> rfl
  case clear | home | display | cursor | blink | backlightSet | backlightGet | getDimensions | putChar =>
    exact costsOrErr_open fun _ => .inl rfl
  case setCursor column row =>
    exact costsOrErr_open fun _ => costsOrErr_andThen (addr_ne_err_ok s column row) fun _ => .inl rfl
  case clearLine line => exact costsOrErr_lineProgram line [] s
  case setLine line text => exact costsOrErr_lineProgram line text s
  case putString text => exact costsOrErr_putStringProgram text s
  case formattedWrite text => exact costsOrErr_putStringProgram (cutText text) s
  case createCustomChar slot pat =>
    refine costsOrErr_open fun _ => costsOrErr_andThen (require_ne_err_ok (by decide)) fun _ => .inl ?_
    rw [Checked.program_ok, programCost_append, programCost_append, programCost_data]
    simp only [programCost_cons, programCost_nil, Micro.cost, costOf, Prod.mk_add_mk, Prod.mk.injEq, add_zero]
    omega
  all_goals cases hi

/-- A request that answers OK has the cost of its micro-program: a check that fails answers with its error. -/
theorem cost_of_ok {i : Instr} {s t : State} {evs : List Event} {d : List Byte} (hi : isRequest i = true) (hr : Ready s)
    (h : exec i s = .next t) (hh : t.history = s.history ++ evs ++ [.rsp .ok d]) : cost evs = costOf i s := by
  have hevs := exec_events_of_ok hi hr h hh
  rcases costsOrErr_requestProgram hi s with hcost | ⟨e, he, hraise⟩
  · rw [← hcost, ← cost_eventsFrom (requestProgram i s) s.regs, hevs, cost_append]
    rfl
  · rw [hraise] at hevs
    cases List.append_inj_right' (s₁ := []) hevs rfl
    exact absurd rfl he

/-! ## The micro-operation rows (R252, log 20) -/

theorem cost_of_microOf {i : Instr} {m : Micro} (h : microOf i = some m) (s : State) : Micro.cost m = costOf i s := by
  cases i <;> cases h <;> rfl

/-- A row uses an answer of the bus for each of its writes. -/
theorem drawCount_of_microOf {i : Instr} {m : Micro} (h : microOf i = some m) (s : State) (bl : Bool) :
    drawCount (microEvents bl m) = (costOf i s).1 := by
  cases i <;> cases h <;> rfl

/-- Settles O58: events cost what the micro-operations cost that make them, and R252's table has the sums. -/
theorem writeCountsAndMinimumDelays : Obligations.WriteCountsAndMinimumDelays := by
  unfold Obligations.WriteCountsAndMinimumDelays
  refine ⟨fun i s t evs d hi _ hr h hh => Prod.mk.inj (cost_of_ok hi hr h hh), fun i s hi hr ha => ?_⟩
  obtain ⟨m, hm⟩ := (isRequest_or_microOf i).resolve_left (by simp [hi])
  rw [← drawCount_of_microOf hm s s.regs.backlightOn] at ha
  exact ⟨_, _, micro_sent hm hr ha, rfl, Prod.mk.inj ((cost_microEvents _ m).trans (cost_of_microOf hm s))⟩

end Sys2Proof
